-- ==== Sys2Proof/Word.lean ====
section
/-! DEFINITION. The words of the block (R8): all values are unsigned; bit 0 is the least significant. -/

namespace Sys2Proof

/-- `u8` of R8: a transferred byte, a BCD byte, an address byte. -/
abbrev Byte := BitVec 8

/-- `u64` of R8: the command word `CW` and the response word `RW` (R31). -/
abbrev Word := BitVec 64

/-- A logic level (R8): `true` is high, 1; `false` is low, 0. -/
abbrev Level := Bool

end Sys2Proof
end

