-- ==== Sys2Proof/Syntax.lean ====
section
/-! DEFINITION. The operations of the block, one constructor per row of spec/opcode_table.json (R11, R93,
R101), their operands, the two encodings' carriers (R90) and the events of the trace (R9). -/

namespace Sys2Proof

/-- The three lines (R10). -/
inductive Line where
  | clk
  | io
  | ce
deriving DecidableEq, Repr

/-- The direction operand of CFGLINE (R100, R131): `inp` is the spec's `in`. -/
inductive Dir where
  | out
  | inp
deriving DecidableEq, Repr

/-- The five line primitives (R130), by the source's names. -/
inductive Primitive where
  | configureLine
  | setHigh
  | setLow
  | readLevel
  | sleepMicros
deriving DecidableEq, Repr

/-- A Time Value (R33): six plain unsigned fields, no day of week, nothing normalised. -/
structure TimeValue where
  year : BitVec 16
  month : Byte
  day : Byte
  hour : Byte
  minute : Byte
  second : Byte
deriving DecidableEq, Repr

/-- One event of the trace (R9): `Cfg(L,dir)`, `Set(L,b)`, `Sample(L)=b`, `Delay(d)` with `d` in microseconds (R135). -/
inductive Event where
  | cfg (l : Line) (d : Dir)
  | set (l : Line) (b : Level)
  | sample (l : Line) (b : Level)
  | delay (d : BitVec 16)
deriving DecidableEq, Repr

/-- The instructions: the sixteen operations of the command port (R101), then the sixteen wire command bytes of
the literal table (R93), which are the first byte of a frame and not command words (R90). -/
inductive Instr where
  | init
  | settime (t : TimeValue)
  | readtime
  | wrreg (a v : Byte)
  | rdreg (a : Byte)
  | cehi
  | celo
  | wrbyte (v : Byte)
  | rdbyte
  | bcd2dec (b : Byte)
  | dec2bcd (d : Byte)
  | cfgline (l : Line) (d : Dir)
  | sethi (l : Line)
  | setlo (l : Line)
  | rdlvl (l : Line)
  | sleep (d : BitVec 16)
  | secW
  | secR
  | minW
  | minR
  | hourW
  | hourR
  | dateW
  | dateR
  | monthW
  | monthR
  | dayW
  | dayR
  | yearW
  | yearR
  | wpW
  | wpR
deriving DecidableEq, Repr

/-- The two encodings of R90: a 64-bit command word on the command port, or a wire command byte. -/
inductive Encoded where
  | word (w : Word)
  | wire (b : Byte)
deriving DecidableEq, Repr

end Sys2Proof
end

