-- ==== Sys2Proof/Config.lean ====
section
/-! DEFINITION. What is fixed for the block: the constants of R5, the instance's parameters of R6, and the free
values (the draws of spec/93_implementation_defined.md), which are opaque constants with no body. -/

namespace Sys2Proof

/-- R6 `BACKEND`: the real block, or the non-hardware substitute of R231. -/
inductive Backend where
  | real
  | null
deriving DecidableEq, Repr

/-- The values of the instance's parameters of R6. `PIN_*` are opaque identifiers on which no rule depends (R10). -/
structure ParamValues where
  pinClk : Nat
  pinIo : Nat
  pinCe : Nat
  backend : Backend
  nullTime : TimeValue
  delayTicks : Nat
  tickNs : Nat
deriving DecidableEq, Repr

/-- The constraints R6 puts on the parameters: the pins are pairwise distinct on the real backend (D13; on the null backend
they are ignored, R231), `DELAY_TICKS` and `TICK_NS` are positive and hold a level for at least 1000 ns (R7, D4). -/
def ParamValues.ok (c : ParamValues) : Bool :=
  (c.backend == .null || (c.pinClk != c.pinIo && c.pinClk != c.pinCe && c.pinIo != c.pinCe))
    && 0 < c.delayTicks && 0 < c.tickNs && 1000 ≤ c.delayTicks * c.tickNs

/-- The instance's parameters of R6, assigned at construction and never changed (R20). They carry R6's constraints: an
instance that breaks one cannot be built, so nothing can be proved of it (D13; log entry 4). -/
structure Params extends ParamValues where
  contract : toParamValues.ok = true
deriving DecidableEq, Repr

namespace Config

/-- R5 `DELAY_US`. -/
def delayUs : BitVec 16 := 1

/-- R5 `YEAR_BASE`. -/
def yearBase : Nat := 2000

/-- The last year SETTIME takes (R223). -/
def yearLast : Nat := 2099

/-- R5 `CH_MASK`. -/
def chMask : Byte := 0x7F

/-- R5 `WP_OFF`. -/
def wpOff : Byte := 0x00

/-- R5 `WP_ON`. -/
def wpOn : Byte := 0x80

/-- The default `NULL_TIME` (R231): the all-zero payload. -/
def zeroTime : TimeValue := ⟨0, 0, 0, 0, 0, 0⟩

/-- The parameters' defaults for tests (spec/92_eei_decisions.md, open parameters; log entry 4). -/
def defaultParams : Params :=
  { pinClk := 0, pinIo := 1, pinCe := 2, backend := .real, nullTime := zeroTime, delayTicks := 1, tickNs := 1000
    contract := by decide }

/-- FREE VALUE (U20, U21; log entry 6): the level of a pad that is `unconf`, or configured `out` and not yet set. -/
opaque freeLevel : Nat → List Event → Level

/-- FREE VALUE (U7, R71, R134; log entry 7): the answer to a `Sample` with no peripheral bound, and to one that a bound
oracle says nothing of; a value of the draw's number and of the trace so far. -/
opaque freeSample : Nat → List Event → Level

/-- FREE VALUE (U23, R27; log entry 8): `SR` between operations and after a reset in a run. -/
opaque freeSr : Nat → Byte

/-- FREE VALUE (U23, R27; log entry 8): `BC`, which holds 0..8 (R20). -/
opaque freeBc : Nat → Fin 9

/-- FREE VALUE (U23, R27; log entry 8): `TMR`. -/
opaque freeTmr : Nat → Nat

/-- FREE VALUE (U24; log entry 9): `CW` after a reset in a run. -/
opaque freeCw : Nat → Word

/-- FREE VALUE (U24; log entry 9): `RW` after a reset in a run. -/
opaque freeRw : Nat → Word

end Config
end Sys2Proof
end

