-- ==== Sys2Proof/Machine/Operands.lean ====
section
/-! DEFINITION. Operand assembly (R99): bits of a byte, the literal address table (R61, R93), the BCD codec
(R201, R202), a Time Value's packing (R103) and the year's and the seconds' operand forms (R96, R98). -/

namespace Sys2Proof.Machine

/-- The bits of a byte in the order of the wire, least significant first (R63). -/
def bitsOf (v : Byte) : List Level :=
  [v.getLsbD 0, v.getLsbD 1, v.getLsbD 2, v.getLsbD 3, v.getLsbD 4, v.getLsbD 5, v.getLsbD 6, v.getLsbD 7]

/-- `b[i] <- v` (R73's `cmd[n] <- IO.level`). -/
def putBit (b : Byte) (i : Nat) (v : Level) : Byte :=
  (b &&& ~~~(1#8 <<< i)) ||| (if v then 1#8 <<< i else 0#8)

/-- R153: "sets the corresponding bit if high". -/
def orBit (b : Byte) (i : Nat) (v : Level) : Byte :=
  if v then b ||| (1#8 <<< i) else b

/-- `SR <- SR >> 1` (R157, R158), zeros entering at bit 7. -/
def shiftOut (sr : Byte) : Byte := sr >>> 1

/-- `SR <- {s, SR[7:1]}` (R157, R159). -/
def shiftIn (sr : Byte) (s : Level) : Byte := (sr >>> 1) ||| (if s then 0x80#8 else 0#8)

/-- One row of the register map (R61). -/
structure RegRow where
  k : Nat
  writeAddr : Byte
  readAddr : Byte
deriving DecidableEq, Repr

/-- The literal table of R61 and R93, which R187 forbids to compute. -/
def addrTable : List RegRow :=
  [⟨0, 0x80, 0x81⟩, ⟨1, 0x82, 0x83⟩, ⟨2, 0x84, 0x85⟩, ⟨3, 0x86, 0x87⟩,
   ⟨4, 0x88, 0x89⟩, ⟨5, 0x8A, 0x8B⟩, ⟨6, 0x8C, 0x8D⟩, ⟨7, 0x8E, 0x8F⟩]

/-- `k(cmd)` of R73: the row whose write or read address equals the byte, by lookup. -/
def rowOf (b : Byte) : Option Nat :=
  (addrTable.find? fun r => r.writeAddr == b || r.readAddr == b).map RegRow.k

/-- The byte is in the write column of R93 (R108). -/
def isWriteAddr (b : Byte) : Bool := addrTable.any fun r => r.writeAddr == b

/-- The byte is in the read column of R93 (R108). -/
def isReadAddr (b : Byte) : Bool := addrTable.any fun r => r.readAddr == b

/-- The pairs CFGLINE takes (R131): `CLK` and `CE` are only ever outputs (R22). -/
def cfgPairOk : Line → Dir → Bool
  | .clk, .out => true
  | .clk, .inp => false
  | .io, .out => true
  | .io, .inp => true
  | .ce, .out => true
  | .ce, .inp => false

/-- SETTIME's year window (R223, R224). -/
def yearOk (y : BitVec 16) : Bool := Config.yearBase ≤ y.toNat && y.toNat ≤ Config.yearLast

/-- `bcdToDecimal` (R201), by the source's formula on every byte. -/
def bcdToDecimal (b : Byte) : Byte := BitVec.ofNat 8 ((b.toNat >>> 4) * 10 + (b.toNat &&& 0x0F))

/-- `decimalToBcd` (R202), by the source's formula and `trunc8` (D16). -/
def decimalToBcd (d : Byte) : Byte := BitVec.ofNat 8 (((d.toNat / 10) <<< 4) ||| (d.toNat % 10))

/-- The seconds byte with the clock-halt flag masked off (R96, R227). -/
def maskSeconds (b : Byte) : Byte := b &&& Config.chMask

/-- The year byte SETTIME writes (R98, R224); used only for a year inside the window. -/
def yearByte (y : BitVec 16) : Byte := decimalToBcd (BitVec.ofNat 8 (y.toNat - Config.yearBase))

/-- The year READTIME rebuilds, `2000 + BCD2DEC(raw)` in 16 bits (R227). -/
def yearOf (b : Byte) : BitVec 16 := BitVec.ofNat 16 (Config.yearBase + (bcdToDecimal b).toNat)

/-- The 56-bit payload of a Time Value (R103). -/
def packTime (t : TimeValue) : BitVec 56 := t.year ++ t.month ++ t.day ++ t.hour ++ t.minute ++ t.second

/-- The Time Value at the bit positions of R103. -/
def unpackTime (w : BitVec 56) : TimeValue :=
  { year := w.extractLsb' 40 16, month := w.extractLsb' 32 8, day := w.extractLsb' 24 8
    hour := w.extractLsb' 16 8, minute := w.extractLsb' 8 8, second := w.extractLsb' 0 8 }

/-- A result byte in `RW[7:0]`, zeros above (R104). -/
def bytePayload (b : Byte) : BitVec 56 := b.setWidth 56

/-- RDLVL's level in `RW[0]`, zeros above (R104). -/
def bitPayload (b : Level) : BitVec 56 := (BitVec.ofBool b).setWidth 56

end Sys2Proof.Machine
end

