-- ==== Sys2Proof/WellFormed.lean ====
section
/-! DEFINITION. The operand checks of an instruction that depend on no state: those of spec/93 F2, F8, F9 and F11.
A word whose operands fail one of them is still a legal word (R108, R223; spec/95 V2): it decodes, and its meaning
refuses it (on the null backend SETTIME takes any year, R231). -/

namespace Sys2Proof

/-- The operand contract of each instruction on the real backend. -/
def Instr.wellFormed : Instr → Bool
  | .init => true
  | .settime t => Machine.yearOk t.year
  | .readtime => true
  | .wrreg a _ => Machine.isWriteAddr a
  | .rdreg a => Machine.isReadAddr a
  | .cehi => true
  | .celo => true
  | .wrbyte _ => true
  | .rdbyte => true
  | .bcd2dec _ => true
  | .dec2bcd _ => true
  | .cfgline l d => Machine.cfgPairOk l d
  | .sethi _ => true
  | .setlo _ => true
  | .rdlvl _ => true
  | .sleep _ => true
  | .secW => true
  | .secR => true
  | .minW => true
  | .minR => true
  | .hourW => true
  | .hourR => true
  | .dateW => true
  | .dateR => true
  | .monthW => true
  | .monthR => true
  | .dayW => true
  | .dayR => true
  | .yearW => true
  | .yearR => true
  | .wpW => true
  | .wpR => true

end Sys2Proof
end

