-- ==== Sys2Proof/Decode.lean ====
section
/-! DEFINITION. The decoder of command words (R100 to R103, R105) and of wire command bytes (R93), total and
rejecting by name, and the encoder written from the same tables. -/

namespace Sys2Proof

/-- Why a command word is illegal (R105), or a wire byte is no command byte (R108, spec/93 E3). -/
inductive DecodeReject where
  | unknownOpcode
  | mustBeZero
  | illegalLine
  | illegalDirection
  | notACommandByte
deriving DecidableEq, Repr

/-- `CW[hi:lo]` given by its low bit and its width. -/
def fieldOf (w : Word) (lo width : Nat) : BitVec width := w.extractLsb' lo width

/-- Format N: no operand, `CW[55:0] = 0`. -/
def decodeN (w : Word) (i : Instr) : Except DecodeReject Instr :=
  if fieldOf w 0 56 = 0 then .ok i else .error .mustBeZero

/-- Format B: one byte in `CW[7:0]`, `CW[55:8] = 0`. -/
def decodeB (w : Word) (f : Byte → Instr) : Except DecodeReject Instr :=
  if fieldOf w 8 48 = 0 then .ok (f (fieldOf w 0 8)) else .error .mustBeZero

/-- Format AB: address `CW[15:8]`, byte `CW[7:0]`, `CW[55:16] = 0`. -/
def decodeAB (w : Word) (f : Byte → Byte → Instr) : Except DecodeReject Instr :=
  if fieldOf w 16 40 = 0 then .ok (f (fieldOf w 8 8) (fieldOf w 0 8)) else .error .mustBeZero

/-- The line field `L` (R100): 3 is illegal. -/
def decodeLine (l : BitVec 2) : Option Line :=
  match l.toNat with
  | 0 => some .clk
  | 1 => some .io
  | 2 => some .ce
  | _ => none

/-- Format L: `L = CW[9:8]`, `dir = CW[0]`, the other bits of `CW[55:0]` zero; `f` says what a direction gives. -/
def decodeL (w : Word) (f : Line → Bool → Except DecodeReject Instr) : Except DecodeReject Instr :=
  if fieldOf w 10 46 = 0 ∧ fieldOf w 1 7 = 0 then
    match decodeLine (fieldOf w 8 2) with
    | some l => f l (fieldOf w 0 1 = 1#1)
    | none => .error .illegalLine
  else .error .mustBeZero

/-- Format L with a direction (CFGLINE): 0 is `out`, 1 is `in` (R100). -/
def withDir (l : Line) (d : Bool) : Except DecodeReject Instr := .ok (.cfgline l (if d then .inp else .out))

/-- Format L without a direction: `dir = 1` is illegal (R105). -/
def noDir (f : Line → Instr) (l : Line) (d : Bool) : Except DecodeReject Instr :=
  if d then .error .illegalDirection else .ok (f l)

/-- Format W: a 16-bit count in `CW[15:0]`, `CW[55:16] = 0`. -/
def decodeW (w : Word) (f : BitVec 16 → Instr) : Except DecodeReject Instr :=
  if fieldOf w 16 40 = 0 then .ok (f (fieldOf w 0 16)) else .error .mustBeZero

/-- Format T: a Time Value in `CW[55:0]`; no bit must be zero. -/
def decodeT (w : Word) : Except DecodeReject Instr := .ok (.settime (Machine.unpackTime (fieldOf w 0 56)))

/-- The opcode map of R101: every opcode not listed is illegal. -/
def decodeWord (w : Word) : Except DecodeReject Instr :=
  match (fieldOf w 56 8).toNat with
  | 0x01 => decodeN w .init
  | 0x02 => decodeT w
  | 0x03 => decodeN w .readtime
  | 0x10 => decodeAB w .wrreg
  | 0x11 => decodeB w .rdreg
  | 0x12 => decodeN w .cehi
  | 0x13 => decodeN w .celo
  | 0x20 => decodeB w .wrbyte
  | 0x21 => decodeN w .rdbyte
  | 0x30 => decodeB w .bcd2dec
  | 0x31 => decodeB w .dec2bcd
  | 0x40 => decodeL w withDir
  | 0x41 => decodeL w (noDir .sethi)
  | 0x42 => decodeL w (noDir .setlo)
  | 0x43 => decodeL w (noDir .rdlvl)
  | 0x44 => decodeW w .sleep
  | _ => .error .unknownOpcode

/-- The literal table of the sixteen wire command bytes (R93). -/
def decodeWire (b : Byte) : Except DecodeReject Instr :=
  match b.toNat with
  | 0x80 => .ok .secW
  | 0x81 => .ok .secR
  | 0x82 => .ok .minW
  | 0x83 => .ok .minR
  | 0x84 => .ok .hourW
  | 0x85 => .ok .hourR
  | 0x86 => .ok .dateW
  | 0x87 => .ok .dateR
  | 0x88 => .ok .monthW
  | 0x89 => .ok .monthR
  | 0x8A => .ok .dayW
  | 0x8B => .ok .dayR
  | 0x8C => .ok .yearW
  | 0x8D => .ok .yearR
  | 0x8E => .ok .wpW
  | 0x8F => .ok .wpR
  | _ => .error .notACommandByte

/-- The decoder, on either of the two encodings (R90). -/
def decode : Encoded → Except DecodeReject Instr
  | .word w => decodeWord w
  | .wire b => decodeWire b

/-- How a row of spec/opcode_table.json is laid out: a row of 8 bits is a wire command byte, any other a command word
(log entry 3). -/
def layOut (nbits w : Nat) : Encoded :=
  if nbits = 8 then .wire (BitVec.ofNat 8 w) else .word (BitVec.ofNat 64 w)

/-- The instruction the decoder reads from a row's bits. -/
def decodeTableWord (nbits w : Nat) : Option Instr :=
  match decode (layOut nbits w) with
  | .ok i => some i
  | .error _ => none

/-- The line field of R100. -/
def encodeLine : Line → BitVec 2
  | .clk => 0#2
  | .io => 1#2
  | .ce => 2#2

/-- The direction bit of R100. -/
def encodeDir : Dir → BitVec 1
  | .out => 0#1
  | .inp => 1#1

/-- Format N (R100). -/
def encodeN (op : BitVec 8) : Word := op ++ (0#56)

/-- Format B (R100). -/
def encodeB (op : BitVec 8) (b : Byte) : Word := op ++ (0#48) ++ b

/-- Format AB (R100). -/
def encodeAB (op : BitVec 8) (a v : Byte) : Word := op ++ (0#40) ++ a ++ v

/-- Format L (R100). -/
def encodeL (op : BitVec 8) (l : Line) (d : BitVec 1) : Word := op ++ (0#46) ++ encodeLine l ++ (0#7) ++ d

/-- Format W (R100). -/
def encodeW (op : BitVec 8) (d : BitVec 16) : Word := op ++ (0#40) ++ d

/-- Format T (R100, R103). -/
def encodeT (op : BitVec 8) (t : TimeValue) : Word := op ++ Machine.packTime t

/-- The encoder, from the tables of R93 and R101. -/
def encode : Instr → Encoded
  | .init => .word (encodeN 0x01)
  | .settime t => .word (encodeT 0x02 t)
  | .readtime => .word (encodeN 0x03)
  | .wrreg a v => .word (encodeAB 0x10 a v)
  | .rdreg a => .word (encodeB 0x11 a)
  | .cehi => .word (encodeN 0x12)
  | .celo => .word (encodeN 0x13)
  | .wrbyte v => .word (encodeB 0x20 v)
  | .rdbyte => .word (encodeN 0x21)
  | .bcd2dec b => .word (encodeB 0x30 b)
  | .dec2bcd d => .word (encodeB 0x31 d)
  | .cfgline l d => .word (encodeL 0x40 l (encodeDir d))
  | .sethi l => .word (encodeL 0x41 l 0#1)
  | .setlo l => .word (encodeL 0x42 l 0#1)
  | .rdlvl l => .word (encodeL 0x43 l 0#1)
  | .sleep d => .word (encodeW 0x44 d)
  | .secW => .wire 0x80
  | .secR => .wire 0x81
  | .minW => .wire 0x82
  | .minR => .wire 0x83
  | .hourW => .wire 0x84
  | .hourR => .wire 0x85
  | .dateW => .wire 0x86
  | .dateR => .wire 0x87
  | .monthW => .wire 0x88
  | .monthR => .wire 0x89
  | .dayW => .wire 0x8A
  | .dayR => .wire 0x8B
  | .yearW => .wire 0x8C
  | .yearR => .wire 0x8D
  | .wpW => .wire 0x8E
  | .wpR => .wire 0x8F

end Sys2Proof
end

