-- ==== Sys2Proof/Machine/State.lean ====
section
/-! DEFINITION. The state of one Driver Instance (R20, R22, R28 to R31), its environment (the peripheral of R71 to R73,
the draws `LineFaults` of R136 and the host's inputs of R24), the reasons a step stops, and reset (R36). -/

namespace Sys2Proof.Machine

/-- The mode of a line (R22); `inp` is the spec's `in`. -/
inductive LineMode where
  | unconf
  | out
  | inp
deriving DecidableEq, Repr

/-- One line (R22): its mode, and the level the block drives while the mode is `out`. -/
structure LineState where
  mode : LineMode
  level : Level
deriving DecidableEq, Repr

/-- The thirteen phases `PH` of R157. -/
inductive Phase where
  | idle
  | wCfg
  | wData
  | wRise
  | wHi
  | wFall
  | wLo
  | rCfg
  | rRise
  | rHi
  | rSamp
  | rFall
  | rLo
deriving DecidableEq, Repr

/-- `TXN` (R20, R186). -/
inductive Txn where
  | none
  | ceHi
  | addr
  | data
  | ceLo
deriving DecidableEq, Repr

/-- The peripheral's register space (R60), keyed by the row `k` of R61, in one canonical form: rows strictly rising,
each at most once. A row that is not listed is `unwritten` (R72). -/
abbrev Memory := List Host.Cell

/-- The reference peripheral `P_store` (R72, R73): `n` counts rising edges in the transaction. -/
structure PStore where
  store : Memory
  n : Nat
  cmd : Byte
  dat : Byte
deriving DecidableEq, Repr

/-- `P_store` at the start of R73: every row unwritten, `n` = 0; `cmd` and `dat` are the model's choice (log entry 10). -/
def PStore.empty : PStore := { store := [], n := 0, cmd := 0, dat := 0 }

/-- A bound oracle as plain data (R71, D30): what it answers to a `Sample`, by the trace it has seen (`answers`), or, for a
trace that is not listed, the next of the answers it is to give in order (`script`, as in spec/95 V22 and V23). A sample that
neither answers is a draw (log entry 7). -/
structure Oracle where
  answers : List (List Event × Level)
  script : List Level
deriving DecidableEq, Repr

/-- What is wired to the lines (R6 `Periph`, R71): nothing is assumed of it, or it is `P_store`, or any oracle. -/
inductive Periph where
  | unbound
  | store (p : PStore)
  | oracle (o : Oracle)
deriving DecidableEq, Repr

/-- What a model's fault reason carries (R251): the line (none for `sleepMicros`, R135), the primitive, and the index of
the event that would have come next. -/
structure LineFault where
  line : Option Line
  prim : Primitive
  index : Nat
deriving DecidableEq, Repr

/-- What the outside does to the block (R24, R31, R280): it presents a command word, or a wire command byte (log
entry 3), or asserts reset between operations, or presents an input and asserts reset in the middle of its operation, in
place of the `k`-th primitive execution of it, counted from 0 (R280, D8; log entry 15). -/
inductive HostInput where
  | present (e : Encoded)
  | reset
  | resetDuring (e : Encoded) (k : Nat)
deriving DecidableEq, Repr

/-- The whole state. The groups are: the instance's parameters (R6, constant); the lines, the engine, `STAT` and the
ports (R20); the trace (R9); the environment (R71, R136, R24); the model's own counters (log entries 5, 6). -/
structure State where
  cfg : Params
  clk : LineState
  io : LineState
  ce : LineState
  sr : Byte
  bc : BitVec 4
  tmr : Nat
  ph : Phase
  txn : Txn
  seq : BitVec 4
  busy : Bool
  fault : Bool
  cw : Word
  rw : Word
  trace : List Event
  periph : Periph
  lineFaults : List Nat
  prims : Nat
  faultInfo : Option LineFault
  draws : Nat
  pending : List HostInput
deriving DecidableEq, Repr

/-- Why the machine has stopped. -/
inductive Fault where
  /-- Raised by `step` in a state whose `STAT.FAULT` is set, when the host asserts no reset and presents nothing: the
  engine has stopped for good after `LineFault` (R253, R254; spec/93 U6 `stuck`). The fault's entry itself is a next state.
  Safe: the hardware makes no further step either. -/
  | lineFault (info : Option LineFault)
deriving DecidableEq, Repr

/-- The situations the spec refuses (R256, spec/93 1.3); every one is safe, because a refused run proves nothing. -/
inductive Refusal where
  /-- Raised by `exec` for an instruction that has no meaning yet: none is left. Safe. -/
  | notModelled (mnemonic : String)
  /-- F1, R290: raised by `step` when a command is presented while `STAT.BUSY` or `STAT.FAULT` is set. Safe. -/
  | busy
  /-- F2, R131: raised by CFGLINE of `CLK` or `CE` to `in`. Safe. -/
  | directionNotAllowed
  /-- F3, R132, R133: raised by SETHI and SETLO on a line whose mode is not `out`. Safe. -/
  | lineNotOutput
  /-- F4, R134: raised by RDLVL on a line whose mode is not `in`. Safe. -/
  | lineNotInput
  /-- F5, R150: raised by WRBYTE, RDBYTE and the wire command bytes outside the transport's precondition. Safe. -/
  | transportNotReady
  /-- F6, R181, R182: raised by CEHI and CELO outside their precondition. Safe. -/
  | gateNotReady
  /-- F7, F10, R180: raised by WRREG, RDREG, SETTIME and READTIME outside the idle state. Safe. -/
  | notIdle
  /-- F8, R108: raised by WRREG for a byte outside the write column. Safe. -/
  | notAWriteAddress
  /-- F9, R108: raised by RDREG for a byte outside the read column. Safe. -/
  | notAReadAddress
  /-- F11, R223: raised by SETTIME on the real backend for a year outside 2000..2099. Safe. -/
  | yearOutsideWindow
  /-- F12, R231: raised on the null backend by every operation except INIT, SETTIME, READTIME, BCD2DEC, DEC2BCD. Safe. -/
  | nullBackend
  /-- F13, R73: raised by `P_store` on `Set(CE,0)` after a number of rising edges other than 0 or 16. Safe. -/
  | periphFrameCut
  /-- F13, R73: raised by `P_store` on a seventeenth rising edge. Safe. -/
  | periphSeventeenthPulse
  /-- F13, R73: raised by `P_store` on a rising edge with `CE` low. Safe. -/
  | periphNotSelected
  /-- F13, R73: raised by `P_store` when `IO` is not driven at a rising edge that carries a bit to it. Safe. -/
  | periphIoNotDriven
  /-- F13, R73: raised by `P_store` when it looks up a command byte that is not in the table. Safe. -/
  | periphUnknownCommand
  /-- F13, R73: raised by `P_store` on a sample outside the read cells 8 to 15. Safe. -/
  | periphSampleOutsideRead
  /-- F13, R72: raised by `P_store` on a read of an unwritten row. Safe. -/
  | periphUnwritten
  /-- E3, R108: raised by `step` for a wire byte outside the table of R93, to which the spec gives no meaning. Safe. -/
  | wireByteOutsideTable
  /-- Raised by `step` in a state inside an operation (`BUSY` set, `FAULT` clear), which no step leaves behind because
  `step` runs an operation whole (R20, R24; log entry 2). Safe. -/
  | insideOperation
deriving DecidableEq, Repr

/-- An unconfigured line at reset (R36); its level is the model's choice (log entry 1). -/
def LineState.reset : LineState := { mode := .unconf, level := false }

/-- The block right after construction with given parameters (R36, R280), nothing presented and no peripheral bound; the
values R36 leaves unspecified are zero (log entry 1). -/
def State.construct (c : Params) : State :=
  { cfg := c
    clk := .reset
    io := .reset
    ce := .reset
    sr := 0
    bc := 0
    tmr := 0
    ph := .idle
    txn := .none
    seq := 0
    busy := false
    fault := false
    cw := 0
    rw := 0
    trace := []
    periph := .unbound
    lineFaults := []
    prims := 0
    faultInfo := none
    draws := 0
    pending := [] }

/-- Reset (R36) with the parameters' defaults (log entry 4). -/
def State.reset : State := .construct Config.defaultParams

end Sys2Proof.Machine
end

