-- ==== Sys2Proof/Machine/Flags.lean ====
section
/-! DEFINITION. The block's only flags, `STAT` (R30, R32), and the response word `RW` (R104). No operation computes a
condition code. -/

namespace Sys2Proof.Machine

/-- `STAT` as the host reads it (R30): bit 0 `BUSY`, bit 1 `FAULT`. -/
def State.stat (s : State) : BitVec 2 := BitVec.ofBool s.fault ++ BitVec.ofBool s.busy

/-- R104 status `OK`. -/
def statusOk : BitVec 2 := 0

/-- R104 status `LINE_FAULT`. -/
def statusLineFault : BitVec 2 := 1

/-- R104 status `ILLEGAL`. -/
def statusIllegal : BitVec 2 := 2

/-- The response word of R104: status 63:62, zero 61:56, payload 55:0. -/
def responseWord (status : BitVec 2) (payload : BitVec 56) : Word := status ++ (0#6) ++ payload

/-- The response of a completed operation. -/
def okResponse (payload : BitVec 56) : Word := responseWord statusOk payload

/-- `RW.status` (R104). -/
def rwStatus (rw : Word) : BitVec 2 := rw.extractLsb' 62 2

/-- The must-be-zero bits of `RW` (R104). -/
def rwZero (rw : Word) : BitVec 6 := rw.extractLsb' 56 6

/-- `RW.payload` (R104). -/
def rwPayload (rw : Word) : BitVec 56 := rw.extractLsb' 0 56

end Sys2Proof.Machine
end

