-- ==== Sys2Proof/Machine/Ops.lean ====
section
/-! DEFINITION. The shared operations: the peripheral's register space and `P_store` (R60, R72, R73), the entry of the
one fault (R253), the five line primitives (R130 to R136), the transport's bytes (R151, R153) with their shift
register (R157 to R159), a transaction (R183, R184, R186), completion (R104), acceptance, illegal words and reset. -/

namespace Sys2Proof.Machine

/-! ### The peripheral's register space -/

/-- The byte in row `k`, none when the row is unwritten (R72). -/
def Memory.read : Memory → Nat → Option Byte
  | [], _ => none
  | (a, b) :: m, k => if a = k then some b else Memory.read m k

/-- `store[k] <- v` (R72), keeping the canonical form. -/
def Memory.write : Memory → Nat → Byte → Memory
  | [], k, v => [(k, v)]
  | (a, b) :: m, k, v =>
    if k < a then (k, v) :: (a, b) :: m
    else if k = a then (k, v) :: m
    else (a, b) :: Memory.write m k v

/-- Every row of `m` lies above `k`, and the rows rise strictly. -/
def Memory.risingFrom : Nat → Memory → Bool
  | _, [] => true
  | k, (a, _) :: m => decide (k ≤ a) && Memory.risingFrom (a + 1) m

/-- The canonical form: rows strictly rising, each a row of R61. An unlisted row has no value, so no entry can equal what
it reads as. -/
def Memory.wf (m : Memory) : Bool := Memory.risingFrom 0 m && m.all fun c => decide (c.1 < 8)

/-! ### The reference peripheral, event by event (R73) -/

/-- `on Set(CLK,1) while CE.level = 1` of R73. -/
def PStore.clock (io : LineState) (p : PStore) : Except Refusal PStore :=
  if p.n < 8 then
    if io.mode = .out then .ok { p with cmd := putBit p.cmd p.n io.level, n := p.n + 1 }
    else .error .periphIoNotDriven
  else if p.n < 16 then
    if p.cmd.getLsbD 0 then .ok { p with n := p.n + 1 }
    else if io.mode = .out then
      if p.n + 1 = 16 then
        match rowOf p.cmd with
        | some k => .ok { p with dat := putBit p.dat (p.n - 8) io.level, n := p.n + 1
                                 store := Memory.write p.store k (putBit p.dat (p.n - 8) io.level) }
        | none => .error .periphUnknownCommand
      else .ok { p with dat := putBit p.dat (p.n - 8) io.level, n := p.n + 1 }
    else .error .periphIoNotDriven
  else .error .periphSeventeenthPulse

/-- What `P_store` does on an event that is not a sample (R73); events R73 does not list change nothing. -/
def PStore.observe (e : Event) (io ce : LineState) (p : PStore) : Except Refusal PStore :=
  match e with
  | .set .ce true => .ok { p with n := 0 }
  | .set .ce false => if p.n = 0 ∨ p.n = 16 then .ok p else .error .periphFrameCut
  | .set .clk true => if ce.level then PStore.clock io p else .error .periphNotSelected
  | .set .clk false => .ok p
  | .set .io _ => .ok p
  | .cfg _ _ => .ok p
  | .sample _ _ => .ok p
  | .delay _ => .ok p

/-- `on Sample(IO)` of R73: bit `n-9` of the stored byte. -/
def PStore.answer (io ce : LineState) (p : PStore) : Except Refusal Level :=
  if io.mode = .inp ∧ ce.level = true ∧ p.cmd.getLsbD 0 = true ∧ 9 ≤ p.n ∧ p.n ≤ 16 then
    match rowOf p.cmd with
    | some k =>
      match Memory.read p.store k with
      | some b => .ok (b.getLsbD (p.n - 9))
      | none => .error .periphUnwritten
    | none => .error .periphUnknownCommand
  else .error .periphSampleOutsideRead

/-- The peripheral sees every event in order (R71). -/
def Periph.observe (e : Event) (io ce : LineState) : Periph → Except Refusal Periph
  | .unbound => .ok .unbound
  | .store p =>
    match PStore.observe e io ce p with
    | .ok p' => .ok (.store p')
    | .error r => .error r
  | .oracle o => .ok (.oracle o)

/-! ### The peripheral as an oracle (R71, R134 `Periph.answer(trace)`) -/

/-- What an oracle answers to a `Sample` after `trace`, and the oracle from then on; none where it says nothing. -/
def Oracle.answer (o : Oracle) (trace : List Event) : Option (Level × Oracle) :=
  match o.answers.lookup trace with
  | some b => some (b, o)
  | none =>
    match o.script with
    | b :: bs => some (b, { o with script := bs })
    | [] => none

/-- The oracle that answers as `f` does after each of the listed traces (R6: an oracle is an argument of the model; a run
meets finitely many traces). -/
def Oracle.ofFunction (f : List Event → Level) (traces : List (List Event)) : Oracle :=
  { answers := traces.map fun t => (t, f t), script := [] }

/-- The peripheral is asked for one bit at a `Sample` (R71): its answer, the peripheral from then on, and how many draws
were made for it. With none bound the answer is the draw. -/
def Periph.sample (draw : Level) (trace : List Event) (io ce : LineState) : Periph → Except Refusal (Level × Periph × Nat)
  | .unbound => .ok (draw, .unbound, 1)
  | .store p =>
    match PStore.answer io ce p with
    | .ok b => .ok (b, .store p, 0)
    | .error r => .error r
  | .oracle o =>
    match o.answer trace with
    | some (b, o') => .ok (b, .oracle o', 0)
    | none => .ok (draw, .oracle o, 1)

/-! ### Running an operation -/

/-- What a part of an operation comes to: it is done with a result, a primitive has reported a fault and the fault's
entry has been taken (R253), or the spec refuses the situation (R256). -/
inductive Run (α : Type) where
  | done (a : α) (s : State)
  | halted (s : State)
  | refused (r : Refusal)
deriving DecidableEq, Repr

/-- One part after another; nothing runs after a fault (R253 item 3). -/
def Run.andThen {α β : Type} (m : Run α) (f : α → State → Run β) : Run β :=
  match m with
  | .done a s => f a s
  | .halted s => .halted s
  | .refused r => .refused r

/-- The line named by `l`. -/
def State.line (s : State) (l : Line) : LineState :=
  match l with
  | .clk => s.clk
  | .io => s.io
  | .ce => s.ce

/-- Writes the record of one line. -/
def State.withLine (s : State) (l : Line) (x : LineState) : State :=
  match l with
  | .clk => { s with clk := x }
  | .io => { s with io := x }
  | .ce => { s with ce := x }

/-- The engine stands in phase `p` (R157). -/
def State.atPhase (s : State) (p : Phase) : State := { s with ph := p }

/-- The engine is in part `x` of a transaction (R186). -/
def State.atTxn (s : State) (x : Txn) : State := { s with txn := x }

/-- The engine is about to execute the `k`-th step of a facade sequence (R232). -/
def State.atSeq (s : State) (k : BitVec 4) : State := { s with seq := k }

/-- TAKING THE ONE EXCEPTION, `LineFault(l, p)` (R251, R253): the primitive has no effect; the trace, the lines and the
engine's position stay as they are; `STAT.FAULT` is set, `STAT.BUSY` stays set and `RW` says LINE_FAULT. There is no
handler and no return but reset (R254). -/
def enterLineFault (l : Option Line) (p : Primitive) (s : State) : State :=
  { s with fault := true, busy := true, rw := responseWord statusLineFault 0
           faultInfo := some { line := l, prim := p, index := s.trace.length } }

/-- The draw `LineFaults` (R136, D10): does the primitive execution that comes next report a fault? -/
def faultsNow (s : State) : Bool := s.lineFaults.contains s.prims

/-- Any one execution of a primitive either completes or reports a fault (R136). -/
def attempt {α : Type} (l : Option Line) (p : Primitive) (s : State) (body : State → Run α) : Run α :=
  if faultsNow s then .halted (enterLineFault l p { s with prims := s.prims + 1 })
  else body { s with prims := s.prims + 1 }

/-- Appends one event to the trace (R9) after the peripheral has seen it (R71). -/
def emit (e : Event) (s : State) : Run Unit :=
  match Periph.observe e s.io s.ce s.periph with
  | .ok p => .done () { s with periph := p, trace := s.trace ++ [e] }
  | .error r => .refused r

/-- `Cfg(l, d)` (R131): an output's level is a draw until the next `Set` (R23, D14). -/
def cfgLine (l : Line) (d : Dir) (s : State) : Run Unit :=
  attempt (some l) .configureLine s fun s =>
    match d with
    | .out =>
      emit (.cfg l .out)
        ({ s with draws := s.draws + 1 }.withLine l { mode := .out, level := Config.freeLevel s.draws s.trace })
    | .inp => emit (.cfg l .inp) (s.withLine l { mode := .inp, level := (s.line l).level })

/-- The primitive's name for a level (R132, R133). -/
def setPrimitive (b : Level) : Primitive := if b then .setHigh else .setLow

/-- `Set(l, b)` (R132, R133). -/
def setLine (l : Line) (b : Level) (s : State) : Run Unit :=
  attempt (some l) (setPrimitive b) s fun s =>
    (emit (.set l b) s).andThen fun _ s => .done () (s.withLine l { mode := (s.line l).mode, level := b })

/-- `Sample(l)` (R134): the peripheral answers; with none bound the level is a draw (R71). Only `IO` can be an input. -/
def sampleLine (l : Line) (s : State) : Run Level :=
  attempt (some l) .readLevel s fun s =>
    match Periph.sample (Config.freeSample s.draws s.trace) s.trace s.io s.ce s.periph with
    | .ok (b, p, n) => .done b { s with periph := p, draws := s.draws + n, trace := s.trace ++ [.sample l b] }
    | .error r => .refused r

/-- `Delay(d)` (R135): `TMR` is loaded, counts down to 0, and the event is appended; no line changes. -/
def sleepMicros (d : BitVec 16) (s : State) : Run Unit :=
  attempt none .sleepMicros s fun s => emit (.delay d) { s with tmr := 0 }

/-- The load of `TMR` with the edge of a cell (R29, R157). -/
def State.loadTimer (s : State) : State := { s with tmr := s.cfg.delayTicks }

/-! ### The transport (R150 to R159) -/

/-- The precondition of R150. -/
def transportReady (s : State) : Bool :=
  s.clk.mode == .out && !s.clk.level && s.ce.mode == .out && s.ce.level

/-- The end of a write cell: `SR <- SR >> 1`, `BC <- BC + 1` (R157). -/
def State.endWriteCell (s : State) : State := { s with sr := shiftOut s.sr, bc := s.bc + 1 }

/-- The end of a read cell: `BC <- BC + 1` (R157). -/
def State.endReadCell (s : State) : State := { s with bc := s.bc + 1 }

/-- A write cell for bit `b` (R91, R151). -/
def writeCell (b : Level) (s : State) : Run Unit :=
  (setLine .io b (s.atPhase .wData)).andThen fun _ s =>
  (setLine .clk true (s.atPhase .wRise)).andThen fun _ s =>
  (sleepMicros Config.delayUs (s.loadTimer.atPhase .wHi)).andThen fun _ s =>
  (setLine .clk false (s.atPhase .wFall)).andThen fun _ s =>
  (sleepMicros Config.delayUs (s.loadTimer.atPhase .wLo)).andThen fun _ s =>
  .done () s.endWriteCell

/-- The write cells of a list of bits, in order. -/
def writeCells : List Level → State → Run Unit
  | [], s => .done () s
  | b :: bs, s => (writeCell b s).andThen fun _ s => writeCells bs s

/-- WRBYTE starts: `SR <- v`, `BC <- 0` (R157, row IDLE). -/
def State.loadWrite (s : State) (v : Byte) : State := { s with sr := v, bc := 0, ph := .wCfg }

/-- `writeByte(v)` (R151). -/
def writeByte (v : Byte) (s : State) : Run Unit :=
  (cfgLine .io .out (s.loadWrite v)).andThen fun _ s =>
  (writeCells (bitsOf v) s).andThen fun _ s =>
  .done () (s.atPhase .idle)

/-- A sample enters `SR` at bit 7 (R157, row R_SAMP). -/
def State.shiftSample (s : State) (b : Level) : State := { s with sr := shiftIn s.sr b }

/-- A read cell (R91, R153); its result is the sample. -/
def readCell (s : State) : Run Level :=
  (setLine .clk true (s.atPhase .rRise)).andThen fun _ s =>
  (sleepMicros Config.delayUs (s.loadTimer.atPhase .rHi)).andThen fun _ s =>
  (sampleLine .io (s.atPhase .rSamp)).andThen fun b s =>
  (setLine .clk false ((s.shiftSample b).atPhase .rFall)).andThen fun _ s =>
  (sleepMicros Config.delayUs (s.loadTimer.atPhase .rLo)).andThen fun _ s =>
  .done b s.endReadCell

/-- The read cells for the bit numbers in the list, in order, into `r` (R153). -/
def readCells : List Nat → Byte → State → Run Byte
  | [], r, s => .done r s
  | i :: is, r, s => (readCell s).andThen fun b s => readCells is (orBit r i b) s

/-- RDBYTE starts: `SR <- 0`, `BC <- 0` (R157, row IDLE). -/
def State.loadRead (s : State) : State := { s with sr := 0, bc := 0, ph := .rCfg }

/-- `readByte()` (R153). -/
def readByte (s : State) : Run Byte :=
  (cfgLine .io .inp s.loadRead).andThen fun _ s =>
  (readCells [0, 1, 2, 3, 4, 5, 6, 7] 0 s).andThen fun r s =>
  .done r (s.atPhase .idle)

/-! ### The register protocol (R180 to R186) -/

/-- The idle state of R180. -/
def idleState (s : State) : Bool :=
  s.clk.mode == .out && !s.clk.level && s.ce.mode == .out && !s.ce.level && s.io.mode != .unconf

/-- The precondition of CEHI and CELO (R181, R182). -/
def gateReady (s : State) : Bool := s.ce.mode == .out && s.clk.mode == .out && !s.clk.level

/-- `writeRegister(a, v)` (R183), with `TXN` as R186 moves it. -/
def writeRegister (a v : Byte) (s : State) : Run Unit :=
  (setLine .ce true (s.atTxn .ceHi)).andThen fun _ s =>
  (writeByte a (s.atTxn .addr)).andThen fun _ s =>
  (writeByte v (s.atTxn .data)).andThen fun _ s =>
  (setLine .ce false (s.atTxn .ceLo)).andThen fun _ s =>
  .done () (s.atTxn .none)

/-- `readRegister(a)` (R184). -/
def readRegister (a : Byte) (s : State) : Run Byte :=
  (setLine .ce true (s.atTxn .ceHi)).andThen fun _ s =>
  (writeByte a (s.atTxn .addr)).andThen fun _ s =>
  (readByte (s.atTxn .data)).andThen fun r s =>
  (setLine .ce false (s.atTxn .ceLo)).andThen fun _ s =>
  .done r (s.atTxn .none)

/-! ### Completion, acceptance, illegal words, reset -/

/-- The writing of the response word clears `BUSY` (R30, R104). -/
def respond (payload : BitVec 56) (s : State) : State := { s with rw := okResponse payload, busy := false }

/-- What an operation comes to: its response, or the fault's entry (a next state), or a refusal. -/
def finish (m : Run (BitVec 56)) : Host.Outcome State Fault Refusal :=
  match m with
  | .done p s => .next (respond p s)
  | .halted s => .next s
  | .refused r => .refused r

/-- The instance is the null backend (R231). -/
def onNull (s : State) : Bool := s.cfg.backend == .null

/-- The engine accepts what the host presents: `BUSY` is set (R30); a command word stands in `CW` (R31). -/
def acceptInput (e : Encoded) (s : State) : State :=
  match e with
  | .word w => { s with cw := w, busy := true }
  | .wire _ => { s with busy := true }

/-- An illegal command word (R105, R255): `RW` says ILLEGAL, no event, nothing else; the word stands in `CW`, where the
host has put it. -/
def answerIllegal (w : Word) (s : State) : State := { s with cw := w, rw := responseWord statusIllegal 0 }

/-- What comes of an input that decodes to no instruction: an illegal word is answered (R255); to a wire byte outside the
table the spec gives no meaning (R108, spec/93 E3). -/
def rejectInput (e : Encoded) (s : State) : Host.Outcome State Fault Refusal :=
  match e with
  | .word w => .next (answerIllegal w s)
  | .wire _ => .refused .wireByteOutsideTable

/-- `SR`, `BC` and `TMR` between operations are unspecified (R27, U23): free values. -/
def settle (s : State) : State :=
  { s with sr := Config.freeSr s.draws, bc := BitVec.ofNat 4 (Config.freeBc s.draws).val
           tmr := Config.freeTmr s.draws, draws := s.draws + 1 }

/-- After a completed operation that has executed a primitive (counted since `before`) the engine's data registers are
unspecified; after a fault's entry everything stays where it stands (R253). -/
def settleAfter (before : Nat) (o : Host.Outcome State Fault Refusal) : Host.Outcome State Fault Refusal :=
  match o with
  | .next t => if t.fault || t.prims == before then .next t else .next (settle t)
  | .fault f => .fault f
  | .refused r => .refused r

/-- Reset asserted in a run (R36, R280): the lines are released, the engine is idle, `STAT` is 0, the trace is empty; what
R36 leaves unspecified is a free value. The peripheral, the parameters and the environment stay. -/
def powerOn (s : State) : State :=
  { s with
    clk := { mode := .unconf, level := Config.freeLevel s.draws s.trace }
    io := { mode := .unconf, level := Config.freeLevel (s.draws + 1) s.trace }
    ce := { mode := .unconf, level := Config.freeLevel (s.draws + 2) s.trace }
    sr := Config.freeSr s.draws
    bc := BitVec.ofNat 4 (Config.freeBc s.draws).val
    tmr := Config.freeTmr s.draws
    ph := .idle
    txn := .none
    seq := 0
    busy := false
    fault := false
    cw := Config.freeCw s.draws
    rw := Config.freeRw s.draws
    trace := []
    faultInfo := none
    draws := s.draws + 3 }

/-- The operation is cut at primitive execution `n` (R280: abandoned where it stands): nothing of it runs from there. -/
def State.cutAt (s : State) (n : Nat) : State := { s with lineFaults := n :: s.lineFaults }

/-- Reset lands in the middle of an operation: what it has done to the peripheral stays, the block is reset, and the
faults are those of before (log entry 15). -/
def resetAfter (faults : List Nat) (o : Host.Outcome State Fault Refusal) : Host.Outcome State Fault Refusal :=
  match o with
  | .next t => .next (powerOn { t with lineFaults := faults })
  | .fault f => .fault f
  | .refused r => .refused r

end Sys2Proof.Machine
end

