-- ==== Sys2Proof/Machine/Codec.lean ====
section
/-! DEFINITION. The codec (R200 to R207): BCD2DEC and DEC2BCD, pure and total, on either backend and in any state. -/

namespace Sys2Proof.Machine

/-- BCD2DEC (R201). State written: `RW` only. -/
def execBcd2dec (b : Byte) (s : State) : Host.Outcome State Fault Refusal :=
  .next (respond (bytePayload (bcdToDecimal b)) s)

/-- DEC2BCD (R202), defined by the formula for all 256 operands (R205, R107). -/
def execDec2bcd (d : Byte) (s : State) : Host.Outcome State Fault Refusal :=
  .next (respond (bytePayload (decimalToBcd d)) s)

end Sys2Proof.Machine
end

