-- ==== Sys2Proof/Machine/Facade.lean ====
section
/-! DEFINITION. The driver facade (R220 to R232): INIT, SETTIME and READTIME, on the real and on the null backend. -/

namespace Sys2Proof.Machine

/-- The six events of INIT in order (R221). -/
def initLines (s : State) : Run Unit :=
  (cfgLine .clk .out s).andThen fun _ s =>
  (cfgLine .io .out s).andThen fun _ s =>
  (cfgLine .ce .out s).andThen fun _ s =>
  (setLine .clk false s).andThen fun _ s =>
  (setLine .io false s).andThen fun _ s =>
  setLine .ce false s

/-- The eight (address, data) pairs of SETTIME in order (R224); the address bytes are literal (R187). -/
def setTimePairs (t : TimeValue) : List (Byte × Byte) :=
  [(0x8E, Config.wpOff),
   (0x80, decimalToBcd t.second),
   (0x82, decimalToBcd t.minute),
   (0x84, decimalToBcd t.hour),
   (0x86, decimalToBcd t.day),
   (0x88, decimalToBcd t.month),
   (0x8C, yearByte t.year),
   (0x8E, Config.wpOn)]

/-- The transactions of a list of pairs, in order, with `SEQ` counting from `k` (R232). -/
def writeSteps : BitVec 4 → List (Byte × Byte) → State → Run Unit
  | _, [], s => .done () s
  | k, (a, v) :: rest, s => (writeRegister a v (s.atSeq k)).andThen fun _ s => writeSteps (k + 1) rest s

/-- The six read addresses of READTIME in order (R227). -/
def readTimeAddrs : List Byte := [0x81, 0x83, 0x85, 0x87, 0x89, 0x8D]

/-- The read transactions of a list of addresses, in order, with `SEQ` counting from `k` (R232). -/
def readSteps : BitVec 4 → List Byte → State → Run (List Byte)
  | _, [], s => .done [] s
  | k, a :: rest, s =>
    (readRegister a (s.atSeq k)).andThen fun r s =>
    (readSteps (k + 1) rest s).andThen fun rs s => .done (r :: rs) s

/-- The Time Value READTIME makes of the six raw bytes (R227): only the seconds are masked, nothing is validated. -/
def decodeTime (r0 r1 r2 r3 r4 r6 : Byte) : TimeValue :=
  { year := yearOf r6, month := bcdToDecimal r4, day := bcdToDecimal r3
    hour := bcdToDecimal r2, minute := bcdToDecimal r1, second := bcdToDecimal (maskSeconds r0) }

/-- `decodeTime` on the list of the six bytes in the order of `readTimeAddrs`. -/
def decodeTimeBytes (rs : List Byte) : TimeValue :=
  decodeTime (rs.getD 0 0) (rs.getD 1 0) (rs.getD 2 0) (rs.getD 3 0) (rs.getD 4 0) (rs.getD 5 0)

/-- INIT (R221): no precondition; on the null backend a no-op that answers OK (R231). -/
def execInit (s : State) : Host.Outcome State Fault Refusal :=
  if onNull s then .next (respond 0 s)
  else finish ((initLines s).andThen fun _ s => .done 0 s)

/-- SETTIME (R223, R224): eight transactions; on the null backend a no-op for any operand (R231). -/
def execSettime (t : TimeValue) (s : State) : Host.Outcome State Fault Refusal :=
  if onNull s then .next (respond 0 s)
  else if !yearOk t.year then .refused .yearOutsideWindow
  else if !idleState s then .refused .notIdle
  else finish ((writeSteps 0 (setTimePairs t) s).andThen fun _ s => .done 0 (s.atSeq 0))

/-- READTIME (R227): six transactions; on the null backend it returns `NULL_TIME` (R231). -/
def execReadtime (s : State) : Host.Outcome State Fault Refusal :=
  if onNull s then .next (respond (packTime s.cfg.nullTime) s)
  else if !idleState s then .refused .notIdle
  else finish ((readSteps 0 readTimeAddrs s).andThen fun rs s => .done (packTime (decodeTimeBytes rs)) (s.atSeq 0))

end Sys2Proof.Machine
end

