-- ==== Sys2Proof/Machine/LinePrims.lean ====
section
/-! DEFINITION. The five line primitives as operations of the command port (R130 to R136). The checks stand in the order
of R258: the null backend (F12), the operation's own precondition, then execution. -/

namespace Sys2Proof.Machine

/-- CFGLINE (R131). -/
def execCfgline (l : Line) (d : Dir) (s : State) : Host.Outcome State Fault Refusal :=
  if onNull s then .refused .nullBackend
  else if !cfgPairOk l d then .refused .directionNotAllowed
  else finish ((cfgLine l d s).andThen fun _ s => .done 0 s)

/-- SETHI (R132). -/
def execSethi (l : Line) (s : State) : Host.Outcome State Fault Refusal :=
  if onNull s then .refused .nullBackend
  else if (s.line l).mode != .out then .refused .lineNotOutput
  else finish ((setLine l true s).andThen fun _ s => .done 0 s)

/-- SETLO (R133). -/
def execSetlo (l : Line) (s : State) : Host.Outcome State Fault Refusal :=
  if onNull s then .refused .nullBackend
  else if (s.line l).mode != .out then .refused .lineNotOutput
  else finish ((setLine l false s).andThen fun _ s => .done 0 s)

/-- RDLVL (R134): the result is `RW[0]`. -/
def execRdlvl (l : Line) (s : State) : Host.Outcome State Fault Refusal :=
  if onNull s then .refused .nullBackend
  else if (s.line l).mode != .inp then .refused .lineNotInput
  else finish ((sampleLine l s).andThen fun b s => .done (bitPayload b) s)

/-- SLEEP (R135): no precondition on the lines. -/
def execSleep (d : BitVec 16) (s : State) : Host.Outcome State Fault Refusal :=
  if onNull s then .refused .nullBackend
  else finish ((sleepMicros d s).andThen fun _ s => .done 0 s)

end Sys2Proof.Machine
end

