-- ==== Sys2Proof/Machine/RegProtocol.lean ====
section
/-! DEFINITION. The chip-select gate and the register protocol (R180 to R188). -/

namespace Sys2Proof.Machine

/-- CEHI (R181). -/
def execCehi (s : State) : Host.Outcome State Fault Refusal :=
  if onNull s then .refused .nullBackend
  else if !gateReady s then .refused .gateNotReady
  else finish ((setLine .ce true s).andThen fun _ s => .done 0 s)

/-- CELO (R182). -/
def execCelo (s : State) : Host.Outcome State Fault Refusal :=
  if onNull s then .refused .nullBackend
  else if !gateReady s then .refused .gateNotReady
  else finish ((setLine .ce false s).andThen fun _ s => .done 0 s)

/-- WRREG (R183): the block's only store; the address is one of the eight of its column (R108). -/
def execWrreg (a v : Byte) (s : State) : Host.Outcome State Fault Refusal :=
  if onNull s then .refused .nullBackend
  else if !isWriteAddr a then .refused .notAWriteAddress
  else if !idleState s then .refused .notIdle
  else finish ((writeRegister a v s).andThen fun _ s => .done 0 s)

/-- RDREG (R184): the block's only load; the result is returned raw in `RW[7:0]`. -/
def execRdreg (a : Byte) (s : State) : Host.Outcome State Fault Refusal :=
  if onNull s then .refused .nullBackend
  else if !isReadAddr a then .refused .notAReadAddress
  else if !idleState s then .refused .notIdle
  else finish ((readRegister a s).andThen fun r s => .done (bytePayload r) s)

end Sys2Proof.Machine
end

