-- ==== Sys2Proof/Machine/Transport.lean ====
section
/-! DEFINITION. The bit-serial transport as operations of the command port (R150 to R156). -/

namespace Sys2Proof.Machine

/-- WRBYTE (R151): any byte is sent (R156). -/
def execWrbyte (v : Byte) (s : State) : Host.Outcome State Fault Refusal :=
  if onNull s then .refused .nullBackend
  else if !transportReady s then .refused .transportNotReady
  else finish ((writeByte v s).andThen fun _ s => .done 0 s)

/-- RDBYTE (R153): the result is `RW[7:0]`. -/
def execRdbyte (s : State) : Host.Outcome State Fault Refusal :=
  if onNull s then .refused .nullBackend
  else if !transportReady s then .refused .transportNotReady
  else finish ((readByte s).andThen fun r s => .done (bytePayload r) s)

end Sys2Proof.Machine
end

