-- ==== Sys2Proof/Machine/Wire.lean ====
section
/-! DEFINITION. The sixteen wire command bytes of the literal table (R93). A wire command byte is the first byte of a
frame: cells 0 to 7 carry its bits (R92), it selects a register and a direction (R90, R94), and the data byte follows in
cells 8 to 15. Its meaning here is the address part of a transaction (R183 `WRBYTE a`, R186 `ADDR`): the transport
sends the literal byte, and a bound `P_store` takes it as `cmd` (R73). See log entry 3. -/

namespace Sys2Proof.Machine

/-- The address part of a transaction (R186): the transport sends command byte `b`, under the precondition of R150. -/
def wireCommand (b : Byte) (s : State) : Host.Outcome State Fault Refusal :=
  if onNull s then .refused .nullBackend
  else if !transportReady s then .refused .transportNotReady
  else finish ((writeByte b (s.atTxn .addr)).andThen fun _ s => .done 0 (s.atTxn .none))

/-- SEC_W (R93): register Seconds, write. -/
def execSecW (s : State) : Host.Outcome State Fault Refusal := wireCommand 0x80 s

/-- SEC_R (R93): register Seconds, read. -/
def execSecR (s : State) : Host.Outcome State Fault Refusal := wireCommand 0x81 s

/-- MIN_W (R93): register Minutes, write. -/
def execMinW (s : State) : Host.Outcome State Fault Refusal := wireCommand 0x82 s

/-- MIN_R (R93): register Minutes, read. -/
def execMinR (s : State) : Host.Outcome State Fault Refusal := wireCommand 0x83 s

/-- HOUR_W (R93): register Hours, write. -/
def execHourW (s : State) : Host.Outcome State Fault Refusal := wireCommand 0x84 s

/-- HOUR_R (R93): register Hours, read. -/
def execHourR (s : State) : Host.Outcome State Fault Refusal := wireCommand 0x85 s

/-- DATE_W (R93): register Date, write. -/
def execDateW (s : State) : Host.Outcome State Fault Refusal := wireCommand 0x86 s

/-- DATE_R (R93): register Date, read. -/
def execDateR (s : State) : Host.Outcome State Fault Refusal := wireCommand 0x87 s

/-- MONTH_W (R93): register Month, write. -/
def execMonthW (s : State) : Host.Outcome State Fault Refusal := wireCommand 0x88 s

/-- MONTH_R (R93): register Month, read. -/
def execMonthR (s : State) : Host.Outcome State Fault Refusal := wireCommand 0x89 s

/-- DAY_W (R93): register Day of week, write. -/
def execDayW (s : State) : Host.Outcome State Fault Refusal := wireCommand 0x8A s

/-- DAY_R (R93): register Day of week, read. -/
def execDayR (s : State) : Host.Outcome State Fault Refusal := wireCommand 0x8B s

/-- YEAR_W (R93): register Year, write. -/
def execYearW (s : State) : Host.Outcome State Fault Refusal := wireCommand 0x8C s

/-- YEAR_R (R93): register Year, read. -/
def execYearR (s : State) : Host.Outcome State Fault Refusal := wireCommand 0x8D s

/-- WP_W (R93): register Write-protect, write. -/
def execWpW (s : State) : Host.Outcome State Fault Refusal := wireCommand 0x8E s

/-- WP_R (R93): register Write-protect, read. -/
def execWpR (s : State) : Host.Outcome State Fault Refusal := wireCommand 0x8F s

end Sys2Proof.Machine
end

