-- ==== Sys2Proof/Machine/Dispatch.lean ====
section
/-! DEFINITION. The meaning of every instruction, one direct call an arm. -/

namespace Sys2Proof.Machine

def exec (i : Instr) (s : State) : Host.Outcome State Fault Refusal :=
  match i with
  | .init => Sys2Proof.Machine.execInit s
  | .settime t => Sys2Proof.Machine.execSettime t s
  | .readtime => Sys2Proof.Machine.execReadtime s
  | .wrreg a v => Sys2Proof.Machine.execWrreg a v s
  | .rdreg a => Sys2Proof.Machine.execRdreg a s
  | .cehi => Sys2Proof.Machine.execCehi s
  | .celo => Sys2Proof.Machine.execCelo s
  | .wrbyte v => Sys2Proof.Machine.execWrbyte v s
  | .rdbyte => Sys2Proof.Machine.execRdbyte s
  | .bcd2dec b => Sys2Proof.Machine.execBcd2dec b s
  | .dec2bcd d => Sys2Proof.Machine.execDec2bcd d s
  | .cfgline l d => Sys2Proof.Machine.execCfgline l d s
  | .sethi l => Sys2Proof.Machine.execSethi l s
  | .setlo l => Sys2Proof.Machine.execSetlo l s
  | .rdlvl l => Sys2Proof.Machine.execRdlvl l s
  | .sleep d => Sys2Proof.Machine.execSleep d s
  | .secW => Sys2Proof.Machine.execSecW s
  | .secR => Sys2Proof.Machine.execSecR s
  | .minW => Sys2Proof.Machine.execMinW s
  | .minR => Sys2Proof.Machine.execMinR s
  | .hourW => Sys2Proof.Machine.execHourW s
  | .hourR => Sys2Proof.Machine.execHourR s
  | .dateW => Sys2Proof.Machine.execDateW s
  | .dateR => Sys2Proof.Machine.execDateR s
  | .monthW => Sys2Proof.Machine.execMonthW s
  | .monthR => Sys2Proof.Machine.execMonthR s
  | .dayW => Sys2Proof.Machine.execDayW s
  | .dayR => Sys2Proof.Machine.execDayR s
  | .yearW => Sys2Proof.Machine.execYearW s
  | .yearR => Sys2Proof.Machine.execYearR s
  | .wpW => Sys2Proof.Machine.execWpW s
  | .wpR => Sys2Proof.Machine.execWpR s

end Sys2Proof.Machine
end

