-- ==== Sys2Proof/Machine/Step.lean ====
section
/-! DEFINITION. One step: the engine takes the host's next input (R24). A command word is accepted only while `STAT` is 0
(R290, R253), decoded before any event (R255, R258) and run to completion (R24). -/

namespace Sys2Proof.Machine

/-- One step of the block. With nothing presented an idle engine stays as it is (R283), and a faulted one has stopped
for good (R253). -/
def step (s : State) : Host.Outcome State Fault Refusal :=
  match s.pending with
  | [] =>
    if s.fault then .fault (.lineFault s.faultInfo)
    else if s.busy then .refused .insideOperation
    else .next s
  | .reset :: rest => .next (powerOn { s with pending := rest })
  | .present e :: rest =>
    if s.busy || s.fault then .refused .busy
    else
      match decode e with
      | .ok i => settleAfter s.prims (exec i (acceptInput e { s with pending := rest }))
      | .error _ => rejectInput e { s with pending := rest }
  | .resetDuring e k :: rest =>
    if s.busy || s.fault then .refused .busy
    else
      match decode e with
      | .ok i => resetAfter s.lineFaults (exec i (acceptInput e (State.cutAt { s with pending := rest } (s.prims + k))))
      | .error _ => resetAfter s.lineFaults (rejectInput e { s with pending := rest })

/-- The host presents the row's bits next: a command word, or a wire command byte (log entry 3). -/
def State.withFetchWord (s : State) (nbits w : Nat) : State :=
  { s with pending := .present (layOut nbits w) :: s.pending }

end Sys2Proof.Machine
end

