-- ==== Sys2Proof/Machine/Assembly.lean ====
section
/-! DEFINITION. The pseudo-instructions of R112: names with no opcode of their own, and their expansions. -/

namespace Sys2Proof

/-- The pseudo-instructions of R112. -/
inductive Pseudo where
  | wpoff
  | wpon
  | wrsec (v : Byte)
  | wrmin (v : Byte)
  | wrhour (v : Byte)
  | wrdate (v : Byte)
  | wrmonth (v : Byte)
  | wrday (v : Byte)
  | wryear (v : Byte)
  | rdsec
  | rdmin
  | rdhour
  | rddate
  | rdmonth
  | rdday
  | rdyear
  | rdwp
deriving DecidableEq, Repr

namespace Machine

/-- The expansion of each pseudo-instruction (R112), with the bytes the symbols of R93 stand for. -/
def expandPseudo : Pseudo → Instr
  | .wpoff => .wrreg 0x8E Config.wpOff
  | .wpon => .wrreg 0x8E Config.wpOn
  | .wrsec v => .wrreg 0x80 v
  | .wrmin v => .wrreg 0x82 v
  | .wrhour v => .wrreg 0x84 v
  | .wrdate v => .wrreg 0x86 v
  | .wrmonth v => .wrreg 0x88 v
  | .wrday v => .wrreg 0x8A v
  | .wryear v => .wrreg 0x8C v
  | .rdsec => .rdreg 0x81
  | .rdmin => .rdreg 0x83
  | .rdhour => .rdreg 0x85
  | .rddate => .rdreg 0x87
  | .rdmonth => .rdreg 0x89
  | .rdday => .rdreg 0x8B
  | .rdyear => .rdreg 0x8D
  | .rdwp => .rdreg 0x8F

end Machine
end Sys2Proof
end

