-- ==== Sys2Proof/Machine/Engine.lean ====
section
/-! DEFINITION. The phase machine of R157, one engine tick at a time: the shift-register realisation of WRBYTE and RDBYTE.
The pseudocode of R151 and R153 (Machine/Ops.lean) is normative; R160 asks that the two be equivalent. -/

namespace Sys2Proof.Machine

/-- One tick of a `Delay` phase (R157, R29): `TMR` counts down, and when it reaches 0 the event is emitted and `k` goes
on. The primitive's fault, if it reports one, comes in place of all this (R136). -/
def tickDelay (s : State) (k : State → State) : Run Unit :=
  if faultsNow s then .halted (enterLineFault none .sleepMicros { s with prims := s.prims + 1 })
  else if s.tmr ≤ 1 then (sleepMicros Config.delayUs { s with tmr := 0 }).andThen fun _ s => .done () (k s)
  else .done () { s with tmr := s.tmr - 1 }

/-- The next cell, or the end of the byte (R157, rows W_LO and R_LO). -/
def nextCell (again : Phase) (s : State) : State := s.atPhase (if s.bc < 8 then again else .idle)

/-- One engine tick in the phase `PH` (R157); every phase but a `Delay` phase takes one tick here. -/
def tick (s : State) : Run Unit :=
  match s.ph with
  | .idle => .done () s
  | .wCfg => (cfgLine .io .out s).andThen fun _ s => .done () (s.atPhase .wData)
  | .wData => (setLine .io (s.sr.getLsbD 0) s).andThen fun _ s => .done () (s.atPhase .wRise)
  | .wRise => (setLine .clk true s).andThen fun _ s => .done () (s.loadTimer.atPhase .wHi)
  | .wHi => tickDelay s fun s => s.atPhase .wFall
  | .wFall => (setLine .clk false s).andThen fun _ s => .done () (s.loadTimer.atPhase .wLo)
  | .wLo => tickDelay s fun s => nextCell .wData s.endWriteCell
  | .rCfg => (cfgLine .io .inp s).andThen fun _ s => .done () (s.atPhase .rRise)
  | .rRise => (setLine .clk true s).andThen fun _ s => .done () (s.loadTimer.atPhase .rHi)
  | .rHi => tickDelay s fun s => s.atPhase .rSamp
  | .rSamp => (sampleLine .io s).andThen fun b s => .done () ((s.shiftSample b).atPhase .rFall)
  | .rFall => (setLine .clk false s).andThen fun _ s => .done () (s.loadTimer.atPhase .rLo)
  | .rLo => tickDelay s fun s => nextCell .rRise s.endReadCell

/-- `n` ticks. -/
def ticks : Nat → State → Run Unit
  | 0, s => .done () s
  | n + 1, s => (tick s).andThen fun _ s => ticks n s

end Sys2Proof.Machine
end

