-- ==== Sys2Proof/Safety.lean ====
section
/-! DEFINITION. The terms claims use: the wire encoding as lists of events (R91, R92, R221, R224, R227), what is counted
in a trace (R185, R303), the premise that no primitive faults (R136), and the invariants of the block. -/

namespace Sys2Proof.Machine

/-! ### The wire encoding -/

/-- A write cell for `b` (R91). -/
def writeCellEvents (b : Level) : List Event :=
  [.set .io b, .set .clk true, .delay Config.delayUs, .set .clk false, .delay Config.delayUs]

/-- A read cell giving `b` (R91). -/
def readCellEvents (b : Level) : List Event :=
  [.set .clk true, .delay Config.delayUs, .sample .io b, .set .clk false, .delay Config.delayUs]

/-- The events of WRBYTE `v` (R151). -/
def writeByteEvents (v : Byte) : List Event := .cfg .io .out :: (bitsOf v).flatMap writeCellEvents

/-- The events of an RDBYTE that returns `r` (R153): the sample of cell `i` is bit `i` of `r`. -/
def readByteEvents (r : Byte) : List Event := .cfg .io .inp :: (bitsOf r).flatMap readCellEvents

/-- A write frame (R92, R183). -/
def writeFrame (a v : Byte) : List Event :=
  [.set .ce true] ++ writeByteEvents a ++ writeByteEvents v ++ [.set .ce false]

/-- A read frame that returns `r` (R92, R184). -/
def readFrame (a r : Byte) : List Event :=
  [.set .ce true] ++ writeByteEvents a ++ readByteEvents r ++ [.set .ce false]

/-- The six events of INIT (R221). -/
def initEvents : List Event :=
  [.cfg .clk .out, .cfg .io .out, .cfg .ce .out, .set .clk false, .set .io false, .set .ce false]

/-- The write frames of a list of (address, data) pairs. -/
def writeFrames (ps : List (Byte × Byte)) : List Event := ps.flatMap fun p => writeFrame p.1 p.2

/-- The read frames of a list of (address, answer) pairs. -/
def readFrames (ps : List (Byte × Byte)) : List Event := ps.flatMap fun p => readFrame p.1 p.2

/-! ### What is counted in a trace -/

/-- Rising edges of `CLK` as the trace shows them. -/
def risingEdges (es : List Event) : Nat := es.count (.set .clk true)

/-- Falling edges of `CLK` as the trace shows them. -/
def fallingEdges (es : List Event) : Nat := es.count (.set .clk false)

/-- The lower bound, in microseconds, that the `Delay` events of a trace give (R303). -/
def delayMicros : List Event → Nat
  | [] => 0
  | .delay d :: es => d.toNat + delayMicros es
  | .cfg _ _ :: es => delayMicros es
  | .set _ _ :: es => delayMicros es
  | .sample _ _ :: es => delayMicros es

/-- The levels driven on `IO`, in order. -/
def ioLevels : List Event → List Level
  | [] => []
  | .set .io b :: es => b :: ioLevels es
  | .set .clk _ :: es => ioLevels es
  | .set .ce _ :: es => ioLevels es
  | .cfg _ _ :: es => ioLevels es
  | .sample _ _ :: es => ioLevels es
  | .delay _ :: es => ioLevels es

/-- The level taken at each rising edge of `CLK` (R74, R152): the last level driven on `IO` before it, `b` before the first. -/
def levelsAtRising : Level → List Event → List Level
  | _, [] => []
  | _, .set .io b :: es => levelsAtRising b es
  | b, .set .clk true :: es => b :: levelsAtRising b es
  | b, .set .clk false :: es => levelsAtRising b es
  | b, .set .ce _ :: es => levelsAtRising b es
  | b, .cfg _ _ :: es => levelsAtRising b es
  | b, .sample _ _ :: es => levelsAtRising b es
  | b, .delay _ :: es => levelsAtRising b es

/-- The line and the primitive whose execution emits an event (R131 to R135). -/
def primitiveOf : Event → Option Line × Primitive
  | .cfg l _ => (some l, .configureLine)
  | .set l b => (some l, setPrimitive b)
  | .sample l _ => (some l, .readLevel)
  | .delay _ => (none, .sleepMicros)

/-! ### Where the engine stands at each primitive (R28, R157, R186, R232) -/

/-- The engine's position: `PH`, `TXN`, `SEQ`. -/
structure Position where
  ph : Phase
  txn : Txn
  seq : BitVec 4
deriving DecidableEq, Repr

/-- The position of a state. -/
def State.position (s : State) : Position := { ph := s.ph, txn := s.txn, seq := s.seq }

/-- Where the engine stands at each primitive of a WRBYTE (R157). -/
def writeByteAt (x : Txn) (k : BitVec 4) : List Position :=
  ⟨.wCfg, x, k⟩ :: (List.replicate 8 [Phase.wData, .wRise, .wHi, .wFall, .wLo]).flatten.map fun p => ⟨p, x, k⟩

/-- Where the engine stands at each primitive of an RDBYTE (R157). -/
def readByteAt (x : Txn) (k : BitVec 4) : List Position :=
  ⟨.rCfg, x, k⟩ :: (List.replicate 8 [Phase.rRise, .rHi, .rSamp, .rFall, .rLo]).flatten.map fun p => ⟨p, x, k⟩

/-- Where the engine stands at each primitive of a write transaction (R186). -/
def writeFrameAt (k : BitVec 4) : List Position :=
  [⟨.idle, .ceHi, k⟩] ++ writeByteAt .addr k ++ writeByteAt .data k ++ [⟨.idle, .ceLo, k⟩]

/-- Where the engine stands at each primitive of a read transaction (R186). -/
def readFrameAt (k : BitVec 4) : List Position :=
  [⟨.idle, .ceHi, k⟩] ++ writeByteAt .addr k ++ readByteAt .data k ++ [⟨.idle, .ceLo, k⟩]

/-- Where the engine stands at each primitive of an operation that starts in state `s` with `PH = IDLE`: a single primitive
does not move it, and a facade sequence counts its transactions in `SEQ` (R232). -/
def positionsOf (s : State) : Instr → List Position
  | .init => List.replicate 6 s.position
  | .settime _ => [0, 1, 2, 3, 4, 5, 6, 7].flatMap writeFrameAt
  | .readtime => [0, 1, 2, 3, 4, 5].flatMap readFrameAt
  | .wrreg _ _ => writeFrameAt s.seq
  | .rdreg _ => readFrameAt s.seq
  | .wrbyte _ => writeByteAt s.txn s.seq
  | .rdbyte => readByteAt s.txn s.seq
  | .bcd2dec _ | .dec2bcd _ => []
  | .cehi | .celo | .cfgline _ _ | .sethi _ | .setlo _ | .rdlvl _ | .sleep _ => [s.position]
  | .secW | .secR | .minW | .minR | .hourW | .hourR | .dateW | .dateR
  | .monthW | .monthR | .dayW | .dayR | .yearW | .yearR | .wpW | .wpR => writeByteAt .addr s.seq

/-! ### Tables of the spec, written out a second time for claims -/

/-- A row of the command-word table (spec/opcode_table.json): `w` selects it when `w & mask = pattern` (R102); in the
line formats `L = 3` is illegal (R105). -/
structure CommandRow where
  pattern : Word
  mask : Word
  lineFormat : Bool
deriving DecidableEq, Repr

/-- The sixteen command-word rows of spec/opcode_table.json. -/
def commandRows : List CommandRow :=
  [⟨0x0100000000000000, 0xFFFFFFFFFFFFFFFF, false⟩, ⟨0x0200000000000000, 0xFF00000000000000, false⟩,
   ⟨0x0300000000000000, 0xFFFFFFFFFFFFFFFF, false⟩, ⟨0x1000000000000000, 0xFFFFFFFFFFFF0000, false⟩,
   ⟨0x1100000000000000, 0xFFFFFFFFFFFFFF00, false⟩, ⟨0x1200000000000000, 0xFFFFFFFFFFFFFFFF, false⟩,
   ⟨0x1300000000000000, 0xFFFFFFFFFFFFFFFF, false⟩, ⟨0x2000000000000000, 0xFFFFFFFFFFFFFF00, false⟩,
   ⟨0x2100000000000000, 0xFFFFFFFFFFFFFFFF, false⟩, ⟨0x3000000000000000, 0xFFFFFFFFFFFFFF00, false⟩,
   ⟨0x3100000000000000, 0xFFFFFFFFFFFFFF00, false⟩, ⟨0x4000000000000000, 0xFFFFFFFFFFFFFCFE, true⟩,
   ⟨0x4100000000000000, 0xFFFFFFFFFFFFFCFF, true⟩, ⟨0x4200000000000000, 0xFFFFFFFFFFFFFCFF, true⟩,
   ⟨0x4300000000000000, 0xFFFFFFFFFFFFFCFF, true⟩, ⟨0x4400000000000000, 0xFFFFFFFFFFFF0000, false⟩]

/-- A legal command word (R102, R105). -/
def legalWord (w : Word) : Prop :=
  ∃ r ∈ commandRows, w &&& r.mask = r.pattern ∧ (r.lineFormat = true → w.extractLsb' 8 2 ≠ 3#2)

/-- The sixteen wire rows with the row `k` of R61 each selects; the direction is bit 0 of the byte (R94). -/
def wireRows : List (Instr × Byte × Nat) :=
  [(.secW, 0x80, 0), (.secR, 0x81, 0), (.minW, 0x82, 1), (.minR, 0x83, 1),
   (.hourW, 0x84, 2), (.hourR, 0x85, 2), (.dateW, 0x86, 3), (.dateR, 0x87, 3),
   (.monthW, 0x88, 4), (.monthR, 0x89, 4), (.dayW, 0x8A, 5), (.dayR, 0x8B, 5),
   (.yearW, 0x8C, 6), (.yearR, 0x8D, 6), (.wpW, 0x8E, 7), (.wpR, 0x8F, 7)]

/-- One operation after another, each as the engine runs it once accepted (R24, R233). -/
def execAll : List Instr → State → Host.Outcome State Fault Refusal
  | [], s => .next s
  | i :: is, s =>
    match exec i s with
    | .next t => execAll is t
    | .fault f => .fault f
    | .refused r => .refused r

/-! ### Premises -/

/-- The premise "no primitive faults" (R136, D10) for the next `n` primitive executions. -/
def faultFree (s : State) (n : Nat) : Prop := ∀ i, i < n → s.prims + i ∉ s.lineFaults

/-- The `n`-th primitive execution from here is the first that faults. -/
def faultsFirstAt (s : State) (n : Nat) : Prop := faultFree s n ∧ s.prims + n ∈ s.lineFaults

/-- `P_store` is between frames (R73): no edge seen, or all sixteen. -/
def betweenFrames : Periph → Bool
  | .unbound => true
  | .store p => p.n == 0 || p.n == 16
  | .oracle _ => true

/-- The peripheral refuses no event and no sample: none is bound, or an oracle (R71). -/
def Periph.refusesNothing : Periph → Bool
  | .unbound => true
  | .store _ => false
  | .oracle _ => true

/-- The oracle answers every sample among the events `es` that follow `trace`, each as `es` has it; the oracle after them. -/
def Oracle.follows (o : Oracle) (trace : List Event) : List Event → Option Oracle
  | [] => some o
  | .sample l b :: es =>
    match o.answer trace with
    | some (c, o') => if c = b then Oracle.follows o' (trace ++ [.sample l b]) es else none
    | none => none
  | .cfg l d :: es => Oracle.follows o (trace ++ [.cfg l d]) es
  | .set l b :: es => Oracle.follows o (trace ++ [.set l b]) es
  | .delay d :: es => Oracle.follows o (trace ++ [.delay d]) es

/-- `t` is the block right after a reset (R36, R280) that keeps the parameters and `LineFaults` of `s` and leaves the host's
inputs `rest`. -/
structure Released (s t : State) (rest : List HostInput) : Prop where
  clk_mode : t.clk.mode = .unconf
  io_mode : t.io.mode = .unconf
  ce_mode : t.ce.mode = .unconf
  ph : t.ph = .idle
  txn : t.txn = .none
  seq : t.seq = 0
  stat : t.stat = 0#2
  trace : t.trace = []
  cfg : t.cfg = s.cfg
  lineFaults : t.lineFaults = s.lineFaults
  pending : t.pending = rest

/-! ### Invariants -/

/-- The peripheral's state is well formed: the register space has its canonical form (R72) and `n` is 0..16 (R73). -/
def periphWf : Periph → Prop
  | .unbound => True
  | .oracle _ => True
  | .store p => Memory.wf p.store = true ∧ p.n ≤ 16

/-- The invariant of the states that steps leave behind. -/
structure BlockInv (s : State) : Prop where
  /-- `CLK` and `CE` are never inputs (R22). -/
  clk_mode : s.clk.mode ≠ .inp
  ce_mode : s.ce.mode ≠ .inp
  /-- `BC` holds 0..8 (R20). -/
  bc_le : s.bc.toNat ≤ 8
  /-- `BUSY` outlives a step only after a fault (R30, R253). -/
  busy_iff : s.busy = s.fault
  /-- A faulted block says so in `RW` and keeps the fault's reason (R251, R253). -/
  fault_rw : s.fault = true → s.rw = 0x4000000000000000#64 ∧ s.faultInfo.isSome = true
  /-- With no fault the engine stands at (0, NONE, IDLE) between operations (R28). -/
  idle_position : s.fault = false → s.ph = .idle ∧ s.txn = .none ∧ s.seq = 0
  /-- The peripheral's register space has its canonical form. -/
  periph_wf : periphWf s.periph

/-- What one event says of line `l`: its mode, and its level where the events fix it (R22, R131 to R133). -/
def lineAfter (l : Line) (x : LineMode × Option Level) (e : Event) : LineMode × Option Level :=
  match e with
  | .cfg l' .out => if l' = l then (.out, none) else x
  | .cfg l' .inp => if l' = l then (.inp, none) else x
  | .set l' b => if l' = l then (x.1, some b) else x
  | .sample _ _ => x
  | .delay _ => x

/-- What a trace since reset says of line `l`. -/
def lineOfTrace (l : Line) (es : List Event) : LineMode × Option Level := es.foldl (lineAfter l) (.unconf, none)

/-- The trace explains the lines: each line's mode is that of its last `Cfg`, and its level that of its last `Set` since
(R22, R23). -/
def TraceExplainsLines (s : State) : Prop :=
  ∀ l, (s.line l).mode = (lineOfTrace l s.trace).1 ∧
    ∀ b, (lineOfTrace l s.trace).2 = some b → (s.line l).level = b

/-- A state with everything erased that no later operation may depend on (R21, R27): `SR`, `BC`, `TMR`, `CW`. -/
def State.scrub (s : State) : State := { s with sr := 0, bc := 0, tmr := 0, cw := 0 }

/-- `scrub` on the next state of an outcome. -/
def scrubOutcome (o : Host.Outcome State Fault Refusal) : Host.Outcome State Fault Refusal :=
  match o with
  | .next s => .next s.scrub
  | .fault f => .fault f
  | .refused r => .refused r

/-- What the spec observes of an outcome (R9, D1): the trace and the response word, with the lines the host's next
operation depends on; nothing for a stop but the stop. After a fault there is no next operation, and the mode of `IO` is
not looked at. -/
structure Observation where
  trace : List Event
  rw : Word
  clk : LineState
  ce : LineState
  ioMode : Option LineMode
  periph : Periph
deriving DecidableEq, Repr

/-- The observation of a state. -/
def State.observation (s : State) : Observation :=
  { trace := s.trace, rw := s.rw, clk := s.clk, ce := s.ce, ioMode := if s.fault then none else some s.io.mode, periph := s.periph }

/-- Two states show the same trace, the same lines and the same peripheral. -/
def sameWire (s t : State) : Prop :=
  s.trace = t.trace ∧ s.clk = t.clk ∧ s.io = t.io ∧ s.ce = t.ce ∧ s.periph = t.periph

/-- The observation of an outcome. -/
def observeOutcome (o : Host.Outcome State Fault Refusal) : Host.Outcome Observation Fault Refusal :=
  match o with
  | .next s => .next s.observation
  | .fault f => .fault f
  | .refused r => .refused r

end Sys2Proof.Machine
end

