-- ==== Sys2Proof/Certificates/Slice0/Obligations.lean ====
section
/-! DEFINITION. The statements for the provers. Each docstring names the rules of spec/ it rests on. A premise
`faultFree s n` is "no primitive faults" (R136, D10) for the `n` primitive executions the operation makes. Levels and
samples the spec leaves free are existentially quantified: the statement holds for every value of the free values. -/

open Sys2Proof Sys2Proof.Machine

/-! ### Encoding -/

/-- R101, R103 and the command words of spec/95 V1: one word per format decodes to the instruction it stands for. -/
def Obligations.SpecWordsDecode : Prop :=
  decode (.word 0x0100000000000000#64) = .ok .init ∧
  decode (.word 0x0207E80805150000#64) = .ok (.settime ⟨2024, 8, 5, 21, 0, 0⟩) ∧
  decode (.word 0x1000000000008E80#64) = .ok (.wrreg 0x8E 0x80) ∧
  decode (.word 0x1100000000000081#64) = .ok (.rdreg 0x81) ∧
  decode (.word 0x310000000000002D#64) = .ok (.dec2bcd 45) ∧
  decode (.word 0x4000000000000101#64) = .ok (.cfgline .io .inp) ∧
  decode (.word 0x4100000000000200#64) = .ok (.sethi .ce) ∧
  decode (.word 0x440000000000FFFF#64) = .ok (.sleep 65535) ∧
  decode (.wire 0x8D#8) = .ok .yearR

/-- R93, R100 to R103: no bit of an operand is lost between the encoder and the decoder. -/
def Obligations.DecodeOfEncode : Prop :=
  ∀ i, decode (encode i) = .ok i

/-- R102, R105: a word that decodes is exactly the word of the instruction it decodes to, so every must-be-zero bit is
checked and no two words mean the same. -/
def Obligations.EncodeOfDecode : Prop :=
  ∀ e i, decode e = .ok i → encode i = e

/-- R102, R105: a command word decodes exactly when it selects a row of the table by mask and match, and `L` is not 3. -/
def Obligations.LegalWordsDecode : Prop :=
  ∀ w : Word, (∃ i, decode (.word w) = .ok i) ↔ legalWord w

/-- R93, R94: a wire byte decodes exactly when the literal table lists it; every one of the sixteen has bit 7 set and
bits 6:4 clear, and the row it selects is the row of R61. -/
def Obligations.WireBytesDecode : Prop :=
  (∀ b : Byte, (∃ i, decode (.wire b) = .ok i) ↔ ∃ r ∈ wireRows, r.2.1 = b) ∧
  (∀ r ∈ wireRows, decode (.wire r.2.1) = .ok r.1 ∧ rowOf r.2.1 = some r.2.2 ∧ r.2.1.extractLsb' 4 4 = 8#4 ∧
    isReadAddr r.2.1 = r.2.1.getLsbD 0 ∧ isWriteAddr r.2.1 = !r.2.1.getLsbD 0)

/-- R112: every pseudo-instruction expands to the WRREG or RDREG of the byte of its symbol (R93), for every operand, and to
the command word written out here. -/
def Obligations.PseudoExpansions : Prop :=
  (expandPseudo .wpoff = .wrreg 0x8E 0x00 ∧ encode (expandPseudo .wpoff) = .word 0x1000000000008E00#64) ∧
  (expandPseudo .wpon = .wrreg 0x8E 0x80 ∧ encode (expandPseudo .wpon) = .word 0x1000000000008E80#64) ∧
  (∀ v : Byte,
    (∀ q ∈ [(Pseudo.wrsec v, 0x80#8), (.wrmin v, 0x82#8), (.wrhour v, 0x84#8), (.wrdate v, 0x86#8), (.wrmonth v, 0x88#8),
        (.wrday v, 0x8A#8), (.wryear v, 0x8C#8)],
      expandPseudo q.1 = .wrreg q.2 v ∧ encode (expandPseudo q.1) = .word (0x10#8 ++ 0#40 ++ q.2 ++ v))) ∧
  (∀ q ∈ [(Pseudo.rdsec, 0x81#8), (.rdmin, 0x83#8), (.rdhour, 0x85#8), (.rddate, 0x87#8), (.rdmonth, 0x89#8),
      (.rdday, 0x8B#8), (.rdyear, 0x8D#8), (.rdwp, 0x8F#8)],
    expandPseudo q.1 = .rdreg q.2 ∧ encode (expandPseudo q.1) = .word (0x11#8 ++ 0#48 ++ q.2)) ∧
  (∀ p : Pseudo, (expandPseudo p).wellFormed = true ∧
    ((∃ a v, expandPseudo p = .wrreg a v ∧ isWriteAddr a = true) ∨ (∃ a, expandPseudo p = .rdreg a ∧ isReadAddr a = true)))

/-! ### The step -/

/-- R24, R258: a presented input that decodes, with `STAT` = 0, is executed as its instruction; around it the step puts
the word in `CW` and sets `BUSY` (R30, R31), and lets `SR`, `BC`, `TMR` be unspecified afterwards (R27). The model's choices
in it: acceptance, execution and response are one step (log entries 2, 26); what `settleAfter` leaves as it is, after a fault
or where no primitive ran (log entry 8); the input may be a wire command byte, which does not stand in `CW` (log entry 3). -/
def Obligations.StepRunsDecoded : Prop :=
  ∀ s e rest i, s.pending = .present e :: rest → s.busy = false → s.fault = false → decode e = .ok i →
    step s = settleAfter s.prims (exec i (acceptInput e { s with pending := rest }))

/-- R105, R255: an illegal command word presented while `STAT` is 0 writes `RW` with status 2 and payload 0 and changes
nothing else; the word itself stands in `CW`, where the host has put it (log entry 11). -/
def Obligations.IllegalWordAnswered : Prop :=
  ∀ s w rest, s.pending = .present (.word w) :: rest → s.busy = false → s.fault = false → ¬ legalWord w →
    step s = .next { s with pending := rest, cw := w, rw := 0x8000000000000000#64 }

/-- R290, R253: whatever is presented while `STAT.BUSY` or `STAT.FAULT` is set is refused before any decoding (R258). -/
def Obligations.PresentedWhileBusyRefused : Prop :=
  ∀ s e rest, (s.pending = .present e :: rest ∨ ∃ k, s.pending = .resetDuring e k :: rest) →
    (s.busy = true ∨ s.fault = true) → step s = .refused .busy

/-- R253, R254: once `STAT.FAULT` is set the only step that goes on is a reset, which clears it. -/
def Obligations.FaultClearedByResetOnly : Prop :=
  ∀ s t, s.fault = true → step s = .next t → ∃ rest, s.pending = .reset :: rest ∧ t.fault = false ∧ t.busy = false

/-- R283, R253: with nothing presented the idle block stays as it is, and a faulted one has stopped with the fault's
reason. -/
def Obligations.NothingPresented : Prop :=
  ∀ s, s.pending = [] →
    (s.busy = false → s.fault = false → step s = .next s) ∧
    (s.fault = true → step s = .fault (.lineFault s.faultInfo))

/-- R280, R36: reset asserted in any state, a faulted one too, releases the lines, idles the engine, clears `STAT` and the
trace, and does not touch the peripheral, nor the parameters (R20). Asserted in the middle of an operation (D8), in place of
its `k`-th primitive, it does the same, and the peripheral is left as the abandoned operation has left it (log entry 15). -/
def Obligations.ResetInputReleases : Prop :=
  ∀ s rest,
    (s.pending = .reset :: rest → ∃ t, step s = .next t ∧ Released s t rest ∧ t.periph = s.periph ∧ t.prims = s.prims) ∧
    (∀ e k i, s.pending = .resetDuring e k :: rest → s.busy = false → s.fault = false → decode e = .ok i →
      (∀ u, exec i (acceptInput e (State.cutAt { s with pending := rest } (s.prims + k))) = .next u →
        ∃ t, step s = .next t ∧ Released s t rest ∧ t.periph = u.periph ∧ t.prims = u.prims) ∧
      (∀ r, exec i (acceptInput e (State.cutAt { s with pending := rest } (s.prims + k))) = .refused r →
        step s = .refused r))

/-- R36: the fields for which the spec gives a reset value. R6: the parameters of every instance meet its constraints, on the
real backend distinct pins. The instance `State.reset` stands for is the one with the defaults, the model's choice (log
entry 4). -/
def Obligations.ResetValues : Prop :=
  ∀ c, (State.construct c).clk.mode = .unconf ∧ (State.construct c).io.mode = .unconf ∧
    (State.construct c).ce.mode = .unconf ∧ (State.construct c).ph = .idle ∧ (State.construct c).txn = .none ∧
    (State.construct c).seq = 0 ∧ (State.construct c).stat = 0#2 ∧ (State.construct c).trace = [] ∧
    (State.construct c).cfg = c ∧ State.reset = State.construct Config.defaultParams ∧
    (c.backend = .real → c.pinClk ≠ c.pinIo ∧ c.pinClk ≠ c.pinCe ∧ c.pinIo ≠ c.pinCe) ∧
    0 < c.tickNs ∧ 0 < c.delayTicks ∧ 1000 ≤ c.delayTicks * c.tickNs

/-! ### The codec -/

/-- R201, R104: BCD2DEC (format B, opcode 0x30) answers the formula's value in `RW[7:0]` for every byte, writes `RW` and `BUSY`
only, in any state and on either backend, and so never faults; no result exceeds 165, that of 0xFF; it is not injective. -/
def Obligations.Bcd2decResult : Prop :=
  (∀ b s, exec (.bcd2dec b) s =
      .next { s with rw := BitVec.ofNat 64 ((b.toNat >>> 4) * 10 + (b.toNat &&& 0x0F)), busy := false }) ∧
  (∀ b, encode (.bcd2dec b) = .word (0x30#8 ++ 0#48 ++ b) ∧ decode (.word (0x30#8 ++ 0#48 ++ b)) = .ok (.bcd2dec b)) ∧
  (∀ b : Byte, (b.toNat >>> 4) * 10 + (b.toNat &&& 0x0F) ≤ 165 ∧ bcdToDecimal b = BitVec.ofNat 8 (b.toNat / 16 * 10 + b.toNat % 16) ∧
    (b.toNat / 16 ≤ 9 → b.toNat % 16 ≤ 9 → (bcdToDecimal b).toNat ≤ 99)) ∧
  bcdToDecimal 0xFF = 165 ∧ bcdToDecimal 0x0A = 10 ∧ bcdToDecimal 0x10 = 10 ∧ bcdToDecimal 0x59 = 59

/-- R202, R104: DEC2BCD answers the low eight bits of the formula's value and writes `RW` and `BUSY` only, in any state and
on either backend. -/
def Obligations.Dec2bcdResult : Prop :=
  ∀ d s, exec (.dec2bcd d) s =
      .next { s with rw := BitVec.ofNat 64 ((((d.toNat / 10) <<< 4) ||| (d.toNat % 10)) % 256), busy := false }

/-- R203, R201, R202: both round trips, with their exact domains by the normative formulas. The last sentence of R203 (a
derived one, that the second holds for valid BCD bytes only) contradicts them at 0xA0; see log entry 12. -/
def Obligations.BcdRoundTrips : Prop :=
  (∀ n : Byte, n.toNat ≤ 159 → bcdToDecimal (decimalToBcd n) = n) ∧
  (∀ n : Byte, 160 ≤ n.toNat → (bcdToDecimal (decimalToBcd n)).toNat = n.toNat - 160) ∧
  (∀ b : Byte, b.toNat / 16 ≤ 9 → b.toNat % 16 ≤ 9 → decimalToBcd (bcdToDecimal b) = b) ∧
  (∀ b : Byte, decimalToBcd (bcdToDecimal b) = b ↔ b.toNat % 16 ≤ 9) ∧
  decimalToBcd (bcdToDecimal 0xA0) = 0xA0

/-- R204: exactness, validity and bit 7 on the contract range; and every data byte that SETTIME produces from fields in
0..99 and a year of the window is a valid BCD byte. -/
def Obligations.BcdValidity : Prop :=
  decimalToBcd 45 = 0x45 ∧ decimalToBcd 0 = 0x00 ∧ decimalToBcd 99 = 0x99 ∧
  (∀ d : Byte, d.toNat ≤ 99 → (decimalToBcd d).toNat / 16 ≤ 9 ∧ (decimalToBcd d).toNat % 16 ≤ 9) ∧
  (∀ d : Byte, d.toNat ≤ 79 → (decimalToBcd d).getLsbD 7 = false) ∧
  (∀ d : Byte, 80 ≤ d.toNat → d.toNat ≤ 99 → (decimalToBcd d).getLsbD 7 = true) ∧
  (∀ t : TimeValue, yearOk t.year = true → t.month.toNat ≤ 99 → t.day.toNat ≤ 99 → t.hour.toNat ≤ 99 →
    t.minute.toNat ≤ 99 → t.second.toNat ≤ 99 →
    ∀ p ∈ setTimePairs t, p.2.toNat / 16 ≤ 9 ∧ p.2.toNat % 16 ≤ 9)

/-! ### Line primitives -/

/-- R131: CFGLINE of an allowed pair sets the line's mode, for `out` leaves its level free, appends its event, and changes
nothing else but `RW`, `BUSY` and the model's counters, whatever is wired. -/
def Obligations.CfglineResult : Prop :=
  ∀ l d s, onNull s = false → cfgPairOk l d = true → faultFree s 1 →
    (d = .out → ∃ b, exec (.cfgline l d) s = .next
      { s.withLine l ⟨.out, b⟩ with
        trace := s.trace ++ [.cfg l .out], rw := 0, busy := false, prims := s.prims + 1, draws := s.draws + 1 }) ∧
    (d = .inp → exec (.cfgline l d) s = .next
      { s.withLine l ⟨.inp, (s.line l).level⟩ with
        trace := s.trace ++ [.cfg l .inp], rw := 0, busy := false, prims := s.prims + 1 })

/-- R132, R133: SETHI and SETLO on an output drive the level, append the event also when the level does not change, and
change nothing else but the peripheral as it sees the event (R71, R73), `RW`, `BUSY` and the model's counter; they are refused
when the peripheral refuses the event. -/
def Obligations.SetLevelResult : Prop :=
  ∀ l b s, onNull s = false → (s.line l).mode = .out → faultFree s 1 →
    (∀ p, Periph.observe (.set l b) s.io s.ce s.periph = .ok p →
      exec (if b then .sethi l else .setlo l) s = .next
        { s.withLine l ⟨.out, b⟩ with
          periph := p, trace := s.trace ++ [.set l b], rw := 0, busy := false, prims := s.prims + 1 }) ∧
    (∀ r, Periph.observe (.set l b) s.io s.ce s.periph = .error r →
      exec (if b then .sethi l else .setlo l) s = .refused r)

/-- R134, R71, R73: RDLVL on an input. With no peripheral bound it answers a level nothing constrains; with an oracle bound,
what the oracle answers after the trace (one made from a function of the trace: the function's value), and where it says
nothing a level nothing constrains; of `IO` against `P_store`, in read cell `n - 9` of a frame on row `k`, it answers bit
`n - 9` of the byte stored there, and is refused when the row is unwritten; outside the read cells it is refused. Its only
effects are the event, `RW`, `BUSY`, the oracle's script and the model's counters. -/
def Obligations.RdlvlResult : Prop :=
  ∀ s, onNull s = false → faultFree s 1 →
    (∀ l, (s.line l).mode = .inp → s.periph = .unbound → ∃ b, exec (.rdlvl l) s = .next
      { s with trace := s.trace ++ [.sample l b], rw := if b then 1 else 0, busy := false,
               prims := s.prims + 1, draws := s.draws + 1 }) ∧
    (∀ l o, (s.line l).mode = .inp → s.periph = .oracle o →
      (∀ b o', o.answer s.trace = some (b, o') → exec (.rdlvl l) s = .next
        { s with trace := s.trace ++ [.sample l b], rw := if b then 1 else 0, busy := false,
                 prims := s.prims + 1, periph := .oracle o' }) ∧
      (∀ f ts, o = .ofFunction f ts → s.trace ∈ ts → exec (.rdlvl l) s = .next
        { s with trace := s.trace ++ [.sample l (f s.trace)], rw := if f s.trace then 1 else 0, busy := false,
                 prims := s.prims + 1 }) ∧
      (o.answer s.trace = none → ∃ b, exec (.rdlvl l) s = .next
        { s with trace := s.trace ++ [.sample l b], rw := if b then 1 else 0, busy := false,
                 prims := s.prims + 1, draws := s.draws + 1 })) ∧
    (∀ p k, s.io.mode = .inp → s.ce.level = true → s.periph = .store p → p.cmd.getLsbD 0 = true →
      rowOf p.cmd = some k → 9 ≤ p.n → p.n ≤ 16 →
      (∀ v, Memory.read p.store k = some v → exec (.rdlvl .io) s = .next
        { s with trace := s.trace ++ [.sample .io (v.getLsbD (p.n - 9))],
                 rw := if v.getLsbD (p.n - 9) then 1 else 0, busy := false, prims := s.prims + 1 }) ∧
      (Memory.read p.store k = none → exec (.rdlvl .io) s = .refused .periphUnwritten)) ∧
    (∀ p, s.io.mode = .inp → s.periph = .store p →
      (s.ce.level = false ∨ p.cmd.getLsbD 0 = false ∨ p.n < 9 ∨ 16 < p.n) →
      exec (.rdlvl .io) s = .refused .periphSampleOutsideRead)

/-- R73, R74: what a rising edge of `CLK`, made by SETHI, does to `P_store`: it shifts the level on `IO` into the command, then
into the data byte of a write frame, which its sixteenth edge stores in the command's row; in a read frame it is only counted;
with `CE` low, with `IO` not driven, past the sixteenth edge, and for a command byte outside the table, it is refused. A
`Set(CLK,1)` with `CLK` already high counts too: that is log entry 16's reading of R73. -/
def Obligations.ClockEdgeStore : Prop :=
  ∀ s p, onNull s = false → s.clk.mode = .out → s.periph = .store p → faultFree s 1 →
    (s.ce.level = false → exec (.sethi .clk) s = .refused .periphNotSelected) ∧
    (s.ce.level = true → 16 ≤ p.n → exec (.sethi .clk) s = .refused .periphSeventeenthPulse) ∧
    (s.ce.level = true → (p.n < 8 ∨ (p.n < 16 ∧ p.cmd.getLsbD 0 = false)) → s.io.mode ≠ .out →
      exec (.sethi .clk) s = .refused .periphIoNotDriven) ∧
    (s.ce.level = true → p.n = 15 → p.cmd.getLsbD 0 = false → s.io.mode = .out → rowOf p.cmd = none →
      exec (.sethi .clk) s = .refused .periphUnknownCommand) ∧
    (s.ce.level = true → p.n < 16 → (p.n < 8 → s.io.mode = .out) →
      (8 ≤ p.n → p.cmd.getLsbD 0 = false → s.io.mode = .out ∧ (p.n = 15 → (rowOf p.cmd).isSome = true)) →
      ∃ q, exec (.sethi .clk) s = .next
          { s with clk := ⟨.out, true⟩, trace := s.trace ++ [.set .clk true], rw := 0, busy := false,
                   prims := s.prims + 1, periph := .store q } ∧
        q.n = p.n + 1 ∧
        (∀ j, j < 8 → q.cmd.getLsbD j = if j = p.n then s.io.level else p.cmd.getLsbD j) ∧
        (∀ j, j < 8 → q.dat.getLsbD j =
          if j + 8 = p.n ∧ p.cmd.getLsbD 0 = false then s.io.level else p.dat.getLsbD j) ∧
        (∀ j, Memory.read q.store j =
          if p.n = 15 ∧ p.cmd.getLsbD 0 = false ∧ rowOf p.cmd = some j then some q.dat else Memory.read p.store j))

/-- R135: SLEEP appends `Delay(d)`, leaves `TMR` at 0 and no line changed, whatever is wired and whatever the lines are. -/
def Obligations.SleepResult : Prop :=
  ∀ d s, onNull s = false → faultFree s 1 →
    exec (.sleep d) s = .next
      { s with tmr := 0, trace := s.trace ++ [.delay d], rw := 0, busy := false, prims := s.prims + 1 }

/-- R131 to R134, R150, R181, R182 (spec/93 F2 to F6): where the line primitives, the transport and the gate are refused on the
real backend. That the wire command bytes are refused outside R150's precondition is the model's choice (log entry 3). -/
def Obligations.RefusedOutsidePreconditions : Prop :=
  ∀ s, onNull s = false →
    (∀ l d, cfgPairOk l d = false → exec (.cfgline l d) s = .refused .directionNotAllowed) ∧
    (∀ l, (s.line l).mode ≠ .out → exec (.sethi l) s = .refused .lineNotOutput ∧
      exec (.setlo l) s = .refused .lineNotOutput) ∧
    (∀ l, (s.line l).mode ≠ .inp → exec (.rdlvl l) s = .refused .lineNotInput) ∧
    (transportReady s = false → (∀ v, exec (.wrbyte v) s = .refused .transportNotReady) ∧
      exec .rdbyte s = .refused .transportNotReady ∧
      ∀ r ∈ wireRows, exec r.1 s = .refused .transportNotReady) ∧
    (gateReady s = false → exec .cehi s = .refused .gateNotReady ∧ exec .celo s = .refused .gateNotReady)

/-! ### The transport -/

/-- R151, R152: WRBYTE with no peripheral bound, or any oracle, emits exactly the events of the byte, least significant bit
first, leaves `IO` an output at bit 7 of the byte, `CLK` low, and changes nothing else but the engine's registers (R157,
R158), `RW`, `BUSY` and the model's counters. -/
def Obligations.WrbyteUnbound : Prop :=
  ∀ v s, onNull s = false → transportReady s = true → s.periph.refusesNothing = true → faultFree s 41 →
    exec (.wrbyte v) s = .next
      { s with io := ⟨.out, v.getLsbD 7⟩, sr := 0, bc := 8, tmr := 0, ph := .idle, rw := 0, busy := false,
               trace := s.trace ++ writeByteEvents v, prims := s.prims + 41, draws := s.draws + 1 }

/-- R151, R73: WRBYTE against `P_store`: as the first byte of a frame it becomes `cmd`; as the second byte of a write frame
on row `k` it is stored there; as the second byte of a read frame it is only clocked; a third byte is refused. -/
def Obligations.WrbyteStore : Prop :=
  ∀ v s p, onNull s = false → transportReady s = true → s.periph = .store p → faultFree s 41 →
    (p.n = 0 → exec (.wrbyte v) s = .next
      { s with io := ⟨.out, v.getLsbD 7⟩, sr := 0, bc := 8, tmr := 0, ph := .idle, rw := 0, busy := false,
               trace := s.trace ++ writeByteEvents v, prims := s.prims + 41, draws := s.draws + 1,
               periph := .store { p with cmd := v, n := 8 } }) ∧
    (∀ k, p.n = 8 → p.cmd.getLsbD 0 = false → rowOf p.cmd = some k → exec (.wrbyte v) s = .next
      { s with io := ⟨.out, v.getLsbD 7⟩, sr := 0, bc := 8, tmr := 0, ph := .idle, rw := 0, busy := false,
               trace := s.trace ++ writeByteEvents v, prims := s.prims + 41, draws := s.draws + 1,
               periph := .store { p with dat := v, n := 16, store := Memory.write p.store k v } }) ∧
    (p.n = 8 → p.cmd.getLsbD 0 = true → exec (.wrbyte v) s = .next
      { s with io := ⟨.out, v.getLsbD 7⟩, sr := 0, bc := 8, tmr := 0, ph := .idle, rw := 0, busy := false,
               trace := s.trace ++ writeByteEvents v, prims := s.prims + 41, draws := s.draws + 1,
               periph := .store { p with n := 16 } }) ∧
    (16 ≤ p.n → exec (.wrbyte v) s = .refused .periphSeventeenthPulse)

/-- R153, R154, R71: RDBYTE emits exactly the events of a byte and returns that byte; `IO` is an input afterwards, and
nothing else changes but the engine's registers (R159), `RW`, `BUSY` and the model's counters. With no peripheral bound
nothing constrains the byte; with an oracle bound that answers its eight samples, it is the byte of those answers. -/
def Obligations.RdbyteUnbound : Prop :=
  ∀ s, onNull s = false → transportReady s = true → faultFree s 41 →
    (s.periph.refusesNothing = true → ∃ (r : Byte) (p : Periph) (n : Nat), exec .rdbyte s = .next
        { s with io := ⟨.inp, s.io.level⟩, sr := r, bc := 8, tmr := 0, ph := .idle, rw := r.setWidth 64, busy := false,
                 trace := s.trace ++ readByteEvents r, prims := s.prims + 41, draws := s.draws + n, periph := p } ∧
      p.refusesNothing = true ∧ n ≤ 8 ∧ (s.periph = .unbound → p = .unbound ∧ n = 8)) ∧
    (∀ o o' r, s.periph = .oracle o → o.follows s.trace (readByteEvents r) = some o' → exec .rdbyte s = .next
        { s with io := ⟨.inp, s.io.level⟩, sr := r, bc := 8, tmr := 0, ph := .idle, rw := r.setWidth 64, busy := false,
                 trace := s.trace ++ readByteEvents r, prims := s.prims + 41, periph := .oracle o' })

/-- R153, R73: RDBYTE as the second byte of a read frame on row `k` returns the byte `P_store` holds there and leaves the
register space as it was. -/
def Obligations.RdbyteStore : Prop :=
  ∀ s p k r, onNull s = false → transportReady s = true → s.periph = .store p → faultFree s 41 →
    p.n = 8 → p.cmd.getLsbD 0 = true → rowOf p.cmd = some k → Memory.read p.store k = some r →
    exec .rdbyte s = .next
      { s with io := ⟨.inp, s.io.level⟩, sr := r, bc := 8, tmr := 0, ph := .idle, rw := r.setWidth 64, busy := false,
               trace := s.trace ++ readByteEvents r, prims := s.prims + 41, periph := .store { p with n := 16 } }

/-- R152, R154, R185: what the events of a byte and of a transaction are made of; the levels taken at the rising edges are
the bits of the address, then of the data, least significant first (R63, R64). -/
def Obligations.WireEventCounts : Prop :=
  ∀ a v : Byte,
    (writeByteEvents v).length = 41 ∧ (readByteEvents v).length = 41 ∧
    risingEdges (writeByteEvents v) = 8 ∧ risingEdges (readByteEvents v) = 8 ∧
    fallingEdges (writeByteEvents v) = 8 ∧ fallingEdges (readByteEvents v) = 8 ∧
    delayMicros (writeByteEvents v) = 16 ∧ delayMicros (readByteEvents v) = 16 ∧
    ioLevels (writeByteEvents v) = bitsOf v ∧ ioLevels (readByteEvents v) = [] ∧
    (writeFrame a v).length = 84 ∧ (readFrame a v).length = 84 ∧
    risingEdges (writeFrame a v) = 16 ∧ risingEdges (readFrame a v) = 16 ∧
    fallingEdges (writeFrame a v) = 16 ∧ fallingEdges (readFrame a v) = 16 ∧
    delayMicros (writeFrame a v) = 32 ∧ delayMicros (readFrame a v) = 32 ∧
    (∀ b, levelsAtRising b (writeFrame a v) = bitsOf a ++ bitsOf v) ∧
    (∀ b, (levelsAtRising b (readFrame a v)).take 8 = bitsOf a) ∧ ioLevels (readFrame a v) = bitsOf a

/-- R158: the shift register on a write. `SR` is loaded with `v`; at the start of cell `i` of WRBYTE `v` (after `i` cells that
are done, whatever is wired), `SR` is `v >> i`, so the bit driven there is bit `i` of `v`, and `BC` is `i`; after the eighth
cell `SR` is 0. With no peripheral bound, or any oracle, and no fault every cell is done. -/
def Obligations.WriteShiftRegister : Prop :=
  ∀ (v : Byte) (s : State) (i : Nat), i ≤ 8 →
    (∀ t, writeCells ((bitsOf v).take i) (s.loadWrite v) = .done () t →
      t.sr = v >>> i ∧ t.sr.getLsbD 0 = v.getLsbD i ∧ (bitsOf v)[i]? = (if i < 8 then some (t.sr.getLsbD 0) else none) ∧
      t.bc.toNat = i ∧ (i = 8 → t.sr = 0)) ∧
    (s.periph.refusesNothing = true → faultFree s (5 * i) →
      ∃ t, writeCells ((bitsOf v).take i) (s.loadWrite v) = .done () t)

/-- R160: from IDLE back to IDLE the phase machine of R157 does exactly what the pseudocode of R151 (WRBYTE) and of R153
(RDBYTE) does, for every byte, whatever is wired, whichever primitives fault and however long the timer runs: the same state
with the same trace, the same fault state or the same refusal; and the byte RDBYTE answers in `RW[7:0]`, the `r` of R153, is
the one the phase machine's shift register holds. That a faulting Delay phase faults on its first tick is log entry 19's
reading of R157. -/
def Obligations.PhaseMachineEquivalence : Prop :=
  (∀ (v : Byte) (s : State), ∃ n, ∀ m, n ≤ m → ticks m (s.loadWrite v) = writeByte v s) ∧
  (∀ s : State, ∃ n, ∀ m, n ≤ m → ticks m s.loadRead = ((readByte s).andThen fun _ t => .done () t)) ∧
  (∀ s t, exec .rdbyte s = .next t → t.fault = false →
    ∃ r u, readByte s = .done r u ∧ t.rw.extractLsb' 0 8 = r ∧ u.sr = r ∧ ∃ n, ticks n s.loadRead = .done () u)

/-! ### The gate, the wire command bytes and the register protocol -/

/-- R181, R182, R73: CEHI and CELO drive `CE` and change nothing else but `P_store`'s count of edges, which CEHI clears,
`RW`, `BUSY` and the model's counter; CELO inside a frame of `P_store` is refused. -/
def Obligations.GateResult : Prop :=
  ∀ s, onNull s = false → gateReady s = true → faultFree s 1 →
    exec .cehi s = .next
      { s with ce := ⟨.out, true⟩, trace := s.trace ++ [.set .ce true], rw := 0, busy := false, prims := s.prims + 1,
               periph := match s.periph with
                 | .unbound => .unbound
                 | .store p => .store { p with n := 0 }
                 | .oracle o => .oracle o } ∧
    (betweenFrames s.periph = true → exec .celo s = .next
      { s with ce := ⟨.out, false⟩, trace := s.trace ++ [.set .ce false], rw := 0, busy := false,
               prims := s.prims + 1 }) ∧
    (betweenFrames s.periph = false → exec .celo s = .refused .periphFrameCut)

/-- R93, R92, R186 with log entry 3 (the model's choice): a wire command byte, as the address part of a frame, sends the
literal byte's eight cells; sent first in a frame it is what `P_store` takes as its command (R73), and it selects the row of
R61; anywhere else it does what WRBYTE of the literal byte does (R156). -/
def Obligations.WireCommandSent : Prop :=
  ∀ r ∈ wireRows, ∀ s, onNull s = false → transportReady s = true → faultFree s 41 →
    (s.periph.refusesNothing = true → exec r.1 s = .next
      { s with io := ⟨.out, r.2.1.getLsbD 7⟩, sr := 0, bc := 8, tmr := 0, ph := .idle, txn := .none, rw := 0,
               busy := false, trace := s.trace ++ writeByteEvents r.2.1, prims := s.prims + 41,
               draws := s.draws + 1 }) ∧
    (∀ p, s.periph = .store p → p.n = 0 → rowOf r.2.1 = some r.2.2 ∧ exec r.1 s = .next
      { s with io := ⟨.out, r.2.1.getLsbD 7⟩, sr := 0, bc := 8, tmr := 0, ph := .idle, txn := .none, rw := 0,
               busy := false, trace := s.trace ++ writeByteEvents r.2.1, prims := s.prims + 41,
               draws := s.draws + 1, periph := .store { p with cmd := r.2.1, n := 8 } }) ∧
    (s.txn = .none → exec r.1 s = exec (.wrbyte r.2.1) s)

/-- R183, R104: WRREG with no peripheral bound, or any oracle, emits exactly one write frame and ends in the idle state with
`IO` an output at bit 7 of the data byte; nothing else changes but the engine's registers, `RW`, `BUSY` and the model's
counters. -/
def Obligations.WrregUnbound : Prop :=
  ∀ a v s, onNull s = false → isWriteAddr a = true → idleState s = true → s.periph.refusesNothing = true → faultFree s 84 →
    exec (.wrreg a v) s = .next
      { s with io := ⟨.out, v.getLsbD 7⟩, sr := 0, bc := 8, tmr := 0, ph := .idle, txn := .none, rw := 0, busy := false,
               trace := s.trace ++ writeFrame a v, prims := s.prims + 84, draws := s.draws + 2 }

/-- R183, R72, R73: WRREG against `P_store` stores the byte in the address's row; every other row reads as before. -/
def Obligations.WrregStore : Prop :=
  ∀ a v s p, onNull s = false → isWriteAddr a = true → idleState s = true → s.periph = .store p → faultFree s 84 →
    ∃ k m, rowOf a = some k ∧
      exec (.wrreg a v) s = .next
        { s with io := ⟨.out, v.getLsbD 7⟩, sr := 0, bc := 8, tmr := 0, ph := .idle, txn := .none, rw := 0, busy := false,
                 trace := s.trace ++ writeFrame a v, prims := s.prims + 84, draws := s.draws + 2,
                 periph := .store { store := m, n := 16, cmd := a, dat := v } } ∧
      Memory.read m k = some v ∧ ∀ j, j ≠ k → Memory.read m j = Memory.read p.store j

/-- R184, R104, R71: RDREG emits exactly one read frame, returns its byte raw and ends in the idle state with `IO` an input.
With no peripheral bound nothing constrains the byte; with an oracle bound that answers its eight samples, it is the byte of
those answers. -/
def Obligations.RdregUnbound : Prop :=
  ∀ a s, onNull s = false → isReadAddr a = true → idleState s = true → faultFree s 84 →
    (s.periph.refusesNothing = true → ∃ (r : Byte) (p : Periph) (n : Nat), exec (.rdreg a) s = .next
        { s with io := ⟨.inp, a.getLsbD 7⟩, sr := r, bc := 8, tmr := 0, ph := .idle, txn := .none, rw := r.setWidth 64,
                 busy := false, trace := s.trace ++ readFrame a r, prims := s.prims + 84, draws := s.draws + 1 + n,
                 periph := p } ∧
      p.refusesNothing = true ∧ n ≤ 8 ∧ (s.periph = .unbound → p = .unbound ∧ n = 8)) ∧
    (∀ o o' r, s.periph = .oracle o → o.follows s.trace (readFrame a r) = some o' → exec (.rdreg a) s = .next
        { s with io := ⟨.inp, a.getLsbD 7⟩, sr := r, bc := 8, tmr := 0, ph := .idle, txn := .none, rw := r.setWidth 64,
                 busy := false, trace := s.trace ++ readFrame a r, prims := s.prims + 84, draws := s.draws + 1,
                 periph := .oracle o' })

/-- R184, R72, R73: RDREG against `P_store` returns the byte of the address's row and changes no row; of an unwritten row
it is refused. -/
def Obligations.RdregStore : Prop :=
  ∀ a s p k, onNull s = false → isReadAddr a = true → idleState s = true → s.periph = .store p → faultFree s 84 →
    rowOf a = some k →
    (∀ r, Memory.read p.store k = some r → exec (.rdreg a) s = .next
      { s with io := ⟨.inp, a.getLsbD 7⟩, sr := r, bc := 8, tmr := 0, ph := .idle, txn := .none, rw := r.setWidth 64,
               busy := false, trace := s.trace ++ readFrame a r, prims := s.prims + 84, draws := s.draws + 1,
               periph := .store { p with n := 16, cmd := a } }) ∧
    (Memory.read p.store k = none → exec (.rdreg a) s = .refused .periphUnwritten)

/-- R185, R69: whatever is wired, a transaction that is answered without a fault has emitted exactly its frame and is back
in the idle state, with `IO` as R185 says. -/
def Obligations.TransactionGuarantees : Prop :=
  (∀ a v s t, exec (.wrreg a v) s = .next t → t.fault = false →
    t.trace = s.trace ++ writeFrame a v ∧ idleState t = true ∧ t.io = ⟨.out, v.getLsbD 7⟩ ∧ t.rw = 0) ∧
  (∀ a s t, exec (.rdreg a) s = .next t → t.fault = false → ∃ r : Byte,
    t.trace = s.trace ++ readFrame a r ∧ idleState t = true ∧ t.io.mode = .inp ∧ t.rw = r.setWidth 64)

/-- R183, R184: a transaction is its four parts: whatever is wired, CEHI, the address byte, the data byte and CELO as four
operations leave the same trace, the same lines and the same peripheral. -/
def Obligations.TransactionIsItsParts : Prop :=
  (∀ a v s t, exec (.wrreg a v) s = .next t → t.fault = false →
    ∃ u, execAll [.cehi, .wrbyte a, .wrbyte v, .celo] s = .next u ∧ sameWire u t) ∧
  (∀ a s t, exec (.rdreg a) s = .next t → t.fault = false →
    ∃ u, execAll [.cehi, .wrbyte a, .rdbyte, .celo] s = .next u ∧ sameWire u t)

/-- R180, R108, R223 (spec/93 F7 to F11): where the register protocol and the facade are refused on the real backend. -/
def Obligations.TransactionsRefused : Prop :=
  ∀ s, onNull s = false →
    (∀ a v, isWriteAddr a = false → exec (.wrreg a v) s = .refused .notAWriteAddress) ∧
    (∀ a, isReadAddr a = false → exec (.rdreg a) s = .refused .notAReadAddress) ∧
    (∀ t, (t.year.toNat < 2000 ∨ 2099 < t.year.toNat) → exec (.settime t) s = .refused .yearOutsideWindow) ∧
    (idleState s = false →
      (∀ a v, isWriteAddr a = true → exec (.wrreg a v) s = .refused .notIdle) ∧
      (∀ a, isReadAddr a = true → exec (.rdreg a) s = .refused .notIdle) ∧
      (∀ t, yearOk t.year = true → exec (.settime t) s = .refused .notIdle) ∧
      exec .readtime s = .refused .notIdle)

/-! ### The facade -/

/-- R221: INIT from any lines emits its six events and leaves three outputs at 0; nothing else changes but `RW`, `BUSY` and
the model's counters. Inside a frame of `P_store` it is refused (R73). -/
def Obligations.InitResult : Prop :=
  ∀ s, onNull s = false → faultFree s 6 →
    (betweenFrames s.periph = true → exec .init s = .next
      { s with clk := ⟨.out, false⟩, io := ⟨.out, false⟩, ce := ⟨.out, false⟩, trace := s.trace ++ initEvents,
               rw := 0, busy := false, prims := s.prims + 6, draws := s.draws + 3 }) ∧
    (betweenFrames s.periph = false → exec .init s = .refused .periphFrameCut)

/-- R222: after any INIT the three lines are outputs at 0; a second INIT appends the same six events and leaves the same
state but for the trace and the model's counters; INIT does not clear `STAT.FAULT` and is not accepted while it is set; and no
operation undoes INIT: none leaves a configured line unconfigured. -/
def Obligations.InitIdempotent : Prop :=
  (∀ s t, onNull s = false → exec .init s = .next t → t.fault = false →
    t.clk = ⟨.out, false⟩ ∧ t.io = ⟨.out, false⟩ ∧ t.ce = ⟨.out, false⟩ ∧ t.trace = s.trace ++ initEvents ∧
    (faultFree t 6 → exec .init t =
      .next { t with trace := s.trace ++ initEvents ++ initEvents, prims := t.prims + 6, draws := t.draws + 3 })) ∧
  (∀ s t, exec .init s = .next t → s.fault = true → t.fault = true) ∧
  (∀ s rest, s.pending = .present (encode .init) :: rest → s.fault = true → step s = .refused .busy) ∧
  (∀ i s t l, exec i s = .next t → (s.line l).mode ≠ .unconf → (t.line l).mode ≠ .unconf)

/-- R224, R225: SETTIME with no peripheral bound, or any oracle, is its eight write frames in order, write-protect off first
and on last, and ends in the idle state with `IO` an output at 1. -/
def Obligations.SettimeUnbound : Prop :=
  ∀ t s, onNull s = false → yearOk t.year = true → idleState s = true → s.periph.refusesNothing = true → faultFree s 672 →
    exec (.settime t) s = .next
      { s with io := ⟨.out, true⟩, sr := 0, bc := 8, tmr := 0, ph := .idle, txn := .none, seq := 0, rw := 0, busy := false,
               trace := s.trace ++ writeFrames
                 [(0x8E, 0x00), (0x80, decimalToBcd t.second), (0x82, decimalToBcd t.minute),
                  (0x84, decimalToBcd t.hour), (0x86, decimalToBcd t.day), (0x88, decimalToBcd t.month),
                  (0x8C, decimalToBcd (BitVec.ofNat 8 (t.year.toNat - 2000))), (0x8E, 0x80)],
               prims := s.prims + 672, draws := s.draws + 16 }

/-- R225 (f), R224: SETTIME against `P_store` writes the six fields and the write-protect byte; the day of week and every
row outside the map read as before. -/
def Obligations.SettimeStore : Prop :=
  ∀ t s p, onNull s = false → yearOk t.year = true → idleState s = true → s.periph = .store p → faultFree s 672 →
    ∃ m, exec (.settime t) s = .next
        { s with io := ⟨.out, true⟩, sr := 0, bc := 8, tmr := 0, ph := .idle, txn := .none, seq := 0, rw := 0,
                 busy := false, trace := s.trace ++ writeFrames (setTimePairs t), prims := s.prims + 672,
                 draws := s.draws + 16, periph := .store { store := m, n := 16, cmd := 0x8E, dat := 0x80 } } ∧
      Memory.read m 0 = some (decimalToBcd t.second) ∧ Memory.read m 1 = some (decimalToBcd t.minute) ∧
      Memory.read m 2 = some (decimalToBcd t.hour) ∧ Memory.read m 3 = some (decimalToBcd t.day) ∧
      Memory.read m 4 = some (decimalToBcd t.month) ∧
      Memory.read m 6 = some (decimalToBcd (BitVec.ofNat 8 (t.year.toNat - 2000))) ∧ Memory.read m 7 = some 0x80 ∧
      (∀ j, j = 5 ∨ 8 ≤ j → Memory.read m j = Memory.read p.store j)

/-- R224: whatever is wired, SETTIME is its eight WRREG one after another: the same trace, lines and peripheral. -/
def Obligations.SettimeIsEightWrites : Prop :=
  ∀ t s u, onNull s = false → exec (.settime t) s = .next u → u.fault = false →
    ∃ w, execAll
        [.wrreg 0x8E 0x00, .wrreg 0x80 (decimalToBcd t.second), .wrreg 0x82 (decimalToBcd t.minute),
         .wrreg 0x84 (decimalToBcd t.hour), .wrreg 0x86 (decimalToBcd t.day), .wrreg 0x88 (decimalToBcd t.month),
         .wrreg 0x8C (decimalToBcd (BitVec.ofNat 8 (t.year.toNat - 2000))), .wrreg 0x8E 0x80] s = .next w ∧
      sameWire w u

/-- R227, R228, R71: READTIME is six read frames in order and answers the Time Value of the formulas on their bytes, the
seconds masked with 0x7F and nothing else masked. With no peripheral bound nothing constrains the bytes; with an oracle bound
that answers all the samples, they are the bytes of those answers. -/
def Obligations.ReadtimeUnbound : Prop :=
  ∀ s, onNull s = false → idleState s = true → faultFree s 504 →
    (s.periph.refusesNothing = true → ∃ (r0 r1 r2 r3 r4 r6 : Byte) (p : Periph) (n : Nat), exec .readtime s = .next
        { s with io := ⟨.inp, true⟩, sr := r6, bc := 8, tmr := 0, ph := .idle, txn := .none, seq := 0, busy := false,
                 rw := (0#8) ++ BitVec.ofNat 16 (2000 + (bcdToDecimal r6).toNat) ++ bcdToDecimal r4 ++ bcdToDecimal r3 ++
                   bcdToDecimal r2 ++ bcdToDecimal r1 ++ bcdToDecimal (r0 &&& 0x7F),
                 trace := s.trace ++ readFrames
                   [(0x81, r0), (0x83, r1), (0x85, r2), (0x87, r3), (0x89, r4), (0x8D, r6)],
                 prims := s.prims + 504, draws := s.draws + 6 + n, periph := p } ∧
      p.refusesNothing = true ∧ n ≤ 48 ∧ (s.periph = .unbound → p = .unbound ∧ n = 48)) ∧
    (∀ o o' r0 r1 r2 r3 r4 r6, s.periph = .oracle o → o.follows s.trace (readFrames
        [(0x81, r0), (0x83, r1), (0x85, r2), (0x87, r3), (0x89, r4), (0x8D, r6)]) = some o' →
      exec .readtime s = .next
        { s with io := ⟨.inp, true⟩, sr := r6, bc := 8, tmr := 0, ph := .idle, txn := .none, seq := 0, busy := false,
                 rw := (0#8) ++ BitVec.ofNat 16 (2000 + (bcdToDecimal r6).toNat) ++ bcdToDecimal r4 ++ bcdToDecimal r3 ++
                   bcdToDecimal r2 ++ bcdToDecimal r1 ++ bcdToDecimal (r0 &&& 0x7F),
                 trace := s.trace ++ readFrames
                   [(0x81, r0), (0x83, r1), (0x85, r2), (0x87, r3), (0x89, r4), (0x8D, r6)],
                 prims := s.prims + 504, draws := s.draws + 6, periph := .oracle o' })

/-- R227, R72: READTIME against `P_store` answers the Time Value of the bytes it holds and changes no row; with the seconds
unwritten it is refused. -/
def Obligations.ReadtimeStore : Prop :=
  ∀ s p, onNull s = false → idleState s = true → s.periph = .store p → faultFree s 504 →
    (∀ r0 r1 r2 r3 r4 r6, Memory.read p.store 0 = some r0 → Memory.read p.store 1 = some r1 →
      Memory.read p.store 2 = some r2 → Memory.read p.store 3 = some r3 → Memory.read p.store 4 = some r4 →
      Memory.read p.store 6 = some r6 → exec .readtime s = .next
        { s with io := ⟨.inp, true⟩, sr := r6, bc := 8, tmr := 0, ph := .idle, txn := .none, seq := 0, busy := false,
                 rw := (0#8) ++ BitVec.ofNat 16 (2000 + (bcdToDecimal r6).toNat) ++ bcdToDecimal r4 ++ bcdToDecimal r3 ++
                   bcdToDecimal r2 ++ bcdToDecimal r1 ++ bcdToDecimal (r0 &&& 0x7F),
                 trace := s.trace ++ readFrames
                   [(0x81, r0), (0x83, r1), (0x85, r2), (0x87, r3), (0x89, r4), (0x8D, r6)],
                 prims := s.prims + 504, draws := s.draws + 6, periph := .store { p with n := 16, cmd := 0x8D } }) ∧
    (Memory.read p.store 0 = none → exec .readtime s = .refused .periphUnwritten)

/-- R229: whatever is wired, a result READTIME answers lies in the ranges of the formulas and its status is OK. It validates
nothing: with no fault it answers OK whatever the six bytes are, from any peripheral that refuses nothing and from any
`P_store` that holds them. -/
def Obligations.ReadtimeRanges : Prop :=
  (∀ s t, onNull s = false → exec .readtime s = .next t → t.fault = false →
    rwStatus t.rw = 0 ∧ rwZero t.rw = 0 ∧
    (unpackTime (rwPayload t.rw)).second.toNat ≤ 85 ∧ (unpackTime (rwPayload t.rw)).minute.toNat ≤ 165 ∧
    (unpackTime (rwPayload t.rw)).hour.toNat ≤ 165 ∧ (unpackTime (rwPayload t.rw)).day.toNat ≤ 165 ∧
    (unpackTime (rwPayload t.rw)).month.toNat ≤ 165 ∧
    2000 ≤ (unpackTime (rwPayload t.rw)).year.toNat ∧ (unpackTime (rwPayload t.rw)).year.toNat ≤ 2165) ∧
  (∀ s, onNull s = false → idleState s = true → faultFree s 504 →
    (∀ p, s.periph = .store p → ∀ k ∈ [0, 1, 2, 3, 4, 6], (Memory.read p.store k).isSome = true) →
    ∃ t, exec .readtime s = .next t ∧ t.fault = s.fault ∧ rwStatus t.rw = 0)

/-- R230: the command words of SETTIME `t` and READTIME, run by two steps through `P_store`, give back `t` for seconds in
0..79, the other byte fields in 0..159 and the year in the window; for seconds in 80..99 the second comes back 80 less. -/
def Obligations.SetThenReadTime : Prop :=
  ∀ t s p rest, s.pending = .present (encode (.settime t)) :: .present (encode .readtime) :: rest →
    s.busy = false → s.fault = false → onNull s = false → idleState s = true → s.periph = .store p → faultFree s 1176 →
    yearOk t.year = true → t.minute.toNat ≤ 159 → t.hour.toNat ≤ 159 → t.day.toNat ≤ 159 → t.month.toNat ≤ 159 →
    ∃ s1 s2, step s = .next s1 ∧ step s1 = .next s2 ∧ s2.trace.length = s.trace.length + 1176 ∧
      (t.second.toNat ≤ 79 → s2.rw = (0#8) ++ packTime t) ∧
      (80 ≤ t.second.toNat → t.second.toNat ≤ 99 →
        s2.rw = (0#8) ++ packTime { t with second := t.second - 80 }) ∧
      (∃ p', s2.periph = .store p' ∧ Memory.read p'.store 5 = Memory.read p.store 5)

/-- R231: on the null backend INIT, SETTIME of any operand and READTIME emit nothing and change nothing but `RW` and
`BUSY`, READTIME answering `NULL_TIME`; every other operation but the codec is refused (spec/93 F12). -/
def Obligations.NullBackend : Prop :=
  ∀ s, onNull s = true →
    exec .init s = .next { s with rw := 0, busy := false } ∧
    (∀ t, exec (.settime t) s = .next { s with rw := 0, busy := false }) ∧
    exec .readtime s = .next { s with rw := (0#8) ++ packTime s.cfg.nullTime, busy := false } ∧
    (∀ i, i ≠ .init → (∀ t, i ≠ .settime t) → i ≠ .readtime → (∀ b, i ≠ .bcd2dec b) → (∀ d, i ≠ .dec2bcd d) →
      exec i s = .refused .nullBackend)

/-! ### The one fault -/

/-- R251, R253: whenever an operation enters the fault, `STAT` is (FAULT, BUSY), `RW` says LINE_FAULT with payload 0, the
fault's index is the length of the trace, everything emitted before stays, and the host's inputs and the parameters are as
they were. -/
def Obligations.LineFaultEntry : Prop :=
  ∀ i s t, s.fault = false → exec i s = .next t → t.fault = true →
    t.stat = 3#2 ∧ t.rw = 0x4000000000000000#64 ∧ s.trace <+: t.trace ∧
    (∃ l p, t.faultInfo = some { line := l, prim := p, index := t.trace.length }) ∧
    t.cfg = s.cfg ∧ t.pending = s.pending ∧ t.cw = s.cw ∧ t.prims ≠ s.prims

/-- R253, R136: the fault is precise at the granularity of one primitive, for every instruction and whatever is wired. If the
operation, started with `PH = IDLE` (R28) and run with no fault, would append the events `es`, and its `j`-th primitive is the first that faults, exactly the
first `j` events are in the trace, the fault names the line and the primitive of the event that would have come next, `RW`
and `STAT` say LINE_FAULT, and the engine's position (`PH`, `TXN`, `SEQ`) stays where that primitive stands (R157, R186,
R232). -/
def Obligations.LineFaultPrecise : Prop :=
  ∀ i s u es j e, s.ph = .idle → exec i { s with lineFaults := [] } = .next u → u.trace = s.trace ++ es →
    faultsFirstAt s j → es[j]? = some e →
    ∃ t, exec i s = .next t ∧ t.stat = 3#2 ∧ t.rw = 0x4000000000000000#64 ∧ t.trace = s.trace ++ es.take j ∧
      t.faultInfo = some { line := (primitiveOf e).1, prim := (primitiveOf e).2, index := s.trace.length + j } ∧
      (positionsOf s i)[j]? = some t.position

/-- R251, R231, spec/95 V63: the codec never faults, and no operation faults on the null backend. -/
def Obligations.NeverFaults : Prop :=
  ∀ i s t, s.fault = false → (onNull s = true ∨ (∃ b, i = .bcd2dec b) ∨ (∃ d, i = .dec2bcd d)) →
    exec i s = .next t → t.fault = false ∧ t.trace = s.trace ∧ t.prims = s.prims

/-! ### Invariants of the whole machine -/

/-- The invariants hold right after reset, with any parameters. -/
def Obligations.InvariantsAtReset : Prop :=
  ∀ c, BlockInv (State.construct c) ∧ TraceExplainsLines (State.construct c)

/-- Every step keeps the invariant: `CLK` and `CE` are never inputs (R22), `BC` is 0..8 (R20), between operations the engine
stands at (0, NONE, IDLE) (R28), `BUSY` stays set exactly with `FAULT` (R30, R253), and the peripheral's register space
keeps its canonical form. -/
def Obligations.StepKeepsInv : Prop :=
  ∀ s t, BlockInv s → step s = .next t → BlockInv t

/-- R22, R23, R9: in every state each line's mode is that of the last `Cfg` in the trace and its level that of the last
`Set` since; every step keeps this, a faulting one too. -/
def Obligations.StepKeepsTraceExplanation : Prop :=
  ∀ s t, TraceExplainsLines s → step s = .next t → TraceExplainsLines t

/-- R69, R20: a step only appends to the trace unless it is a reset, takes the head of the host's inputs and leaves the
rest in order, and never changes the instance's parameters or which primitives fault. -/
def Obligations.StepAppends : Prop :=
  ∀ s t, step s = .next t →
    t.cfg = s.cfg ∧ t.lineFaults = s.lineFaults ∧ t.pending = s.pending.tail ∧
    ((∃ rest, s.pending = .reset :: rest) ∨ (∃ e k rest, s.pending = .resetDuring e k :: rest) ∨ s.trace <+: t.trace)

/-- R303: whatever is wired, the lower bounds on the time an answered operation takes, in microseconds at `D = 1 µs`, by
the `Delay` events it appends: for every instruction of the table, and for the sixteen wire command bytes, which are sent as
WRBYTE sends a byte (log entry 3). -/
def Obligations.DelayLowerBounds : Prop :=
  ∀ s t es, onNull s = false → t.fault = false → t.trace = s.trace ++ es →
    (∀ v, exec (.wrbyte v) s = .next t → delayMicros es = 16) ∧ (exec .rdbyte s = .next t → delayMicros es = 16) ∧
    (∀ a v, exec (.wrreg a v) s = .next t → delayMicros es = 32) ∧ (∀ a, exec (.rdreg a) s = .next t → delayMicros es = 32) ∧
    (∀ x, exec (.settime x) s = .next t → delayMicros es = 256) ∧ (exec .readtime s = .next t → delayMicros es = 192) ∧
    (∀ d, exec (.sleep d) s = .next t → delayMicros es = d.toNat) ∧
    (∀ r ∈ wireRows, exec r.1 s = .next t → delayMicros es = 16) ∧
    (exec .init s = .next t → delayMicros es = 0) ∧ (exec .cehi s = .next t → delayMicros es = 0) ∧
    (exec .celo s = .next t → delayMicros es = 0) ∧ (∀ l d, exec (.cfgline l d) s = .next t → delayMicros es = 0) ∧
    (∀ l, exec (.sethi l) s = .next t → delayMicros es = 0) ∧ (∀ l, exec (.setlo l) s = .next t → delayMicros es = 0) ∧
    (∀ l, exec (.rdlvl l) s = .next t → delayMicros es = 0) ∧ (∀ b, exec (.bcd2dec b) s = .next t → delayMicros es = 0) ∧
    (∀ d, exec (.dec2bcd d) s = .next t → delayMicros es = 0)

/-- R21, R27: no operation depends on `SR`, `BC`, `TMR`, `CW` or `RW` as an earlier one left them. -/
def Obligations.EngineRegistersCarryNothing : Prop :=
  ∀ i s sr bc tmr cw rw,
    scrubOutcome (exec i { s with sr := sr, bc := bc, tmr := tmr, cw := cw, rw := rw }) = scrubOutcome (exec i s)

/-- R23, R292: the transport, the wire command bytes (log entry 3) and the transactions set the direction of `IO` before they
use it, so nothing they show depends on the direction and the level an earlier operation left, whatever is wired and
whichever primitives fault. R150 lets the transport start with `IO` unconfigured; the transactions need it configured (R180). -/
def Obligations.IoDirectionNotInherited : Prop :=
  ∀ s x, onNull s = false →
    (∀ v, observeOutcome (exec (.wrbyte v) { s with io := x }) = observeOutcome (exec (.wrbyte v) s)) ∧
    observeOutcome (exec .rdbyte { s with io := x }) = observeOutcome (exec .rdbyte s) ∧
    (∀ r ∈ wireRows, observeOutcome (exec r.1 { s with io := x }) = observeOutcome (exec r.1 s)) ∧
    (s.io.mode ≠ .unconf → x.mode ≠ .unconf →
      (∀ a v, observeOutcome (exec (.wrreg a v) { s with io := x }) = observeOutcome (exec (.wrreg a v) s)) ∧
      (∀ a, observeOutcome (exec (.rdreg a) { s with io := x }) = observeOutcome (exec (.rdreg a) s)) ∧
      (∀ t, observeOutcome (exec (.settime t) { s with io := x }) = observeOutcome (exec (.settime t) s)) ∧
      observeOutcome (exec .readtime { s with io := x }) = observeOutcome (exec .readtime s))

/-- R60, R72: the peripheral's register space: a read after a write gives the byte written in its row and what was there in
every other, and a write of a row of the map keeps the canonical form. -/
def Obligations.RegisterSpaceLaws : Prop :=
  ∀ (m : Memory) (k : Nat) (v : Byte),
    (∀ j, Memory.read (Memory.write m k v) j = if j = k then some v else Memory.read m j) ∧
    (Memory.wf m = true → k < 8 → Memory.wf (Memory.write m k v) = true)
end

