-- ==== Sys2Proof/Laws/PerInstr.lean ====
section
/-! SUPPORT. The fields of the encoded words, and decoding an encoded instruction gives it back (R93, R100 to R103), one
lemma per constructor. -/

namespace Sys2Proof

/-! ### Words as numbers -/

/-- Concatenation as a number. -/
theorem toNat_append_add {m n : Nat} (a : BitVec m) (b : BitVec n) : (a ++ b).toNat = a.toNat * 2 ^ n + b.toNat := by
  rw [BitVec.toNat_append, ← Nat.shiftLeft_add_eq_or_of_lt b.isLt, Nat.shiftLeft_eq]

/-- A field as a number. -/
theorem toNat_fieldOf (w : Word) (lo width : Nat) : (fieldOf w lo width).toNat = w.toNat / 2 ^ lo % 2 ^ width := by
  rw [fieldOf, BitVec.extractLsb'_toNat, Nat.shiftRight_eq_div_pow]

/-! ### Each format's fields -/

theorem decodeN_encodeN (op : BitVec 8) (i : Instr) :
    fieldOf (encodeN op) 56 8 = op ∧ decodeN (encodeN op) i = .ok i := by
  have h : fieldOf (encodeN op) 0 56 = 0#56 := by
    apply BitVec.eq_of_toNat_eq
    rw [toNat_fieldOf, encodeN, toNat_append_add]
    simp only [BitVec.toNat_ofNat]
    omega
  refine ⟨?_, by simp [decodeN, h]⟩
  apply BitVec.eq_of_toNat_eq
  have := op.isLt
  rw [toNat_fieldOf, encodeN, toNat_append_add]
  simp only [BitVec.toNat_ofNat]
  omega

theorem decodeB_encodeB (op : BitVec 8) (b : Byte) (f : Byte → Instr) :
    fieldOf (encodeB op b) 56 8 = op ∧ decodeB (encodeB op b) f = .ok (f b) := by
  have ho := op.isLt
  have hb := b.isLt
  have h1 : fieldOf (encodeB op b) 8 48 = 0#48 := by
    apply BitVec.eq_of_toNat_eq
    rw [toNat_fieldOf, encodeB, toNat_append_add, toNat_append_add]
    simp only [BitVec.toNat_ofNat]
    omega
  have h2 : fieldOf (encodeB op b) 0 8 = b := by
    apply BitVec.eq_of_toNat_eq
    rw [toNat_fieldOf, encodeB, toNat_append_add, toNat_append_add]
    simp only [BitVec.toNat_ofNat]
    omega
  refine ⟨?_, by simp [decodeB, h1, h2]⟩
  apply BitVec.eq_of_toNat_eq
  rw [toNat_fieldOf, encodeB, toNat_append_add, toNat_append_add]
  simp only [BitVec.toNat_ofNat]
  omega

theorem decodeAB_encodeAB (op : BitVec 8) (a v : Byte) (f : Byte → Byte → Instr) :
    fieldOf (encodeAB op a v) 56 8 = op ∧ decodeAB (encodeAB op a v) f = .ok (f a v) := by
  have ho := op.isLt
  have ha := a.isLt
  have hv := v.isLt
  have h1 : fieldOf (encodeAB op a v) 16 40 = 0#40 := by
    apply BitVec.eq_of_toNat_eq
    rw [toNat_fieldOf, encodeAB, toNat_append_add, toNat_append_add, toNat_append_add]
    simp only [BitVec.toNat_ofNat]
    omega
  have h2 : fieldOf (encodeAB op a v) 8 8 = a := by
    apply BitVec.eq_of_toNat_eq
    rw [toNat_fieldOf, encodeAB, toNat_append_add, toNat_append_add, toNat_append_add]
    simp only [BitVec.toNat_ofNat]
    omega
  have h3 : fieldOf (encodeAB op a v) 0 8 = v := by
    apply BitVec.eq_of_toNat_eq
    rw [toNat_fieldOf, encodeAB, toNat_append_add, toNat_append_add, toNat_append_add]
    simp only [BitVec.toNat_ofNat]
    omega
  refine ⟨?_, by simp [decodeAB, h1, h2, h3]⟩
  apply BitVec.eq_of_toNat_eq
  rw [toNat_fieldOf, encodeAB, toNat_append_add, toNat_append_add, toNat_append_add]
  simp only [BitVec.toNat_ofNat]
  omega

theorem decodeW_encodeW (op : BitVec 8) (d : BitVec 16) (f : BitVec 16 → Instr) :
    fieldOf (encodeW op d) 56 8 = op ∧ decodeW (encodeW op d) f = .ok (f d) := by
  have ho := op.isLt
  have hd := d.isLt
  have h1 : fieldOf (encodeW op d) 16 40 = 0#40 := by
    apply BitVec.eq_of_toNat_eq
    rw [toNat_fieldOf, encodeW, toNat_append_add, toNat_append_add]
    simp only [BitVec.toNat_ofNat]
    omega
  have h2 : fieldOf (encodeW op d) 0 16 = d := by
    apply BitVec.eq_of_toNat_eq
    rw [toNat_fieldOf, encodeW, toNat_append_add, toNat_append_add]
    simp only [BitVec.toNat_ofNat]
    omega
  refine ⟨?_, by simp [decodeW, h1, h2]⟩
  apply BitVec.eq_of_toNat_eq
  rw [toNat_fieldOf, encodeW, toNat_append_add, toNat_append_add]
  simp only [BitVec.toNat_ofNat]
  omega

theorem decodeLine_encodeLine (l : Line) : decodeLine (encodeLine l) = some l := by cases l <;> rfl

theorem decodeL_encodeL (op : BitVec 8) (l : Line) (d : BitVec 1) (f : Line → Bool → Except DecodeReject Instr) :
    fieldOf (encodeL op l d) 56 8 = op ∧ decodeL (encodeL op l d) f = f l (d = 1#1) := by
  have ho := op.isLt
  have hl := (encodeLine l).isLt
  have hd := d.isLt
  have h1 : fieldOf (encodeL op l d) 10 46 = 0#46 := by
    apply BitVec.eq_of_toNat_eq
    rw [toNat_fieldOf, encodeL, toNat_append_add, toNat_append_add, toNat_append_add, toNat_append_add]
    simp only [BitVec.toNat_ofNat]
    omega
  have h2 : fieldOf (encodeL op l d) 1 7 = 0#7 := by
    apply BitVec.eq_of_toNat_eq
    rw [toNat_fieldOf, encodeL, toNat_append_add, toNat_append_add, toNat_append_add, toNat_append_add]
    simp only [BitVec.toNat_ofNat]
    omega
  have h3 : fieldOf (encodeL op l d) 8 2 = encodeLine l := by
    apply BitVec.eq_of_toNat_eq
    rw [toNat_fieldOf, encodeL, toNat_append_add, toNat_append_add, toNat_append_add, toNat_append_add]
    simp only [BitVec.toNat_ofNat]
    omega
  have h4 : fieldOf (encodeL op l d) 0 1 = d := by
    apply BitVec.eq_of_toNat_eq
    rw [toNat_fieldOf, encodeL, toNat_append_add, toNat_append_add, toNat_append_add, toNat_append_add]
    simp only [BitVec.toNat_ofNat]
    omega
  refine ⟨?_, by simp [decodeL, h1, h2, h3, h4, decodeLine_encodeLine]⟩
  apply BitVec.eq_of_toNat_eq
  rw [toNat_fieldOf, encodeL, toNat_append_add, toNat_append_add, toNat_append_add, toNat_append_add]
  simp only [BitVec.toNat_ofNat]
  omega

/-- R103: the fields of a Time Value are read where they are written. -/
theorem unpackTime_packTime (t : TimeValue) : Machine.unpackTime (Machine.packTime t) = t := by
  obtain ⟨y, mo, d, h, mi, s⟩ := t
  have := y.isLt
  have := mo.isLt
  have := d.isLt
  have := h.isLt
  have := mi.isLt
  have := s.isLt
  simp only [Machine.unpackTime, Machine.packTime, TimeValue.mk.injEq]
  refine ⟨?_, ?_, ?_, ?_, ?_, ?_⟩ <;> apply BitVec.eq_of_toNat_eq <;>
    simp only [BitVec.extractLsb'_toNat, Nat.shiftRight_eq_div_pow, toNat_append_add] <;> omega

/-- R103: a Time Value's payload is determined by its fields. -/
theorem packTime_unpackTime (w : BitVec 56) : Machine.packTime (Machine.unpackTime w) = w := by
  apply BitVec.eq_of_toNat_eq
  have := w.isLt
  simp only [Machine.unpackTime, Machine.packTime, BitVec.extractLsb'_toNat, Nat.shiftRight_eq_div_pow, toNat_append_add]
  omega

theorem decodeT_encodeT (op : BitVec 8) (t : TimeValue) :
    fieldOf (encodeT op t) 56 8 = op ∧ decodeT (encodeT op t) = .ok (.settime t) := by
  have ho := op.isLt
  have ht := (Machine.packTime t).isLt
  have h1 : fieldOf (encodeT op t) 0 56 = Machine.packTime t := by
    apply BitVec.eq_of_toNat_eq
    rw [toNat_fieldOf, encodeT, toNat_append_add]
    omega
  refine ⟨?_, by simp [decodeT, h1, unpackTime_packTime]⟩
  apply BitVec.eq_of_toNat_eq
  rw [toNat_fieldOf, encodeT, toNat_append_add]
  omega

/-! ### The round trip, per constructor -/

namespace Laws.RoundTrip

/-- Decoding the encoding of `i` gives `i`. -/
def Statement (i : Instr) : Prop := decode (encode i) = .ok i

theorem init : Statement .init := by
  obtain ⟨h, e⟩ := decodeN_encodeN 0x01 .init
  simp only [Statement, decode, encode, decodeWord, h]
  exact e

theorem settime (t : TimeValue) : Statement (.settime t) := by
  obtain ⟨h, e⟩ := decodeT_encodeT 0x02 t
  simp only [Statement, decode, encode, decodeWord, h]
  exact e

theorem readtime : Statement .readtime := by
  obtain ⟨h, e⟩ := decodeN_encodeN 0x03 .readtime
  simp only [Statement, decode, encode, decodeWord, h]
  exact e

theorem wrreg (a v : Byte) : Statement (.wrreg a v) := by
  obtain ⟨h, e⟩ := decodeAB_encodeAB 0x10 a v .wrreg
  simp only [Statement, decode, encode, decodeWord, h]
  exact e

theorem rdreg (a : Byte) : Statement (.rdreg a) := by
  obtain ⟨h, e⟩ := decodeB_encodeB 0x11 a .rdreg
  simp only [Statement, decode, encode, decodeWord, h]
  exact e

theorem cehi : Statement .cehi := by
  obtain ⟨h, e⟩ := decodeN_encodeN 0x12 .cehi
  simp only [Statement, decode, encode, decodeWord, h]
  exact e

theorem celo : Statement .celo := by
  obtain ⟨h, e⟩ := decodeN_encodeN 0x13 .celo
  simp only [Statement, decode, encode, decodeWord, h]
  exact e

theorem wrbyte (v : Byte) : Statement (.wrbyte v) := by
  obtain ⟨h, e⟩ := decodeB_encodeB 0x20 v .wrbyte
  simp only [Statement, decode, encode, decodeWord, h]
  exact e

theorem rdbyte : Statement .rdbyte := by
  obtain ⟨h, e⟩ := decodeN_encodeN 0x21 .rdbyte
  simp only [Statement, decode, encode, decodeWord, h]
  exact e

theorem bcd2dec (b : Byte) : Statement (.bcd2dec b) := by
  obtain ⟨h, e⟩ := decodeB_encodeB 0x30 b .bcd2dec
  simp only [Statement, decode, encode, decodeWord, h]
  exact e

theorem dec2bcd (d : Byte) : Statement (.dec2bcd d) := by
  obtain ⟨h, e⟩ := decodeB_encodeB 0x31 d .dec2bcd
  simp only [Statement, decode, encode, decodeWord, h]
  exact e

theorem cfgline (l : Line) (d : Dir) : Statement (.cfgline l d) := by
  obtain ⟨h, e⟩ := decodeL_encodeL 0x40 l (encodeDir d) withDir
  simp only [Statement, decode, encode, decodeWord, h, e]
  cases d <;> rfl

theorem sethi (l : Line) : Statement (.sethi l) := by
  obtain ⟨h, e⟩ := decodeL_encodeL 0x41 l 0#1 (noDir .sethi)
  simp only [Statement, decode, encode, decodeWord, h]
  exact e

theorem setlo (l : Line) : Statement (.setlo l) := by
  obtain ⟨h, e⟩ := decodeL_encodeL 0x42 l 0#1 (noDir .setlo)
  simp only [Statement, decode, encode, decodeWord, h]
  exact e

theorem rdlvl (l : Line) : Statement (.rdlvl l) := by
  obtain ⟨h, e⟩ := decodeL_encodeL 0x43 l 0#1 (noDir .rdlvl)
  simp only [Statement, decode, encode, decodeWord, h]
  exact e

theorem sleep (d : BitVec 16) : Statement (.sleep d) := by
  obtain ⟨h, e⟩ := decodeW_encodeW 0x44 d .sleep
  simp only [Statement, decode, encode, decodeWord, h]
  exact e

theorem secW : Statement .secW := rfl

theorem secR : Statement .secR := rfl

theorem minW : Statement .minW := rfl

theorem minR : Statement .minR := rfl

theorem hourW : Statement .hourW := rfl

theorem hourR : Statement .hourR := rfl

theorem dateW : Statement .dateW := rfl

theorem dateR : Statement .dateR := rfl

theorem monthW : Statement .monthW := rfl

theorem monthR : Statement .monthR := rfl

theorem dayW : Statement .dayW := rfl

theorem dayR : Statement .dayR := rfl

theorem yearW : Statement .yearW := rfl

theorem yearR : Statement .yearR := rfl

theorem wpW : Statement .wpW := rfl

theorem wpR : Statement .wpR := rfl

end Laws.RoundTrip
end Sys2Proof
end

