-- ==== Sys2Proof/Laws/Trace.lean ====
section
/-! SUPPORT. The lengths and the counts of the wire encoding's lists of events (R152, R154, R185, R303). -/

namespace Sys2Proof.Machine

/-! ### Counts over a concatenation -/

theorem risingEdges_append (x y : List Event) : risingEdges (x ++ y) = risingEdges x + risingEdges y :=
  List.count_append

theorem fallingEdges_append (x y : List Event) : fallingEdges (x ++ y) = fallingEdges x + fallingEdges y :=
  List.count_append

theorem delayMicros_append (x y : List Event) : delayMicros (x ++ y) = delayMicros x + delayMicros y := by
  induction x with
  | nil => simp [delayMicros]
  | cons e x ih => cases e <;> simp [delayMicros, ih, Nat.add_assoc]

theorem ioLevels_append (x y : List Event) : ioLevels (x ++ y) = ioLevels x ++ ioLevels y := by
  induction x with
  | nil => rfl
  | cons e x ih =>
    cases e with
    | set l b => cases l <;> simp [ioLevels, ih]
    | _ => simp [ioLevels, ih]

/-! ### Bytes -/

theorem writeByteEvents_length (v : Byte) : (writeByteEvents v).length = 41 := rfl
theorem readByteEvents_length (r : Byte) : (readByteEvents r).length = 41 := rfl
theorem risingEdges_writeByte (v : Byte) : risingEdges (writeByteEvents v) = 8 := rfl
theorem risingEdges_readByte (r : Byte) : risingEdges (readByteEvents r) = 8 := rfl
theorem fallingEdges_writeByte (v : Byte) : fallingEdges (writeByteEvents v) = 8 := rfl
theorem fallingEdges_readByte (r : Byte) : fallingEdges (readByteEvents r) = 8 := rfl

theorem delayMicros_writeByte (v : Byte) : delayMicros (writeByteEvents v) = 16 := by
  simp [writeByteEvents, bitsOf, writeCellEvents, delayMicros, Config.delayUs]

theorem delayMicros_readByte (r : Byte) : delayMicros (readByteEvents r) = 16 := by
  simp [readByteEvents, bitsOf, readCellEvents, delayMicros, Config.delayUs]

theorem ioLevels_writeByte (v : Byte) : ioLevels (writeByteEvents v) = bitsOf v := rfl
theorem ioLevels_readByte (r : Byte) : ioLevels (readByteEvents r) = [] := rfl

/-- The levels taken at the rising edges of a written byte are its bits, and the last stays on the wire. -/
theorem levelsAtRising_writeByte (b : Level) (v : Byte) (y : List Event) :
    levelsAtRising b (writeByteEvents v ++ y) = bitsOf v ++ levelsAtRising (v.getLsbD 7) y := rfl

/-! ### Frames -/

theorem writeFrame_length (a v : Byte) : (writeFrame a v).length = 84 := by
  simp [writeFrame, writeByteEvents_length]

theorem readFrame_length (a r : Byte) : (readFrame a r).length = 84 := by
  simp [readFrame, writeByteEvents_length, readByteEvents_length]

theorem delayMicros_writeFrame (a v : Byte) : delayMicros (writeFrame a v) = 32 := by
  simp only [writeFrame, delayMicros_append, delayMicros_writeByte]
  rfl

theorem delayMicros_readFrame (a r : Byte) : delayMicros (readFrame a r) = 32 := by
  simp only [readFrame, delayMicros_append, delayMicros_writeByte, delayMicros_readByte]
  rfl

theorem writeFrames_length (ps : List (Byte × Byte)) : (writeFrames ps).length = 84 * ps.length := by
  induction ps with
  | nil => rfl
  | cons q ps ih =>
    simp only [writeFrames, List.flatMap_cons, List.length_append, writeFrame_length, List.length_cons] at ih ⊢
    omega

theorem readFrames_length (ps : List (Byte × Byte)) : (readFrames ps).length = 84 * ps.length := by
  induction ps with
  | nil => rfl
  | cons q ps ih =>
    simp only [readFrames, List.flatMap_cons, List.length_append, readFrame_length, List.length_cons] at ih ⊢
    omega

theorem delayMicros_writeFrames (ps : List (Byte × Byte)) : delayMicros (writeFrames ps) = 32 * ps.length := by
  induction ps with
  | nil => rfl
  | cons q ps ih =>
    simp only [writeFrames, List.flatMap_cons, delayMicros_append, delayMicros_writeFrame, List.length_cons] at ih ⊢
    omega

theorem delayMicros_readFrames (ps : List (Byte × Byte)) : delayMicros (readFrames ps) = 32 * ps.length := by
  induction ps with
  | nil => rfl
  | cons q ps ih =>
    simp only [readFrames, List.flatMap_cons, delayMicros_append, delayMicros_readFrame, List.length_cons] at ih ⊢
    omega

end Sys2Proof.Machine
end

