-- ==== Sys2Proof/Laws/State.lean ====
section
/-! SUPPORT. One lemma per field per update of State: the state record is not unfolded again in later proofs. -/

namespace Sys2Proof.Machine

@[simp] theorem State.atPhase_cfg (s : State) (p : Phase) : (s.atPhase p).cfg = s.cfg := rfl
@[simp] theorem State.atPhase_clk (s : State) (p : Phase) : (s.atPhase p).clk = s.clk := rfl
@[simp] theorem State.atPhase_io (s : State) (p : Phase) : (s.atPhase p).io = s.io := rfl
@[simp] theorem State.atPhase_ce (s : State) (p : Phase) : (s.atPhase p).ce = s.ce := rfl
@[simp] theorem State.atPhase_sr (s : State) (p : Phase) : (s.atPhase p).sr = s.sr := rfl
@[simp] theorem State.atPhase_bc (s : State) (p : Phase) : (s.atPhase p).bc = s.bc := rfl
@[simp] theorem State.atPhase_tmr (s : State) (p : Phase) : (s.atPhase p).tmr = s.tmr := rfl
@[simp] theorem State.atPhase_ph (s : State) (p : Phase) : (s.atPhase p).ph = p := rfl
@[simp] theorem State.atPhase_txn (s : State) (p : Phase) : (s.atPhase p).txn = s.txn := rfl
@[simp] theorem State.atPhase_seq (s : State) (p : Phase) : (s.atPhase p).seq = s.seq := rfl
@[simp] theorem State.atPhase_busy (s : State) (p : Phase) : (s.atPhase p).busy = s.busy := rfl
@[simp] theorem State.atPhase_fault (s : State) (p : Phase) : (s.atPhase p).fault = s.fault := rfl
@[simp] theorem State.atPhase_cw (s : State) (p : Phase) : (s.atPhase p).cw = s.cw := rfl
@[simp] theorem State.atPhase_rw (s : State) (p : Phase) : (s.atPhase p).rw = s.rw := rfl
@[simp] theorem State.atPhase_trace (s : State) (p : Phase) : (s.atPhase p).trace = s.trace := rfl
@[simp] theorem State.atPhase_periph (s : State) (p : Phase) : (s.atPhase p).periph = s.periph := rfl
@[simp] theorem State.atPhase_lineFaults (s : State) (p : Phase) : (s.atPhase p).lineFaults = s.lineFaults := rfl
@[simp] theorem State.atPhase_prims (s : State) (p : Phase) : (s.atPhase p).prims = s.prims := rfl
@[simp] theorem State.atPhase_faultInfo (s : State) (p : Phase) : (s.atPhase p).faultInfo = s.faultInfo := rfl
@[simp] theorem State.atPhase_draws (s : State) (p : Phase) : (s.atPhase p).draws = s.draws := rfl
@[simp] theorem State.atPhase_pending (s : State) (p : Phase) : (s.atPhase p).pending = s.pending := rfl

@[simp] theorem State.atTxn_cfg (s : State) (x : Txn) : (s.atTxn x).cfg = s.cfg := rfl
@[simp] theorem State.atTxn_clk (s : State) (x : Txn) : (s.atTxn x).clk = s.clk := rfl
@[simp] theorem State.atTxn_io (s : State) (x : Txn) : (s.atTxn x).io = s.io := rfl
@[simp] theorem State.atTxn_ce (s : State) (x : Txn) : (s.atTxn x).ce = s.ce := rfl
@[simp] theorem State.atTxn_sr (s : State) (x : Txn) : (s.atTxn x).sr = s.sr := rfl
@[simp] theorem State.atTxn_bc (s : State) (x : Txn) : (s.atTxn x).bc = s.bc := rfl
@[simp] theorem State.atTxn_tmr (s : State) (x : Txn) : (s.atTxn x).tmr = s.tmr := rfl
@[simp] theorem State.atTxn_ph (s : State) (x : Txn) : (s.atTxn x).ph = s.ph := rfl
@[simp] theorem State.atTxn_txn (s : State) (x : Txn) : (s.atTxn x).txn = x := rfl
@[simp] theorem State.atTxn_seq (s : State) (x : Txn) : (s.atTxn x).seq = s.seq := rfl
@[simp] theorem State.atTxn_busy (s : State) (x : Txn) : (s.atTxn x).busy = s.busy := rfl
@[simp] theorem State.atTxn_fault (s : State) (x : Txn) : (s.atTxn x).fault = s.fault := rfl
@[simp] theorem State.atTxn_cw (s : State) (x : Txn) : (s.atTxn x).cw = s.cw := rfl
@[simp] theorem State.atTxn_rw (s : State) (x : Txn) : (s.atTxn x).rw = s.rw := rfl
@[simp] theorem State.atTxn_trace (s : State) (x : Txn) : (s.atTxn x).trace = s.trace := rfl
@[simp] theorem State.atTxn_periph (s : State) (x : Txn) : (s.atTxn x).periph = s.periph := rfl
@[simp] theorem State.atTxn_lineFaults (s : State) (x : Txn) : (s.atTxn x).lineFaults = s.lineFaults := rfl
@[simp] theorem State.atTxn_prims (s : State) (x : Txn) : (s.atTxn x).prims = s.prims := rfl
@[simp] theorem State.atTxn_faultInfo (s : State) (x : Txn) : (s.atTxn x).faultInfo = s.faultInfo := rfl
@[simp] theorem State.atTxn_draws (s : State) (x : Txn) : (s.atTxn x).draws = s.draws := rfl
@[simp] theorem State.atTxn_pending (s : State) (x : Txn) : (s.atTxn x).pending = s.pending := rfl

@[simp] theorem State.atSeq_cfg (s : State) (k : BitVec 4) : (s.atSeq k).cfg = s.cfg := rfl
@[simp] theorem State.atSeq_clk (s : State) (k : BitVec 4) : (s.atSeq k).clk = s.clk := rfl
@[simp] theorem State.atSeq_io (s : State) (k : BitVec 4) : (s.atSeq k).io = s.io := rfl
@[simp] theorem State.atSeq_ce (s : State) (k : BitVec 4) : (s.atSeq k).ce = s.ce := rfl
@[simp] theorem State.atSeq_sr (s : State) (k : BitVec 4) : (s.atSeq k).sr = s.sr := rfl
@[simp] theorem State.atSeq_bc (s : State) (k : BitVec 4) : (s.atSeq k).bc = s.bc := rfl
@[simp] theorem State.atSeq_tmr (s : State) (k : BitVec 4) : (s.atSeq k).tmr = s.tmr := rfl
@[simp] theorem State.atSeq_ph (s : State) (k : BitVec 4) : (s.atSeq k).ph = s.ph := rfl
@[simp] theorem State.atSeq_txn (s : State) (k : BitVec 4) : (s.atSeq k).txn = s.txn := rfl
@[simp] theorem State.atSeq_seq (s : State) (k : BitVec 4) : (s.atSeq k).seq = k := rfl
@[simp] theorem State.atSeq_busy (s : State) (k : BitVec 4) : (s.atSeq k).busy = s.busy := rfl
@[simp] theorem State.atSeq_fault (s : State) (k : BitVec 4) : (s.atSeq k).fault = s.fault := rfl
@[simp] theorem State.atSeq_cw (s : State) (k : BitVec 4) : (s.atSeq k).cw = s.cw := rfl
@[simp] theorem State.atSeq_rw (s : State) (k : BitVec 4) : (s.atSeq k).rw = s.rw := rfl
@[simp] theorem State.atSeq_trace (s : State) (k : BitVec 4) : (s.atSeq k).trace = s.trace := rfl
@[simp] theorem State.atSeq_periph (s : State) (k : BitVec 4) : (s.atSeq k).periph = s.periph := rfl
@[simp] theorem State.atSeq_lineFaults (s : State) (k : BitVec 4) : (s.atSeq k).lineFaults = s.lineFaults := rfl
@[simp] theorem State.atSeq_prims (s : State) (k : BitVec 4) : (s.atSeq k).prims = s.prims := rfl
@[simp] theorem State.atSeq_faultInfo (s : State) (k : BitVec 4) : (s.atSeq k).faultInfo = s.faultInfo := rfl
@[simp] theorem State.atSeq_draws (s : State) (k : BitVec 4) : (s.atSeq k).draws = s.draws := rfl
@[simp] theorem State.atSeq_pending (s : State) (k : BitVec 4) : (s.atSeq k).pending = s.pending := rfl

@[simp] theorem State.loadTimer_cfg (s : State) : (s.loadTimer).cfg = s.cfg := rfl
@[simp] theorem State.loadTimer_clk (s : State) : (s.loadTimer).clk = s.clk := rfl
@[simp] theorem State.loadTimer_io (s : State) : (s.loadTimer).io = s.io := rfl
@[simp] theorem State.loadTimer_ce (s : State) : (s.loadTimer).ce = s.ce := rfl
@[simp] theorem State.loadTimer_sr (s : State) : (s.loadTimer).sr = s.sr := rfl
@[simp] theorem State.loadTimer_bc (s : State) : (s.loadTimer).bc = s.bc := rfl
@[simp] theorem State.loadTimer_tmr (s : State) : (s.loadTimer).tmr = s.cfg.delayTicks := rfl
@[simp] theorem State.loadTimer_ph (s : State) : (s.loadTimer).ph = s.ph := rfl
@[simp] theorem State.loadTimer_txn (s : State) : (s.loadTimer).txn = s.txn := rfl
@[simp] theorem State.loadTimer_seq (s : State) : (s.loadTimer).seq = s.seq := rfl
@[simp] theorem State.loadTimer_busy (s : State) : (s.loadTimer).busy = s.busy := rfl
@[simp] theorem State.loadTimer_fault (s : State) : (s.loadTimer).fault = s.fault := rfl
@[simp] theorem State.loadTimer_cw (s : State) : (s.loadTimer).cw = s.cw := rfl
@[simp] theorem State.loadTimer_rw (s : State) : (s.loadTimer).rw = s.rw := rfl
@[simp] theorem State.loadTimer_trace (s : State) : (s.loadTimer).trace = s.trace := rfl
@[simp] theorem State.loadTimer_periph (s : State) : (s.loadTimer).periph = s.periph := rfl
@[simp] theorem State.loadTimer_lineFaults (s : State) : (s.loadTimer).lineFaults = s.lineFaults := rfl
@[simp] theorem State.loadTimer_prims (s : State) : (s.loadTimer).prims = s.prims := rfl
@[simp] theorem State.loadTimer_faultInfo (s : State) : (s.loadTimer).faultInfo = s.faultInfo := rfl
@[simp] theorem State.loadTimer_draws (s : State) : (s.loadTimer).draws = s.draws := rfl
@[simp] theorem State.loadTimer_pending (s : State) : (s.loadTimer).pending = s.pending := rfl

@[simp] theorem State.endWriteCell_cfg (s : State) : (s.endWriteCell).cfg = s.cfg := rfl
@[simp] theorem State.endWriteCell_clk (s : State) : (s.endWriteCell).clk = s.clk := rfl
@[simp] theorem State.endWriteCell_io (s : State) : (s.endWriteCell).io = s.io := rfl
@[simp] theorem State.endWriteCell_ce (s : State) : (s.endWriteCell).ce = s.ce := rfl
@[simp] theorem State.endWriteCell_sr (s : State) : (s.endWriteCell).sr = shiftOut s.sr := rfl
@[simp] theorem State.endWriteCell_bc (s : State) : (s.endWriteCell).bc = s.bc + 1 := rfl
@[simp] theorem State.endWriteCell_tmr (s : State) : (s.endWriteCell).tmr = s.tmr := rfl
@[simp] theorem State.endWriteCell_ph (s : State) : (s.endWriteCell).ph = s.ph := rfl
@[simp] theorem State.endWriteCell_txn (s : State) : (s.endWriteCell).txn = s.txn := rfl
@[simp] theorem State.endWriteCell_seq (s : State) : (s.endWriteCell).seq = s.seq := rfl
@[simp] theorem State.endWriteCell_busy (s : State) : (s.endWriteCell).busy = s.busy := rfl
@[simp] theorem State.endWriteCell_fault (s : State) : (s.endWriteCell).fault = s.fault := rfl
@[simp] theorem State.endWriteCell_cw (s : State) : (s.endWriteCell).cw = s.cw := rfl
@[simp] theorem State.endWriteCell_rw (s : State) : (s.endWriteCell).rw = s.rw := rfl
@[simp] theorem State.endWriteCell_trace (s : State) : (s.endWriteCell).trace = s.trace := rfl
@[simp] theorem State.endWriteCell_periph (s : State) : (s.endWriteCell).periph = s.periph := rfl
@[simp] theorem State.endWriteCell_lineFaults (s : State) : (s.endWriteCell).lineFaults = s.lineFaults := rfl
@[simp] theorem State.endWriteCell_prims (s : State) : (s.endWriteCell).prims = s.prims := rfl
@[simp] theorem State.endWriteCell_faultInfo (s : State) : (s.endWriteCell).faultInfo = s.faultInfo := rfl
@[simp] theorem State.endWriteCell_draws (s : State) : (s.endWriteCell).draws = s.draws := rfl
@[simp] theorem State.endWriteCell_pending (s : State) : (s.endWriteCell).pending = s.pending := rfl

@[simp] theorem State.endReadCell_cfg (s : State) : (s.endReadCell).cfg = s.cfg := rfl
@[simp] theorem State.endReadCell_clk (s : State) : (s.endReadCell).clk = s.clk := rfl
@[simp] theorem State.endReadCell_io (s : State) : (s.endReadCell).io = s.io := rfl
@[simp] theorem State.endReadCell_ce (s : State) : (s.endReadCell).ce = s.ce := rfl
@[simp] theorem State.endReadCell_sr (s : State) : (s.endReadCell).sr = s.sr := rfl
@[simp] theorem State.endReadCell_bc (s : State) : (s.endReadCell).bc = s.bc + 1 := rfl
@[simp] theorem State.endReadCell_tmr (s : State) : (s.endReadCell).tmr = s.tmr := rfl
@[simp] theorem State.endReadCell_ph (s : State) : (s.endReadCell).ph = s.ph := rfl
@[simp] theorem State.endReadCell_txn (s : State) : (s.endReadCell).txn = s.txn := rfl
@[simp] theorem State.endReadCell_seq (s : State) : (s.endReadCell).seq = s.seq := rfl
@[simp] theorem State.endReadCell_busy (s : State) : (s.endReadCell).busy = s.busy := rfl
@[simp] theorem State.endReadCell_fault (s : State) : (s.endReadCell).fault = s.fault := rfl
@[simp] theorem State.endReadCell_cw (s : State) : (s.endReadCell).cw = s.cw := rfl
@[simp] theorem State.endReadCell_rw (s : State) : (s.endReadCell).rw = s.rw := rfl
@[simp] theorem State.endReadCell_trace (s : State) : (s.endReadCell).trace = s.trace := rfl
@[simp] theorem State.endReadCell_periph (s : State) : (s.endReadCell).periph = s.periph := rfl
@[simp] theorem State.endReadCell_lineFaults (s : State) : (s.endReadCell).lineFaults = s.lineFaults := rfl
@[simp] theorem State.endReadCell_prims (s : State) : (s.endReadCell).prims = s.prims := rfl
@[simp] theorem State.endReadCell_faultInfo (s : State) : (s.endReadCell).faultInfo = s.faultInfo := rfl
@[simp] theorem State.endReadCell_draws (s : State) : (s.endReadCell).draws = s.draws := rfl
@[simp] theorem State.endReadCell_pending (s : State) : (s.endReadCell).pending = s.pending := rfl

@[simp] theorem State.loadWrite_cfg (s : State) (v : Byte) : (s.loadWrite v).cfg = s.cfg := rfl
@[simp] theorem State.loadWrite_clk (s : State) (v : Byte) : (s.loadWrite v).clk = s.clk := rfl
@[simp] theorem State.loadWrite_io (s : State) (v : Byte) : (s.loadWrite v).io = s.io := rfl
@[simp] theorem State.loadWrite_ce (s : State) (v : Byte) : (s.loadWrite v).ce = s.ce := rfl
@[simp] theorem State.loadWrite_sr (s : State) (v : Byte) : (s.loadWrite v).sr = v := rfl
@[simp] theorem State.loadWrite_bc (s : State) (v : Byte) : (s.loadWrite v).bc = 0 := rfl
@[simp] theorem State.loadWrite_tmr (s : State) (v : Byte) : (s.loadWrite v).tmr = s.tmr := rfl
@[simp] theorem State.loadWrite_ph (s : State) (v : Byte) : (s.loadWrite v).ph = .wCfg := rfl
@[simp] theorem State.loadWrite_txn (s : State) (v : Byte) : (s.loadWrite v).txn = s.txn := rfl
@[simp] theorem State.loadWrite_seq (s : State) (v : Byte) : (s.loadWrite v).seq = s.seq := rfl
@[simp] theorem State.loadWrite_busy (s : State) (v : Byte) : (s.loadWrite v).busy = s.busy := rfl
@[simp] theorem State.loadWrite_fault (s : State) (v : Byte) : (s.loadWrite v).fault = s.fault := rfl
@[simp] theorem State.loadWrite_cw (s : State) (v : Byte) : (s.loadWrite v).cw = s.cw := rfl
@[simp] theorem State.loadWrite_rw (s : State) (v : Byte) : (s.loadWrite v).rw = s.rw := rfl
@[simp] theorem State.loadWrite_trace (s : State) (v : Byte) : (s.loadWrite v).trace = s.trace := rfl
@[simp] theorem State.loadWrite_periph (s : State) (v : Byte) : (s.loadWrite v).periph = s.periph := rfl
@[simp] theorem State.loadWrite_lineFaults (s : State) (v : Byte) : (s.loadWrite v).lineFaults = s.lineFaults := rfl
@[simp] theorem State.loadWrite_prims (s : State) (v : Byte) : (s.loadWrite v).prims = s.prims := rfl
@[simp] theorem State.loadWrite_faultInfo (s : State) (v : Byte) : (s.loadWrite v).faultInfo = s.faultInfo := rfl
@[simp] theorem State.loadWrite_draws (s : State) (v : Byte) : (s.loadWrite v).draws = s.draws := rfl
@[simp] theorem State.loadWrite_pending (s : State) (v : Byte) : (s.loadWrite v).pending = s.pending := rfl

@[simp] theorem State.loadRead_cfg (s : State) : (s.loadRead).cfg = s.cfg := rfl
@[simp] theorem State.loadRead_clk (s : State) : (s.loadRead).clk = s.clk := rfl
@[simp] theorem State.loadRead_io (s : State) : (s.loadRead).io = s.io := rfl
@[simp] theorem State.loadRead_ce (s : State) : (s.loadRead).ce = s.ce := rfl
@[simp] theorem State.loadRead_sr (s : State) : (s.loadRead).sr = 0 := rfl
@[simp] theorem State.loadRead_bc (s : State) : (s.loadRead).bc = 0 := rfl
@[simp] theorem State.loadRead_tmr (s : State) : (s.loadRead).tmr = s.tmr := rfl
@[simp] theorem State.loadRead_ph (s : State) : (s.loadRead).ph = .rCfg := rfl
@[simp] theorem State.loadRead_txn (s : State) : (s.loadRead).txn = s.txn := rfl
@[simp] theorem State.loadRead_seq (s : State) : (s.loadRead).seq = s.seq := rfl
@[simp] theorem State.loadRead_busy (s : State) : (s.loadRead).busy = s.busy := rfl
@[simp] theorem State.loadRead_fault (s : State) : (s.loadRead).fault = s.fault := rfl
@[simp] theorem State.loadRead_cw (s : State) : (s.loadRead).cw = s.cw := rfl
@[simp] theorem State.loadRead_rw (s : State) : (s.loadRead).rw = s.rw := rfl
@[simp] theorem State.loadRead_trace (s : State) : (s.loadRead).trace = s.trace := rfl
@[simp] theorem State.loadRead_periph (s : State) : (s.loadRead).periph = s.periph := rfl
@[simp] theorem State.loadRead_lineFaults (s : State) : (s.loadRead).lineFaults = s.lineFaults := rfl
@[simp] theorem State.loadRead_prims (s : State) : (s.loadRead).prims = s.prims := rfl
@[simp] theorem State.loadRead_faultInfo (s : State) : (s.loadRead).faultInfo = s.faultInfo := rfl
@[simp] theorem State.loadRead_draws (s : State) : (s.loadRead).draws = s.draws := rfl
@[simp] theorem State.loadRead_pending (s : State) : (s.loadRead).pending = s.pending := rfl

@[simp] theorem State.shiftSample_cfg (s : State) (b : Level) : (s.shiftSample b).cfg = s.cfg := rfl
@[simp] theorem State.shiftSample_clk (s : State) (b : Level) : (s.shiftSample b).clk = s.clk := rfl
@[simp] theorem State.shiftSample_io (s : State) (b : Level) : (s.shiftSample b).io = s.io := rfl
@[simp] theorem State.shiftSample_ce (s : State) (b : Level) : (s.shiftSample b).ce = s.ce := rfl
@[simp] theorem State.shiftSample_sr (s : State) (b : Level) : (s.shiftSample b).sr = shiftIn s.sr b := rfl
@[simp] theorem State.shiftSample_bc (s : State) (b : Level) : (s.shiftSample b).bc = s.bc := rfl
@[simp] theorem State.shiftSample_tmr (s : State) (b : Level) : (s.shiftSample b).tmr = s.tmr := rfl
@[simp] theorem State.shiftSample_ph (s : State) (b : Level) : (s.shiftSample b).ph = s.ph := rfl
@[simp] theorem State.shiftSample_txn (s : State) (b : Level) : (s.shiftSample b).txn = s.txn := rfl
@[simp] theorem State.shiftSample_seq (s : State) (b : Level) : (s.shiftSample b).seq = s.seq := rfl
@[simp] theorem State.shiftSample_busy (s : State) (b : Level) : (s.shiftSample b).busy = s.busy := rfl
@[simp] theorem State.shiftSample_fault (s : State) (b : Level) : (s.shiftSample b).fault = s.fault := rfl
@[simp] theorem State.shiftSample_cw (s : State) (b : Level) : (s.shiftSample b).cw = s.cw := rfl
@[simp] theorem State.shiftSample_rw (s : State) (b : Level) : (s.shiftSample b).rw = s.rw := rfl
@[simp] theorem State.shiftSample_trace (s : State) (b : Level) : (s.shiftSample b).trace = s.trace := rfl
@[simp] theorem State.shiftSample_periph (s : State) (b : Level) : (s.shiftSample b).periph = s.periph := rfl
@[simp] theorem State.shiftSample_lineFaults (s : State) (b : Level) : (s.shiftSample b).lineFaults = s.lineFaults := rfl
@[simp] theorem State.shiftSample_prims (s : State) (b : Level) : (s.shiftSample b).prims = s.prims := rfl
@[simp] theorem State.shiftSample_faultInfo (s : State) (b : Level) : (s.shiftSample b).faultInfo = s.faultInfo := rfl
@[simp] theorem State.shiftSample_draws (s : State) (b : Level) : (s.shiftSample b).draws = s.draws := rfl
@[simp] theorem State.shiftSample_pending (s : State) (b : Level) : (s.shiftSample b).pending = s.pending := rfl

@[simp] theorem respond_cfg (s : State) (x : BitVec 56) : (respond x s).cfg = s.cfg := rfl
@[simp] theorem respond_clk (s : State) (x : BitVec 56) : (respond x s).clk = s.clk := rfl
@[simp] theorem respond_io (s : State) (x : BitVec 56) : (respond x s).io = s.io := rfl
@[simp] theorem respond_ce (s : State) (x : BitVec 56) : (respond x s).ce = s.ce := rfl
@[simp] theorem respond_sr (s : State) (x : BitVec 56) : (respond x s).sr = s.sr := rfl
@[simp] theorem respond_bc (s : State) (x : BitVec 56) : (respond x s).bc = s.bc := rfl
@[simp] theorem respond_tmr (s : State) (x : BitVec 56) : (respond x s).tmr = s.tmr := rfl
@[simp] theorem respond_ph (s : State) (x : BitVec 56) : (respond x s).ph = s.ph := rfl
@[simp] theorem respond_txn (s : State) (x : BitVec 56) : (respond x s).txn = s.txn := rfl
@[simp] theorem respond_seq (s : State) (x : BitVec 56) : (respond x s).seq = s.seq := rfl
@[simp] theorem respond_busy (s : State) (x : BitVec 56) : (respond x s).busy = false := rfl
@[simp] theorem respond_fault (s : State) (x : BitVec 56) : (respond x s).fault = s.fault := rfl
@[simp] theorem respond_cw (s : State) (x : BitVec 56) : (respond x s).cw = s.cw := rfl
@[simp] theorem respond_rw (s : State) (x : BitVec 56) : (respond x s).rw = okResponse x := rfl
@[simp] theorem respond_trace (s : State) (x : BitVec 56) : (respond x s).trace = s.trace := rfl
@[simp] theorem respond_periph (s : State) (x : BitVec 56) : (respond x s).periph = s.periph := rfl
@[simp] theorem respond_lineFaults (s : State) (x : BitVec 56) : (respond x s).lineFaults = s.lineFaults := rfl
@[simp] theorem respond_prims (s : State) (x : BitVec 56) : (respond x s).prims = s.prims := rfl
@[simp] theorem respond_faultInfo (s : State) (x : BitVec 56) : (respond x s).faultInfo = s.faultInfo := rfl
@[simp] theorem respond_draws (s : State) (x : BitVec 56) : (respond x s).draws = s.draws := rfl
@[simp] theorem respond_pending (s : State) (x : BitVec 56) : (respond x s).pending = s.pending := rfl

@[simp] theorem enterLineFault_cfg (s : State) (l : Option Line) (p : Primitive) : (enterLineFault l p s).cfg = s.cfg := rfl
@[simp] theorem enterLineFault_clk (s : State) (l : Option Line) (p : Primitive) : (enterLineFault l p s).clk = s.clk := rfl
@[simp] theorem enterLineFault_io (s : State) (l : Option Line) (p : Primitive) : (enterLineFault l p s).io = s.io := rfl
@[simp] theorem enterLineFault_ce (s : State) (l : Option Line) (p : Primitive) : (enterLineFault l p s).ce = s.ce := rfl
@[simp] theorem enterLineFault_sr (s : State) (l : Option Line) (p : Primitive) : (enterLineFault l p s).sr = s.sr := rfl
@[simp] theorem enterLineFault_bc (s : State) (l : Option Line) (p : Primitive) : (enterLineFault l p s).bc = s.bc := rfl
@[simp] theorem enterLineFault_tmr (s : State) (l : Option Line) (p : Primitive) : (enterLineFault l p s).tmr = s.tmr := rfl
@[simp] theorem enterLineFault_ph (s : State) (l : Option Line) (p : Primitive) : (enterLineFault l p s).ph = s.ph := rfl
@[simp] theorem enterLineFault_txn (s : State) (l : Option Line) (p : Primitive) : (enterLineFault l p s).txn = s.txn := rfl
@[simp] theorem enterLineFault_seq (s : State) (l : Option Line) (p : Primitive) : (enterLineFault l p s).seq = s.seq := rfl
@[simp] theorem enterLineFault_busy (s : State) (l : Option Line) (p : Primitive) : (enterLineFault l p s).busy = true := rfl
@[simp] theorem enterLineFault_fault (s : State) (l : Option Line) (p : Primitive) : (enterLineFault l p s).fault = true := rfl
@[simp] theorem enterLineFault_cw (s : State) (l : Option Line) (p : Primitive) : (enterLineFault l p s).cw = s.cw := rfl
@[simp] theorem enterLineFault_rw (s : State) (l : Option Line) (p : Primitive) : (enterLineFault l p s).rw = responseWord statusLineFault 0 := rfl
@[simp] theorem enterLineFault_trace (s : State) (l : Option Line) (p : Primitive) : (enterLineFault l p s).trace = s.trace := rfl
@[simp] theorem enterLineFault_periph (s : State) (l : Option Line) (p : Primitive) : (enterLineFault l p s).periph = s.periph := rfl
@[simp] theorem enterLineFault_lineFaults (s : State) (l : Option Line) (p : Primitive) : (enterLineFault l p s).lineFaults = s.lineFaults := rfl
@[simp] theorem enterLineFault_prims (s : State) (l : Option Line) (p : Primitive) : (enterLineFault l p s).prims = s.prims := rfl
@[simp] theorem enterLineFault_faultInfo (s : State) (l : Option Line) (p : Primitive) : (enterLineFault l p s).faultInfo = some { line := l, prim := p, index := s.trace.length } := rfl
@[simp] theorem enterLineFault_draws (s : State) (l : Option Line) (p : Primitive) : (enterLineFault l p s).draws = s.draws := rfl
@[simp] theorem enterLineFault_pending (s : State) (l : Option Line) (p : Primitive) : (enterLineFault l p s).pending = s.pending := rfl

@[simp] theorem answerIllegal_cfg (s : State) (w : Word) : (answerIllegal w s).cfg = s.cfg := rfl
@[simp] theorem answerIllegal_clk (s : State) (w : Word) : (answerIllegal w s).clk = s.clk := rfl
@[simp] theorem answerIllegal_io (s : State) (w : Word) : (answerIllegal w s).io = s.io := rfl
@[simp] theorem answerIllegal_ce (s : State) (w : Word) : (answerIllegal w s).ce = s.ce := rfl
@[simp] theorem answerIllegal_sr (s : State) (w : Word) : (answerIllegal w s).sr = s.sr := rfl
@[simp] theorem answerIllegal_bc (s : State) (w : Word) : (answerIllegal w s).bc = s.bc := rfl
@[simp] theorem answerIllegal_tmr (s : State) (w : Word) : (answerIllegal w s).tmr = s.tmr := rfl
@[simp] theorem answerIllegal_ph (s : State) (w : Word) : (answerIllegal w s).ph = s.ph := rfl
@[simp] theorem answerIllegal_txn (s : State) (w : Word) : (answerIllegal w s).txn = s.txn := rfl
@[simp] theorem answerIllegal_seq (s : State) (w : Word) : (answerIllegal w s).seq = s.seq := rfl
@[simp] theorem answerIllegal_busy (s : State) (w : Word) : (answerIllegal w s).busy = s.busy := rfl
@[simp] theorem answerIllegal_fault (s : State) (w : Word) : (answerIllegal w s).fault = s.fault := rfl
@[simp] theorem answerIllegal_cw (s : State) (w : Word) : (answerIllegal w s).cw = w := rfl
@[simp] theorem answerIllegal_rw (s : State) (w : Word) : (answerIllegal w s).rw = responseWord statusIllegal 0 := rfl
@[simp] theorem answerIllegal_trace (s : State) (w : Word) : (answerIllegal w s).trace = s.trace := rfl
@[simp] theorem answerIllegal_periph (s : State) (w : Word) : (answerIllegal w s).periph = s.periph := rfl
@[simp] theorem answerIllegal_lineFaults (s : State) (w : Word) : (answerIllegal w s).lineFaults = s.lineFaults := rfl
@[simp] theorem answerIllegal_prims (s : State) (w : Word) : (answerIllegal w s).prims = s.prims := rfl
@[simp] theorem answerIllegal_faultInfo (s : State) (w : Word) : (answerIllegal w s).faultInfo = s.faultInfo := rfl
@[simp] theorem answerIllegal_draws (s : State) (w : Word) : (answerIllegal w s).draws = s.draws := rfl
@[simp] theorem answerIllegal_pending (s : State) (w : Word) : (answerIllegal w s).pending = s.pending := rfl

@[simp] theorem settle_cfg (s : State) : (settle s).cfg = s.cfg := rfl
@[simp] theorem settle_clk (s : State) : (settle s).clk = s.clk := rfl
@[simp] theorem settle_io (s : State) : (settle s).io = s.io := rfl
@[simp] theorem settle_ce (s : State) : (settle s).ce = s.ce := rfl
@[simp] theorem settle_sr (s : State) : (settle s).sr = Config.freeSr s.draws := rfl
@[simp] theorem settle_bc (s : State) : (settle s).bc = BitVec.ofNat 4 (Config.freeBc s.draws).val := rfl
@[simp] theorem settle_tmr (s : State) : (settle s).tmr = Config.freeTmr s.draws := rfl
@[simp] theorem settle_ph (s : State) : (settle s).ph = s.ph := rfl
@[simp] theorem settle_txn (s : State) : (settle s).txn = s.txn := rfl
@[simp] theorem settle_seq (s : State) : (settle s).seq = s.seq := rfl
@[simp] theorem settle_busy (s : State) : (settle s).busy = s.busy := rfl
@[simp] theorem settle_fault (s : State) : (settle s).fault = s.fault := rfl
@[simp] theorem settle_cw (s : State) : (settle s).cw = s.cw := rfl
@[simp] theorem settle_rw (s : State) : (settle s).rw = s.rw := rfl
@[simp] theorem settle_trace (s : State) : (settle s).trace = s.trace := rfl
@[simp] theorem settle_periph (s : State) : (settle s).periph = s.periph := rfl
@[simp] theorem settle_lineFaults (s : State) : (settle s).lineFaults = s.lineFaults := rfl
@[simp] theorem settle_prims (s : State) : (settle s).prims = s.prims := rfl
@[simp] theorem settle_faultInfo (s : State) : (settle s).faultInfo = s.faultInfo := rfl
@[simp] theorem settle_draws (s : State) : (settle s).draws = s.draws + 1 := rfl
@[simp] theorem settle_pending (s : State) : (settle s).pending = s.pending := rfl

@[simp] theorem State.withLine_cfg (s : State) (l : Line) (x : LineState) : (s.withLine l x).cfg = s.cfg := by
  cases l <;> rfl
@[simp] theorem State.withLine_clk (s : State) (l : Line) (x : LineState) :
    (s.withLine l x).clk = if l = .clk then x else s.clk := by cases l <;> rfl
@[simp] theorem State.withLine_io (s : State) (l : Line) (x : LineState) :
    (s.withLine l x).io = if l = .io then x else s.io := by cases l <;> rfl
@[simp] theorem State.withLine_ce (s : State) (l : Line) (x : LineState) :
    (s.withLine l x).ce = if l = .ce then x else s.ce := by cases l <;> rfl
@[simp] theorem State.withLine_sr (s : State) (l : Line) (x : LineState) : (s.withLine l x).sr = s.sr := by
  cases l <;> rfl
@[simp] theorem State.withLine_bc (s : State) (l : Line) (x : LineState) : (s.withLine l x).bc = s.bc := by
  cases l <;> rfl
@[simp] theorem State.withLine_tmr (s : State) (l : Line) (x : LineState) : (s.withLine l x).tmr = s.tmr := by
  cases l <;> rfl
@[simp] theorem State.withLine_ph (s : State) (l : Line) (x : LineState) : (s.withLine l x).ph = s.ph := by
  cases l <;> rfl
@[simp] theorem State.withLine_txn (s : State) (l : Line) (x : LineState) : (s.withLine l x).txn = s.txn := by
  cases l <;> rfl
@[simp] theorem State.withLine_seq (s : State) (l : Line) (x : LineState) : (s.withLine l x).seq = s.seq := by
  cases l <;> rfl
@[simp] theorem State.withLine_busy (s : State) (l : Line) (x : LineState) : (s.withLine l x).busy = s.busy := by
  cases l <;> rfl
@[simp] theorem State.withLine_fault (s : State) (l : Line) (x : LineState) : (s.withLine l x).fault = s.fault := by
  cases l <;> rfl
@[simp] theorem State.withLine_cw (s : State) (l : Line) (x : LineState) : (s.withLine l x).cw = s.cw := by
  cases l <;> rfl
@[simp] theorem State.withLine_rw (s : State) (l : Line) (x : LineState) : (s.withLine l x).rw = s.rw := by
  cases l <;> rfl
@[simp] theorem State.withLine_trace (s : State) (l : Line) (x : LineState) : (s.withLine l x).trace = s.trace := by
  cases l <;> rfl
@[simp] theorem State.withLine_periph (s : State) (l : Line) (x : LineState) : (s.withLine l x).periph = s.periph := by
  cases l <;> rfl
@[simp] theorem State.withLine_lineFaults (s : State) (l : Line) (x : LineState) : (s.withLine l x).lineFaults = s.lineFaults := by
  cases l <;> rfl
@[simp] theorem State.withLine_prims (s : State) (l : Line) (x : LineState) : (s.withLine l x).prims = s.prims := by
  cases l <;> rfl
@[simp] theorem State.withLine_faultInfo (s : State) (l : Line) (x : LineState) : (s.withLine l x).faultInfo = s.faultInfo := by
  cases l <;> rfl
@[simp] theorem State.withLine_draws (s : State) (l : Line) (x : LineState) : (s.withLine l x).draws = s.draws := by
  cases l <;> rfl
@[simp] theorem State.withLine_pending (s : State) (l : Line) (x : LineState) : (s.withLine l x).pending = s.pending := by
  cases l <;> rfl

/-- A line just written reads as written; the others read as before. -/
@[simp] theorem State.withLine_line (s : State) (l k : Line) (x : LineState) :
    (s.withLine l x).line k = if l = k then x else s.line k := by
  cases l <;> cases k <;> rfl

@[simp] theorem acceptInput_cfg (e : Encoded) (s : State) : (acceptInput e s).cfg = s.cfg := by
  cases e <;> rfl
@[simp] theorem acceptInput_clk (e : Encoded) (s : State) : (acceptInput e s).clk = s.clk := by
  cases e <;> rfl
@[simp] theorem acceptInput_io (e : Encoded) (s : State) : (acceptInput e s).io = s.io := by
  cases e <;> rfl
@[simp] theorem acceptInput_ce (e : Encoded) (s : State) : (acceptInput e s).ce = s.ce := by
  cases e <;> rfl
@[simp] theorem acceptInput_sr (e : Encoded) (s : State) : (acceptInput e s).sr = s.sr := by
  cases e <;> rfl
@[simp] theorem acceptInput_bc (e : Encoded) (s : State) : (acceptInput e s).bc = s.bc := by
  cases e <;> rfl
@[simp] theorem acceptInput_tmr (e : Encoded) (s : State) : (acceptInput e s).tmr = s.tmr := by
  cases e <;> rfl
@[simp] theorem acceptInput_ph (e : Encoded) (s : State) : (acceptInput e s).ph = s.ph := by
  cases e <;> rfl
@[simp] theorem acceptInput_txn (e : Encoded) (s : State) : (acceptInput e s).txn = s.txn := by
  cases e <;> rfl
@[simp] theorem acceptInput_seq (e : Encoded) (s : State) : (acceptInput e s).seq = s.seq := by
  cases e <;> rfl
@[simp] theorem acceptInput_busy (e : Encoded) (s : State) : (acceptInput e s).busy = true := by
  cases e <;> rfl
@[simp] theorem acceptInput_fault (e : Encoded) (s : State) : (acceptInput e s).fault = s.fault := by
  cases e <;> rfl
theorem acceptInput_cw (e : Encoded) (s : State) :
    (acceptInput e s).cw = match e with | .word w => w | .wire _ => s.cw := by
  cases e <;> rfl
@[simp] theorem acceptInput_rw (e : Encoded) (s : State) : (acceptInput e s).rw = s.rw := by
  cases e <;> rfl
@[simp] theorem acceptInput_trace (e : Encoded) (s : State) : (acceptInput e s).trace = s.trace := by
  cases e <;> rfl
@[simp] theorem acceptInput_periph (e : Encoded) (s : State) : (acceptInput e s).periph = s.periph := by
  cases e <;> rfl
@[simp] theorem acceptInput_lineFaults (e : Encoded) (s : State) : (acceptInput e s).lineFaults = s.lineFaults := by
  cases e <;> rfl
@[simp] theorem acceptInput_prims (e : Encoded) (s : State) : (acceptInput e s).prims = s.prims := by
  cases e <;> rfl
@[simp] theorem acceptInput_faultInfo (e : Encoded) (s : State) : (acceptInput e s).faultInfo = s.faultInfo := by
  cases e <;> rfl
@[simp] theorem acceptInput_draws (e : Encoded) (s : State) : (acceptInput e s).draws = s.draws := by
  cases e <;> rfl
@[simp] theorem acceptInput_pending (e : Encoded) (s : State) : (acceptInput e s).pending = s.pending := by
  cases e <;> rfl

@[simp] theorem powerOn_cfg (s : State) : (powerOn s).cfg = s.cfg := rfl
@[simp] theorem powerOn_clk_mode (s : State) : (powerOn s).clk.mode = .unconf := rfl
@[simp] theorem powerOn_io_mode (s : State) : (powerOn s).io.mode = .unconf := rfl
@[simp] theorem powerOn_ce_mode (s : State) : (powerOn s).ce.mode = .unconf := rfl
@[simp] theorem powerOn_sr (s : State) : (powerOn s).sr = Config.freeSr s.draws := rfl
@[simp] theorem powerOn_bc (s : State) : (powerOn s).bc = BitVec.ofNat 4 (Config.freeBc s.draws).val := rfl
@[simp] theorem powerOn_tmr (s : State) : (powerOn s).tmr = Config.freeTmr s.draws := rfl
@[simp] theorem powerOn_ph (s : State) : (powerOn s).ph = .idle := rfl
@[simp] theorem powerOn_txn (s : State) : (powerOn s).txn = .none := rfl
@[simp] theorem powerOn_seq (s : State) : (powerOn s).seq = 0 := rfl
@[simp] theorem powerOn_busy (s : State) : (powerOn s).busy = false := rfl
@[simp] theorem powerOn_fault (s : State) : (powerOn s).fault = false := rfl
@[simp] theorem powerOn_cw (s : State) : (powerOn s).cw = Config.freeCw s.draws := rfl
@[simp] theorem powerOn_rw (s : State) : (powerOn s).rw = Config.freeRw s.draws := rfl
@[simp] theorem powerOn_trace (s : State) : (powerOn s).trace = [] := rfl
@[simp] theorem powerOn_periph (s : State) : (powerOn s).periph = s.periph := rfl
@[simp] theorem powerOn_lineFaults (s : State) : (powerOn s).lineFaults = s.lineFaults := rfl
@[simp] theorem powerOn_prims (s : State) : (powerOn s).prims = s.prims := rfl
@[simp] theorem powerOn_faultInfo (s : State) : (powerOn s).faultInfo = none := rfl
@[simp] theorem powerOn_draws (s : State) : (powerOn s).draws = s.draws + 3 := rfl
@[simp] theorem powerOn_pending (s : State) : (powerOn s).pending = s.pending := rfl

/-! ### `State.cutAt` and `resetAfter` -/

@[simp] theorem State.cutAt_cfg (s : State) (n : Nat) : (s.cutAt n).cfg = s.cfg := rfl
@[simp] theorem State.cutAt_clk (s : State) (n : Nat) : (s.cutAt n).clk = s.clk := rfl
@[simp] theorem State.cutAt_io (s : State) (n : Nat) : (s.cutAt n).io = s.io := rfl
@[simp] theorem State.cutAt_ce (s : State) (n : Nat) : (s.cutAt n).ce = s.ce := rfl
@[simp] theorem State.cutAt_sr (s : State) (n : Nat) : (s.cutAt n).sr = s.sr := rfl
@[simp] theorem State.cutAt_bc (s : State) (n : Nat) : (s.cutAt n).bc = s.bc := rfl
@[simp] theorem State.cutAt_tmr (s : State) (n : Nat) : (s.cutAt n).tmr = s.tmr := rfl
@[simp] theorem State.cutAt_ph (s : State) (n : Nat) : (s.cutAt n).ph = s.ph := rfl
@[simp] theorem State.cutAt_txn (s : State) (n : Nat) : (s.cutAt n).txn = s.txn := rfl
@[simp] theorem State.cutAt_seq (s : State) (n : Nat) : (s.cutAt n).seq = s.seq := rfl
@[simp] theorem State.cutAt_busy (s : State) (n : Nat) : (s.cutAt n).busy = s.busy := rfl
@[simp] theorem State.cutAt_fault (s : State) (n : Nat) : (s.cutAt n).fault = s.fault := rfl
@[simp] theorem State.cutAt_cw (s : State) (n : Nat) : (s.cutAt n).cw = s.cw := rfl
@[simp] theorem State.cutAt_rw (s : State) (n : Nat) : (s.cutAt n).rw = s.rw := rfl
@[simp] theorem State.cutAt_trace (s : State) (n : Nat) : (s.cutAt n).trace = s.trace := rfl
@[simp] theorem State.cutAt_periph (s : State) (n : Nat) : (s.cutAt n).periph = s.periph := rfl
@[simp] theorem State.cutAt_prims (s : State) (n : Nat) : (s.cutAt n).prims = s.prims := rfl
@[simp] theorem State.cutAt_faultInfo (s : State) (n : Nat) : (s.cutAt n).faultInfo = s.faultInfo := rfl
@[simp] theorem State.cutAt_draws (s : State) (n : Nat) : (s.cutAt n).draws = s.draws := rfl
@[simp] theorem State.cutAt_pending (s : State) (n : Nat) : (s.cutAt n).pending = s.pending := rfl
@[simp] theorem State.cutAt_lineFaults (s : State) (n : Nat) : (s.cutAt n).lineFaults = n :: s.lineFaults := rfl

/-- What a reset in the middle of an operation comes to. -/
theorem resetAfter_next {fs : List Nat} {o : Host.Outcome State Fault Refusal} {t : State} (h : resetAfter fs o = .next t) :
    ∃ u, o = .next u ∧ t = powerOn { u with lineFaults := fs } := by
  cases o with
  | next u => exact ⟨u, rfl, (Host.Outcome.next.inj h).symm⟩
  | fault f => cases h
  | refused r => cases h

end Sys2Proof.Machine
end

