-- ==== Sys2Proof/Laws/Run.lean ====
section
/-! SUPPORT. How the parts of an operation compose: `Plays` says at once what a part does when no primitive faults and
what it does when one faults (R253). -/

namespace Sys2Proof.Machine

@[simp] theorem Run.andThen_done {α β : Type} (a : α) (s : State) (f : α → State → Run β) :
    (Run.done a s).andThen f = f a s := rfl

@[simp] theorem Run.andThen_halted {α β : Type} (s : State) (f : α → State → Run β) :
    (Run.halted s : Run α).andThen f = .halted s := rfl

@[simp] theorem Run.andThen_refused {α β : Type} (r : Refusal) (f : α → State → Run β) :
    (Run.refused r : Run α).andThen f = .refused r := rfl

theorem Run.andThen_assoc {α β γ : Type} (m : Run α) (f : α → State → Run β) (g : β → State → Run γ) :
    (m.andThen f).andThen g = m.andThen fun a s => (f a s).andThen g := by
  cases m <;> rfl

/-- Inversion: a sequence is done only through a first part that is done. -/
theorem Run.andThen_eq_done {α β : Type} {m : Run α} {f : α → State → Run β} {b : β} {t : State}
    (h : m.andThen f = .done b t) : ∃ a s, m = .done a s ∧ f a s = .done b t := by
  cases m with
  | done a s => exact ⟨a, s, rfl, h⟩
  | halted s => simp at h
  | refused r => simp at h

/-- Inversion: a sequence halts in its first part or in its second. -/
theorem Run.andThen_eq_halted {α β : Type} {m : Run α} {f : α → State → Run β} {t : State}
    (h : m.andThen f = .halted t) : m = .halted t ∨ ∃ a s, m = .done a s ∧ f a s = .halted t := by
  cases m with
  | done a s => exact .inr ⟨a, s, rfl, h⟩
  | halted s => exact .inl (by simpa using h)
  | refused r => simp at h

@[simp] theorem finish_done (p : BitVec 56) (s : State) : finish (.done p s) = .next (respond p s) := rfl
@[simp] theorem finish_halted (s : State) : finish (.halted s) = .next s := rfl
@[simp] theorem finish_refused (r : Refusal) : finish (.refused r) = .refused r := rfl

/-- Inversion of `finish`. -/
theorem finish_eq_next {m : Run (BitVec 56)} {t : State} (h : finish m = .next t) :
    (∃ p s, m = .done p s ∧ t = respond p s) ∨ m = .halted t := by
  cases m with
  | done p s => simp only [finish_done, Host.Outcome.next.injEq] at h; exact .inl ⟨p, s, rfl, h.symm⟩
  | halted s => simp only [finish_halted, Host.Outcome.next.injEq] at h; exact .inr (by rw [h])
  | refused r => simp at h

/-! ### The premise that no primitive faults -/

theorem faultFree_mono {s : State} {m n : Nat} (h : faultFree s n) (hm : m ≤ n) : faultFree s m :=
  fun i hi => h i (Nat.lt_of_lt_of_le hi hm)

theorem faultFree_append {s t : State} {m n : Nat} (h : faultFree s (m + n)) (hp : t.prims = s.prims + m)
    (hl : t.lineFaults = s.lineFaults) : faultFree t n := by
  intro i hi
  rw [hp, hl, Nat.add_assoc]
  exact h (m + i) (by omega)

theorem faultFree_congr {s t : State} {n : Nat} (hp : t.prims = s.prims) (hl : t.lineFaults = s.lineFaults) :
    faultFree t n ↔ faultFree s n := by
  simp [faultFree, hp, hl]

theorem faultsNow_eq_false {s : State} {n : Nat} (h : faultFree s n) (hn : 0 < n) : faultsNow s = false := by
  have := h 0 hn
  simpa [faultsNow] using this

theorem faultsFirstAt_zero {s : State} : faultsFirstAt s 0 ↔ faultsNow s = true := by
  simp [faultsFirstAt, faultFree, faultsNow]

/-! ### Playing a list of events -/

/-- What a fault at the `j`-th event of `es` leaves (R251, R253). -/
structure FaultedAt (s : State) (es : List Event) (j : Nat) (e : Event) (t : State) : Prop where
  fault : t.fault = true
  busy : t.busy = true
  rw_word : t.rw = responseWord statusLineFault 0
  trace : t.trace = s.trace ++ es.take j
  info : t.faultInfo = some { line := (primitiveOf e).1, prim := (primitiveOf e).2, index := s.trace.length + j }

/-- From `s` the part `m` plays the events `es`, one primitive each: with no fault it is done with `a` in `s'`; if the
`j`-th primitive is the first that faults, it halts there. -/
structure Plays {α : Type} (s : State) (m : Run α) (es : List Event) (a : α) (s' : State) : Prop where
  runs : faultFree s es.length → m = .done a s'
  faults : ∀ j e, faultsFirstAt s j → es[j]? = some e → ∃ t, m = .halted t ∧ FaultedAt s es j e t
  prims : s'.prims = s.prims + es.length
  lineFaults : s'.lineFaults = s.lineFaults
  trace : s'.trace = s.trace ++ es

/-- A pure end of an operation. -/
theorem Plays.done {α : Type} {s t : State} (a : α) (hp : t.prims = s.prims) (hl : t.lineFaults = s.lineFaults)
    (ht : t.trace = s.trace) : Plays s (.done a t) [] a t where
  runs _ := rfl
  faults j e _ h := by simp at h
  prims := by simpa using hp
  lineFaults := hl
  trace := by simpa using ht

/-- The end of a sequence, with the end state in another form. -/
theorem Plays.ends {α : Type} {s t t' : State} (a : α) (he : t' = t) (hp : t'.prims = s.prims)
    (hl : t'.lineFaults = s.lineFaults) (ht : t'.trace = s.trace) : Plays s (.done a t') [] a t := by
  subst he; exact Plays.done a hp hl ht

/-- The start may be a state that agrees on the fault draws and the trace. -/
theorem Plays.of_start {α : Type} {s t : State} {m : Run α} {es : List Event} {a : α} {s' : State}
    (h : Plays t m es a s') (hp : t.prims = s.prims) (hl : t.lineFaults = s.lineFaults) (ht : t.trace = s.trace) :
    Plays s m es a s' where
  runs hf := h.runs ((faultFree_congr hp hl).2 hf)
  faults j e hj he := by
    obtain ⟨u, hu, h1, h2, h3, h4, h5⟩ := h.faults j e
      ⟨(faultFree_congr hp hl).2 hj.1, by rw [hp, hl]; exact hj.2⟩ he
    exact ⟨u, hu, h1, h2, h3, by rw [h4, ht], by rw [h5, ht]⟩
  prims := by rw [h.prims, hp]
  lineFaults := by rw [h.lineFaults, hl]
  trace := by rw [h.trace, ht]

/-- One part after another. -/
theorem Plays.andThen {α β : Type} {s s1 s2 : State} {m : Run α} {f : α → State → Run β} {es1 es2 : List Event}
    {a : α} {b : β} (h1 : Plays s m es1 a s1) (h2 : Plays s1 (f a s1) es2 b s2) :
    Plays s (m.andThen f) (es1 ++ es2) b s2 where
  runs hf := by
    rw [List.length_append] at hf
    rw [h1.runs (faultFree_mono hf (by omega)), Run.andThen_done]
    exact h2.runs (faultFree_append hf h1.prims h1.lineFaults)
  faults j e hj he := by
    by_cases hlt : j < es1.length
    · rw [List.getElem?_append_left hlt] at he
      obtain ⟨t, ht, g1, g2, g3, g4, g5⟩ := h1.faults j e hj he
      refine ⟨t, by rw [ht, Run.andThen_halted], g1, g2, g3, ?_, g5⟩
      rw [g4, List.take_append_of_le_length (Nat.le_of_lt hlt)]
    · rw [List.getElem?_append_right (by omega)] at he
      have hj1 : faultsFirstAt s1 (j - es1.length) := by
        refine ⟨?_, ?_⟩
        · apply faultFree_append (m := es1.length) _ h1.prims h1.lineFaults
          rw [Nat.add_sub_cancel' (by omega)]; exact hj.1
        · rw [h1.prims, h1.lineFaults, Nat.add_assoc, Nat.add_sub_cancel' (by omega)]; exact hj.2
      obtain ⟨t, ht, g1, g2, g3, g4, g5⟩ := h2.faults _ e hj1 he
      refine ⟨t, ?_, g1, g2, g3, ?_, ?_⟩
      · rw [h1.runs (faultFree_mono hj.1 (by omega)), Run.andThen_done, ht]
      · rw [g4, h1.trace, List.append_assoc, List.take_append,
          List.take_of_length_le (by omega : es1.length ≤ j)]
      · rw [g5, h1.trace, List.length_append]
        congr 2
        omega
  prims := by rw [h2.prims, h1.prims, List.length_append, Nat.add_assoc]
  lineFaults := by rw [h2.lineFaults, h1.lineFaults]
  trace := by rw [h2.trace, h1.trace, List.append_assoc]

/-- One part after another, where the first starts from a state that agrees with `s` on the fault draws and the trace. -/
theorem Plays.step {α β : Type} {s u s1 s2 : State} {m : Run α} {f : α → State → Run β} {es1 es2 : List Event}
    {a : α} {b : β} (h1 : Plays u m es1 a s1) (hp : u.prims = s.prims) (hl : u.lineFaults = s.lineFaults)
    (ht : u.trace = s.trace) (h2 : Plays s1 (f a s1) es2 b s2) : Plays s (m.andThen f) (es1 ++ es2) b s2 :=
  (h1.of_start hp hl ht).andThen h2

/-- The events, the result and the end may be written in another form. -/
theorem Plays.cast {α : Type} {s s' s'' : State} {m : Run α} {es es' : List Event} {a a' : α} (h : Plays s m es a s')
    (he : es = es') (ha : a = a') (hs : s' = s'') : Plays s m es' a' s'' := by
  subst he ha hs; exact h

/-- Of two premises one holds: no primitive faults, or some one of the next `n` is the first that does. -/
theorem faultFree_or_first (s : State) (n : Nat) : faultFree s n ∨ ∃ j, j < n ∧ faultsFirstAt s j := by
  induction n with
  | zero => exact .inl fun i hi => absurd hi (Nat.not_lt_zero i)
  | succ n ih =>
    rcases ih with h | ⟨j, hj, h⟩
    · by_cases hm : s.prims + n ∈ s.lineFaults
      · exact .inr ⟨n, Nat.lt_succ_self n, h, hm⟩
      · refine .inl fun i hi => ?_
        rcases Nat.lt_succ_iff_lt_or_eq.1 hi with hi | rfl
        · exact h i hi
        · exact hm
    · exact .inr ⟨j, Nat.lt_succ_of_lt hj, h⟩

/-- A part that is done has met no fault, and it is done as it plays. -/
theorem Plays.done_inv {α : Type} {s s' t : State} {m : Run α} {es : List Event} {a b : α} (h : Plays s m es a s')
    (hd : m = .done b t) : faultFree s es.length ∧ b = a ∧ t = s' := by
  rcases faultFree_or_first s es.length with hf | ⟨j, hj, hf⟩
  · have := (h.runs hf).symm.trans hd
    obtain ⟨rfl, rfl⟩ := Run.done.inj this
    exact ⟨hf, rfl, rfl⟩
  · obtain ⟨u, hu, -⟩ := h.faults j es[j] hf (List.getElem?_eq_getElem hj)
    rw [hd] at hu
    cases hu

/-- A result computed at the end. -/
theorem Plays.map {α β : Type} {s s' : State} {m : Run α} {es : List Event} {a : α} (h : Plays s m es a s') (b : β)
    (t : State) (hp : t.prims = s'.prims) (hl : t.lineFaults = s'.lineFaults) (ht : t.trace = s'.trace)
    {f : α → State → Run β} (hf : f a s' = .done b t) : Plays s (m.andThen f) es b t := by
  have := h.andThen (f := f) (es2 := []) (b := b) (s2 := t) (by rw [hf]; exact Plays.done b hp hl ht)
  simpa using this

/-- An attempt that is not faulted runs its body, and one that is takes the fault. -/
theorem Plays.attempt {α : Type} {s s' : State} {l : Option Line} {p : Primitive} {body : State → Run α} {e : Event}
    {a : α} (hprim : primitiveOf e = (l, p)) (h : body { s with prims := s.prims + 1 } = .done a s')
    (hp : s'.prims = s.prims + 1) (hl : s'.lineFaults = s.lineFaults) (ht : s'.trace = s.trace ++ [e]) :
    Plays s (attempt l p s body) [e] a s' where
  runs hf := by
    have := faultsNow_eq_false hf (by simp)
    simp [Machine.attempt, this, h]
  faults j e' hj he := by
    cases j with
    | zero =>
      rw [faultsFirstAt_zero] at hj
      simp only [List.getElem?_cons_zero, Option.some.injEq] at he
      subst he
      refine ⟨_, by simp only [Machine.attempt, hj]; rfl, rfl, rfl, rfl, ?_, ?_⟩
      · simp [enterLineFault]
      · simp [enterLineFault, hprim]
    | succ j => simp at he
  prims := hp
  lineFaults := hl
  trace := ht

end Sys2Proof.Machine
end

