-- ==== Sys2Proof/Laws/Prims.lean ====
section
/-! SUPPORT. One spec lemma per line primitive (R131 to R135): what it plays, and what it comes to when it is done. -/

namespace Sys2Proof.Machine

/-- The state after one completed primitive: its event, its count, the peripheral. -/
def State.afterPrim (s : State) (e : Event) (p : Periph) : State :=
  { s with prims := s.prims + 1, trace := s.trace ++ [e], periph := p }

/-- Only `Set` events of `CE` and rising edges concern a peripheral. -/
@[simp] theorem Periph.observe_cfg (l : Line) (d : Dir) (io ce : LineState) (p : Periph) :
    Periph.observe (.cfg l d) io ce p = .ok p := by cases p <;> rfl

@[simp] theorem Periph.observe_delay (d : BitVec 16) (io ce : LineState) (p : Periph) :
    Periph.observe (.delay d) io ce p = .ok p := by cases p <;> rfl

@[simp] theorem Periph.observe_io (b : Level) (io ce : LineState) (p : Periph) :
    Periph.observe (.set .io b) io ce p = .ok p := by cases p <;> rfl

@[simp] theorem Periph.observe_fall (io ce : LineState) (p : Periph) :
    Periph.observe (.set .clk false) io ce p = .ok p := by cases p <;> rfl

@[simp] theorem Periph.observe_unbound (e : Event) (io ce : LineState) :
    Periph.observe e io ce .unbound = .ok .unbound := rfl

@[simp] theorem Periph.observe_oracle (e : Event) (io ce : LineState) (o : Oracle) :
    Periph.observe e io ce (.oracle o) = .ok (.oracle o) := rfl

/-- A peripheral that refuses nothing is changed by no event but a sample. -/
theorem Periph.observe_of_refusesNothing {p : Periph} (h : p.refusesNothing = true) (e : Event) (io ce : LineState) :
    Periph.observe e io ce p = .ok p := by
  cases p with
  | unbound => rfl
  | store q => cases h
  | oracle o => rfl

theorem betweenFrames_of_refusesNothing {p : Periph} (h : p.refusesNothing = true) : betweenFrames p = true := by
  cases p with
  | unbound => rfl
  | store q => cases h
  | oracle o => rfl

theorem Periph.observe_lower (io ce : LineState) (p : Periph) :
    Periph.observe (.set .ce false) io ce p =
      if betweenFrames p then .ok p else .error .periphFrameCut := by
  cases p with
  | unbound => rfl
  | store q =>
    by_cases h : q.n = 0 ∨ q.n = 16
    · simp [Periph.observe, PStore.observe, betweenFrames, h]
    · simp [Periph.observe, PStore.observe, betweenFrames, h]
  | oracle o => rfl

/-! ### `Cfg` -/

/-- The state after `Cfg(l, out)`. -/
def State.cfgOut (s : State) (l : Line) : State :=
  { s.withLine l { mode := .out, level := Config.freeLevel s.draws s.trace } with
    prims := s.prims + 1, trace := s.trace ++ [.cfg l .out], draws := s.draws + 1 }

/-- The state after `Cfg(l, in)`. -/
def State.cfgIn (s : State) (l : Line) : State :=
  { s.withLine l { mode := .inp, level := (s.line l).level } with
    prims := s.prims + 1, trace := s.trace ++ [.cfg l .inp] }

theorem cfgLine_out (l : Line) (s : State) :
    cfgLine l .out s = attempt (some l) .configureLine s fun _ => .done () (s.cfgOut l) := by
  cases l <;> simp [cfgLine, attempt, emit, State.cfgOut, State.withLine]

theorem cfgLine_in (l : Line) (s : State) :
    cfgLine l .inp s = attempt (some l) .configureLine s fun _ => .done () (s.cfgIn l) := by
  cases l <;> simp [cfgLine, attempt, emit, State.cfgIn, State.withLine, State.line]

theorem cfgOut_plays (l : Line) (s : State) : Plays s (cfgLine l .out s) [.cfg l .out] () (s.cfgOut l) := by
  rw [cfgLine_out]
  exact Plays.attempt rfl rfl rfl (by simp [State.cfgOut]) rfl

theorem cfgIn_plays (l : Line) (s : State) : Plays s (cfgLine l .inp s) [.cfg l .inp] () (s.cfgIn l) := by
  rw [cfgLine_in]
  exact Plays.attempt rfl rfl rfl (by simp [State.cfgIn]) rfl

/-- Inversion of an attempt that is done. -/
theorem attempt_eq_done {α : Type} {l : Option Line} {p : Primitive} {s : State} {body : State → Run α} {a : α}
    {t : State} (h : attempt l p s body = .done a t) :
    faultsNow s = false ∧ body { s with prims := s.prims + 1 } = .done a t := by
  unfold attempt at h
  split at h
  · cases h
  · exact ⟨by simpa using ‹¬faultsNow s = true›, h⟩

theorem cfgOut_done {l : Line} {s t : State} {u : Unit} (h : cfgLine l .out s = .done u t) : t = s.cfgOut l := by
  rw [cfgLine_out] at h
  simpa using (attempt_eq_done h).2.symm

theorem cfgIn_done {l : Line} {s t : State} {u : Unit} (h : cfgLine l .inp s = .done u t) : t = s.cfgIn l := by
  rw [cfgLine_in] at h
  simpa using (attempt_eq_done h).2.symm

/-! ### `Set` -/

/-- The state after `Set(l, b)` with peripheral `p`. -/
def State.setTo (s : State) (l : Line) (b : Level) (p : Periph) : State :=
  { s.withLine l { mode := (s.line l).mode, level := b } with
    prims := s.prims + 1, trace := s.trace ++ [.set l b], periph := p }

theorem setLine_eq (l : Line) (b : Level) (s : State) :
    setLine l b s = attempt (some l) (setPrimitive b) s fun _ =>
      match Periph.observe (.set l b) s.io s.ce s.periph with
      | .ok p => .done () (s.setTo l b p)
      | .error r => .refused r := by
  simp only [setLine, attempt, emit]
  split
  · rfl
  · cases Periph.observe (.set l b) s.io s.ce s.periph with
    | ok p => cases l <;> rfl
    | error r => rfl

theorem setLine_plays {l : Line} {b : Level} {s : State} {p : Periph}
    (h : Periph.observe (.set l b) s.io s.ce s.periph = .ok p) :
    Plays s (setLine l b s) [.set l b] () (s.setTo l b p) := by
  rw [setLine_eq, h]
  exact Plays.attempt rfl rfl rfl (by simp [State.setTo]) rfl

theorem setLine_refused {l : Line} {b : Level} {s : State} {r : Refusal} (hf : faultFree s 1)
    (h : Periph.observe (.set l b) s.io s.ce s.periph = .error r) : setLine l b s = .refused r := by
  simp [setLine_eq, h, attempt, faultsNow_eq_false hf]

theorem setLine_done {l : Line} {b : Level} {s t : State} {u : Unit} (h : setLine l b s = .done u t) :
    ∃ p, Periph.observe (.set l b) s.io s.ce s.periph = .ok p ∧ t = s.setTo l b p := by
  rw [setLine_eq] at h
  have := (attempt_eq_done h).2
  cases ho : Periph.observe (.set l b) s.io s.ce s.periph with
  | ok p => rw [ho] at this; exact ⟨p, rfl, by simpa using this.symm⟩
  | error r => rw [ho] at this; cases this

/-! ### `Delay` -/

/-- The state after `Delay(d)`. -/
def State.slept (s : State) (d : BitVec 16) : State :=
  { s with tmr := 0, prims := s.prims + 1, trace := s.trace ++ [.delay d] }

theorem sleepMicros_eq (d : BitVec 16) (s : State) :
    sleepMicros d s = attempt none .sleepMicros s fun _ => .done () (s.slept d) := by
  simp [sleepMicros, attempt, emit, State.slept]

theorem sleep_plays (d : BitVec 16) (s : State) : Plays s (sleepMicros d s) [.delay d] () (s.slept d) := by
  rw [sleepMicros_eq]
  exact Plays.attempt rfl rfl rfl rfl rfl

theorem sleep_done {d : BitVec 16} {s t : State} {u : Unit} (h : sleepMicros d s = .done u t) : t = s.slept d := by
  rw [sleepMicros_eq] at h
  simpa using (attempt_eq_done h).2.symm

/-! ### `Sample` -/

/-- The state after `Sample(l) = b`, with peripheral `p` and `n` draws made. -/
def State.sampled (s : State) (l : Line) (b : Level) (p : Periph) (n : Nat) : State :=
  { s with periph := p, draws := s.draws + n, prims := s.prims + 1, trace := s.trace ++ [.sample l b] }

/-- What the peripheral answers to a sample taken now. -/
def State.sampleNow (s : State) : Except Refusal (Level × Periph × Nat) :=
  Periph.sample (Config.freeSample s.draws s.trace) s.trace s.io s.ce s.periph

theorem State.sampleNow_unbound {s : State} (h : s.periph = .unbound) :
    s.sampleNow = .ok (Config.freeSample s.draws s.trace, .unbound, 1) := by
  simp [State.sampleNow, Periph.sample, h]

theorem State.sampleNow_store {s : State} {p : PStore} (h : s.periph = .store p) :
    s.sampleNow =
      match PStore.answer s.io s.ce p with
      | .ok b => .ok (b, .store p, 0)
      | .error r => .error r :=
  congrArg (Periph.sample (Config.freeSample s.draws s.trace) s.trace s.io s.ce) h

theorem State.sampleNow_oracle {s : State} {o : Oracle} (h : s.periph = .oracle o) :
    s.sampleNow =
      match o.answer s.trace with
      | some (b, o') => .ok (b, .oracle o', 0)
      | none => .ok (Config.freeSample s.draws s.trace, .oracle o, 1) :=
  congrArg (Periph.sample (Config.freeSample s.draws s.trace) s.trace s.io s.ce) h

/-- A peripheral that refuses nothing answers every sample, with at most one draw, and refuses nothing afterwards; with
none bound the answer is a draw. -/
theorem State.sampleNow_of_refusesNothing {s : State} (h : s.periph.refusesNothing = true) :
    ∃ b p n, s.sampleNow = .ok (b, p, n) ∧ p.refusesNothing = true ∧ n ≤ 1 ∧
      (s.periph = .unbound → p = .unbound ∧ n = 1) := by
  cases hp : s.periph with
  | unbound => exact ⟨_, _, _, State.sampleNow_unbound hp, rfl, Nat.le_refl 1, fun _ => ⟨rfl, rfl⟩⟩
  | store q => rw [hp] at h; cases h
  | oracle o =>
    rw [State.sampleNow_oracle hp]
    cases o.answer s.trace with
    | some x => exact ⟨_, _, _, rfl, rfl, Nat.zero_le 1, fun e => by cases e⟩
    | none => exact ⟨_, _, _, rfl, rfl, Nat.le_refl 1, fun e => by cases e⟩

/-- An oracle made from a function answers as the function does after a listed trace, and stays the same. -/
theorem Oracle.answer_ofFunction {f : List Event → Level} {ts : List (List Event)} {t : List Event} (h : t ∈ ts) :
    (Oracle.ofFunction f ts).answer t = some (f t, Oracle.ofFunction f ts) := by
  have key : (ts.map fun t => (t, f t)).lookup t = some (f t) := by
    induction ts with
    | nil => cases h
    | cons u ts ih =>
      simp only [List.map_cons, List.lookup_cons]
      by_cases hu : t = u
      · simp [hu]
      · rw [beq_eq_false_iff_ne.2 hu]
        exact ih ((List.mem_cons.1 h).resolve_left hu)
  simp only [Oracle.answer, Oracle.ofFunction, key]

theorem sampleLine_eq (l : Line) (s : State) :
    sampleLine l s = attempt (some l) .readLevel s fun _ =>
      match s.sampleNow with
      | .ok (b, p, n) => .done b (s.sampled l b p n)
      | .error r => .refused r := rfl

theorem sample_plays (l : Line) {s : State} {b : Level} {p : Periph} {n : Nat} (h : s.sampleNow = .ok (b, p, n)) :
    Plays s (sampleLine l s) [.sample l b] b (s.sampled l b p n) := by
  rw [sampleLine_eq, h]
  exact Plays.attempt rfl rfl rfl rfl rfl

theorem sample_refused (l : Line) {s : State} {r : Refusal} (hf : faultFree s 1) (h : s.sampleNow = .error r) :
    sampleLine l s = .refused r := by
  simp [sampleLine_eq, h, attempt, faultsNow_eq_false hf]

theorem sample_done {l : Line} {s t : State} {b : Level} (h : sampleLine l s = .done b t) :
    ∃ p n, s.sampleNow = .ok (b, p, n) ∧ t = s.sampled l b p n := by
  rw [sampleLine_eq] at h
  have h2 := (attempt_eq_done h).2
  cases hs : s.sampleNow with
  | ok x =>
    obtain ⟨c, p, n⟩ := x
    simp only [hs, Run.done.injEq] at h2
    obtain ⟨rfl, rfl⟩ := h2
    exact ⟨p, n, rfl, rfl⟩
  | error r => simp [hs] at h2

end Sys2Proof.Machine
end

