-- ==== Sys2Proof/Laws/Cells.lean ====
section
/-! SUPPORT. One spec lemma per bit cell (R91) and per byte (R151, R153): what it plays, what it comes to when it is done,
and when `P_store` refuses it. -/

namespace Sys2Proof.Machine

/-! ### Cells -/

/-- The state after a write cell for `b` with peripheral `p`. -/
def State.cellWritten (s : State) (b : Level) (p : Periph) : State :=
  { s with io := ⟨s.io.mode, b⟩, clk := ⟨s.clk.mode, false⟩, tmr := 0, ph := .wLo, sr := shiftOut s.sr, bc := s.bc + 1,
           trace := s.trace ++ writeCellEvents b, prims := s.prims + 5, periph := p }

/-- The state after a read cell giving `b`, with peripheral `p` and `n` draws made. -/
def State.cellRead (s : State) (b : Level) (p : Periph) (n : Nat) : State :=
  { s with clk := ⟨s.clk.mode, false⟩, tmr := 0, ph := .rLo, sr := shiftIn s.sr b, bc := s.bc + 1,
           trace := s.trace ++ readCellEvents b, prims := s.prims + 5, periph := p, draws := s.draws + n }

theorem writeCell_plays {b : Level} {s : State} {p : Periph}
    (h : Periph.observe (.set .clk true) ⟨s.io.mode, b⟩ s.ce s.periph = .ok p) :
    Plays s (writeCell b s) (writeCellEvents b) () (s.cellWritten b p) := by
  unfold writeCell writeCellEvents
  refine Plays.step (setLine_plays (p := s.periph) (by simp)) rfl rfl rfl ?_
  refine Plays.step (setLine_plays (p := p) (by simpa [State.setTo, State.withLine, State.line] using h)) rfl rfl rfl ?_
  refine Plays.step (sleep_plays _ _) rfl rfl rfl ?_
  refine Plays.step (setLine_plays (p := p) (by simp [State.setTo, State.slept])) rfl rfl rfl ?_
  refine Plays.step (sleep_plays _ _) rfl rfl rfl ?_
  refine Plays.ends () ?_ rfl rfl rfl
  simp [State.cellWritten, State.setTo, State.slept, State.withLine, State.line, State.atPhase, State.loadTimer,
      State.endWriteCell, writeCellEvents]

theorem writeCell_refused {b : Level} {s : State} {r : Refusal} (hf : faultFree s 5)
    (h : Periph.observe (.set .clk true) ⟨s.io.mode, b⟩ s.ce s.periph = .error r) : writeCell b s = .refused r := by
  have h1 := setLine_plays (l := .io) (b := b) (s := s.atPhase .wData) (p := s.periph) (by simp)
  unfold writeCell
  rw [h1.runs ((faultFree_congr rfl rfl).2 (faultFree_mono hf (by simp))), Run.andThen_done,
    setLine_refused (s := ((s.atPhase .wData).setTo .io b s.periph).atPhase .wRise) (r := r)
      (faultFree_mono (faultFree_append (m := 1) (n := 4) hf rfl rfl) (by omega)),
    Run.andThen_refused]
  simpa [State.setTo, State.withLine, State.line] using h

theorem writeCell_done {b : Level} {s t : State} {u : Unit} (h : writeCell b s = .done u t) :
    ∃ p, Periph.observe (.set .clk true) ⟨s.io.mode, b⟩ s.ce s.periph = .ok p ∧ t = s.cellWritten b p := by
  unfold writeCell at h
  obtain ⟨_, s1, h1, h⟩ := Run.andThen_eq_done h
  obtain ⟨_, s2, h2, h⟩ := Run.andThen_eq_done h
  obtain ⟨_, s3, h3, h⟩ := Run.andThen_eq_done h
  obtain ⟨_, s4, h4, h⟩ := Run.andThen_eq_done h
  obtain ⟨_, s5, h5, h⟩ := Run.andThen_eq_done h
  obtain ⟨p1, hp1, rfl⟩ := setLine_done h1
  obtain ⟨p2, hp2, rfl⟩ := setLine_done h2
  obtain rfl := sleep_done h3
  obtain ⟨p4, hp4, rfl⟩ := setLine_done h4
  obtain rfl := sleep_done h5
  simp only [Run.done.injEq, true_and] at h
  simp only [Periph.observe_io, Except.ok.injEq, State.atPhase_periph] at hp1
  subst hp1
  refine ⟨p2, by simpa [State.setTo, State.withLine, State.line] using hp2, ?_⟩
  simp only [Periph.observe_fall, Except.ok.injEq] at hp4
  subst hp4
  rw [← h]
  simp [State.cellWritten, State.setTo, State.slept, State.withLine, State.line, State.atPhase, State.loadTimer,
    State.endWriteCell, writeCellEvents]

/-- A read cell: the peripheral sees the rising edge (`p1`), the sample is answered after the delay (`b`, `p2`, `n`). -/
theorem readCell_plays {s : State} {b : Level} {p1 p2 : Periph} {n : Nat}
    (hc : Periph.observe (.set .clk true) s.io s.ce s.periph = .ok p1)
    (hb : Periph.sample (Config.freeSample s.draws (s.trace ++ [.set .clk true, .delay Config.delayUs]))
      (s.trace ++ [.set .clk true, .delay Config.delayUs]) s.io s.ce p1 = .ok (b, p2, n)) :
    Plays s (readCell s) (readCellEvents b) b (s.cellRead b p2 n) := by
  unfold readCell readCellEvents
  refine Plays.step (setLine_plays (s := s.atPhase .rRise) (p := p1) hc) rfl rfl rfl ?_
  refine Plays.step (sleep_plays _ _) rfl rfl rfl ?_
  refine Plays.step (sample_plays .io (b := b) (p := p2) (n := n) ?_) rfl rfl rfl ?_
  · simpa [State.sampleNow, State.setTo, State.slept, State.withLine] using hb
  refine Plays.step (setLine_plays (p := p2) (by simp [State.setTo, State.slept, State.sampled])) rfl rfl rfl ?_
  refine Plays.step (sleep_plays _ _) rfl rfl rfl ?_
  refine Plays.ends _ ?_ rfl rfl rfl
  simp [State.cellRead, State.setTo, State.slept, State.sampled, State.withLine, State.line, State.atPhase,
      State.loadTimer, State.shiftSample, State.endReadCell, readCellEvents]

/-- A read cell against `P_store`: the clock edge counts, then the sample is answered. -/
theorem readCell_plays_store {s : State} {p q : PStore} {b : Level} (h : s.periph = .store p)
    (hc : PStore.observe (.set .clk true) s.io s.ce p = .ok q) (hb : PStore.answer s.io s.ce q = .ok b) :
    Plays s (readCell s) (readCellEvents b) b (s.cellRead b (.store q) 0) :=
  readCell_plays (p1 := .store q) (by simp [h, Periph.observe, hc]) (by simp [Periph.sample, hb])

/-- A read cell of a peripheral that refuses nothing is answered; with none bound, by one draw. -/
theorem readCell_plays_free {s : State} (h : s.periph.refusesNothing = true) :
    ∃ b p n, Plays s (readCell s) (readCellEvents b) b (s.cellRead b p n) ∧ p.refusesNothing = true ∧ n ≤ 1 ∧
      (s.periph = .unbound → p = .unbound ∧ n = 1) := by
  obtain ⟨b, p, n, hs, hp⟩ := State.sampleNow_of_refusesNothing
    (s := { s with trace := s.trace ++ [.set .clk true, .delay Config.delayUs] }) h
  exact ⟨b, p, n, readCell_plays (Periph.observe_of_refusesNothing h _ _ _) hs, hp⟩

/-- A read cell that the oracle follows. -/
theorem readCell_plays_oracle {s : State} {o o' : Oracle} {b : Level} (h : s.periph = .oracle o)
    (hf : o.follows s.trace (readCellEvents b) = some o') :
    Plays s (readCell s) (readCellEvents b) b (s.cellRead b (.oracle o') 0) := by
  refine readCell_plays (p1 := .oracle o) (by simp [h]) ?_
  simp only [readCellEvents, Oracle.follows, List.append_assoc, List.singleton_append] at hf
  cases ha : o.answer (s.trace ++ [.set .clk true, .delay Config.delayUs]) with
  | none => simp [ha] at hf
  | some x =>
    obtain ⟨c, o1⟩ := x
    simp only [ha] at hf
    split at hf
    · rename_i hc
      simp only [Option.some.injEq] at hf
      simp [Periph.sample, ha, hc, hf]
    · cases hf

theorem readCell_refused {s : State} {p q : PStore} {r : Refusal} (hf : faultFree s 5) (h : s.periph = .store p)
    (hc : PStore.observe (.set .clk true) s.io s.ce p = .ok q) (hb : PStore.answer s.io s.ce q = .error r) :
    readCell s = .refused r := by
  have h1 := (setLine_plays (l := .clk) (b := true) (s := s.atPhase .rRise) (p := .store q)
    (by simp [h, Periph.observe, hc])).of_start (s := s) rfl rfl rfl
  have h2 := h1.andThen (f := fun _ s => sleepMicros Config.delayUs (s.loadTimer.atPhase .rHi))
    ((sleep_plays _ _).of_start rfl rfl rfl)
  have e := h2.runs (faultFree_mono hf (by simp))
  unfold readCell
  rw [← Run.andThen_assoc, e, Run.andThen_done, sample_refused (r := r) .io, Run.andThen_refused]
  · exact faultFree_mono (faultFree_append (m := 2) (n := 3) hf rfl rfl) (by omega)
  · rw [State.sampleNow_store (p := q) (by simp [State.setTo, State.slept])]
    rw [show PStore.answer _ _ q = .error r by simpa [State.setTo, State.slept, State.withLine] using hb]

theorem readCell_done {s t : State} {b : Level} (h : readCell s = .done b t) :
    ∃ p n, t = s.cellRead b p n := by
  unfold readCell at h
  obtain ⟨_, s1, h1, h⟩ := Run.andThen_eq_done h
  obtain ⟨_, s2, h2, h⟩ := Run.andThen_eq_done h
  obtain ⟨_, s3, h3, h⟩ := Run.andThen_eq_done h
  obtain ⟨_, s4, h4, h⟩ := Run.andThen_eq_done h
  obtain ⟨_, s5, h5, h⟩ := Run.andThen_eq_done h
  obtain ⟨p1, -, rfl⟩ := setLine_done h1
  obtain rfl := sleep_done h2
  obtain ⟨p3, n, -, rfl⟩ := sample_done h3
  obtain ⟨p4, -, rfl⟩ := setLine_done h4
  obtain rfl := sleep_done h5
  simp only [Run.done.injEq] at h
  obtain ⟨rfl, rfl⟩ := h
  refine ⟨p4, n, ?_⟩
  simp [State.cellRead, State.setTo, State.slept, State.sampled, State.withLine, State.line, State.atPhase,
    State.loadTimer, State.shiftSample, State.endReadCell, readCellEvents]

end Sys2Proof.Machine
end

