-- ==== Sys2Proof/Laws/Bits.lean ====
section
/-! SUPPORT. Facts about the bits of a byte: `P_store` assembles the bits it is clocked (R73), the shift register runs out
and fills (R158, R159), and the bits of a byte determine it (R63). -/

namespace Sys2Proof.Machine

/-- What `putBit` does to each bit. -/
theorem getLsbD_putBit (b : Byte) (i j : Nat) (v : Level) (hi : i < 8) (hj : j < 8) :
    (putBit b i v).getLsbD j = if j = i then v else b.getLsbD j := by
  have key : ∀ j : Fin 8, ∀ i : Fin 8, ((1#8 <<< i.val).getLsbD j.val) = decide (j.val = i.val) := by decide
  have h1 := key ⟨j, hj⟩ ⟨i, hi⟩
  simp only at h1
  unfold putBit
  rw [BitVec.getLsbD_or, BitVec.getLsbD_and, BitVec.getLsbD_not, h1]
  cases v
  · by_cases h : j = i <;> simp [h, hj]
  · by_cases h : j = i <;> simp [-BitVec.getLsbD_eq_getElem, h1, h, hj, hi]

/-- A byte whose eight bits are put one after another over any byte is that byte. -/
theorem putBit_bits (c v : Byte) :
    putBit (putBit (putBit (putBit (putBit (putBit (putBit (putBit c 0 (v.getLsbD 0)) 1 (v.getLsbD 1)) 2 (v.getLsbD 2))
      3 (v.getLsbD 3)) 4 (v.getLsbD 4)) 5 (v.getLsbD 5)) 6 (v.getLsbD 6)) 7 (v.getLsbD 7) = v := by
  apply BitVec.eq_of_getLsbD_eq
  intro j hj
  have : j = 0 ∨ j = 1 ∨ j = 2 ∨ j = 3 ∨ j = 4 ∨ j = 5 ∨ j = 6 ∨ j = 7 := by omega
  rcases this with rfl | rfl | rfl | rfl | rfl | rfl | rfl | rfl <;>
    simp only [getLsbD_putBit, Nat.reduceLT, Nat.reduceEqDiff, if_true, if_false]

/-- The byte whose bits, least significant first, are the eight levels (R99). -/
def byteOf (b0 b1 b2 b3 b4 b5 b6 b7 : Level) : Byte :=
  orBit (orBit (orBit (orBit (orBit (orBit (orBit (orBit 0 0 b0) 1 b1) 2 b2) 3 b3) 4 b4) 5 b5) 6 b6) 7 b7

/-- The bits of the byte assembled from eight samples are the samples. -/
theorem bitsOf_byteOf : ∀ b0 b1 b2 b3 b4 b5 b6 b7 : Level,
    bitsOf (byteOf b0 b1 b2 b3 b4 b5 b6 b7) = [b0, b1, b2, b3, b4, b5, b6, b7] := by
  decide +kernel

/-- The shift register ends at the byte assembled from the samples (R159). -/
theorem shiftIn_samples : ∀ b0 b1 b2 b3 b4 b5 b6 b7 : Level,
    shiftIn (shiftIn (shiftIn (shiftIn (shiftIn (shiftIn (shiftIn (shiftIn 0 b0) b1) b2) b3) b4) b5) b6) b7 =
      byteOf b0 b1 b2 b3 b4 b5 b6 b7 := by
  decide +kernel

/-- Eight shifts empty the register (R158). -/
theorem shiftOut_eight (v : Byte) :
    shiftOut (shiftOut (shiftOut (shiftOut (shiftOut (shiftOut (shiftOut (shiftOut v))))))) = 0 := by
  simp only [shiftOut, ← BitVec.shiftRight_add]
  apply BitVec.eq_of_getLsbD_eq
  intro j hj
  simp

/-- A byte is assembled from its own bits. -/
theorem byteOf_bits (v : Byte) :
    byteOf (v.getLsbD 0) (v.getLsbD 1) (v.getLsbD 2) (v.getLsbD 3) (v.getLsbD 4) (v.getLsbD 5) (v.getLsbD 6)
      (v.getLsbD 7) = v := by
  revert v
  decide +kernel

/-! ### Clocking bits into the peripheral -/

/-- The peripheral after the rising edges of write cells for the bits in the list. -/
def clockBits : List Level → LineState → Periph → Except Refusal Periph
  | [], _, p => .ok p
  | b :: bs, ce, p =>
    match Periph.observe (.set .clk true) ⟨.out, b⟩ ce p with
    | .ok p => clockBits bs ce p
    | .error r => .error r

/-- A peripheral that refuses nothing is not changed by edges. -/
theorem clockBits_of_refusesNothing {p : Periph} (h : p.refusesNothing = true) (bs : List Level) (ce : LineState) :
    clockBits bs ce p = .ok p := by
  induction bs with
  | nil => rfl
  | cons b bs ih => simp only [clockBits, Periph.observe_of_refusesNothing h, ih]

/-- The first byte of a frame becomes the command (R73). -/
theorem clockBits_command (v : Byte) {ce : LineState} {p : PStore} (hc : ce.level = true) (hn : p.n = 0) :
    clockBits (bitsOf v) ce (.store p) = .ok (.store { p with cmd := v, n := 8 }) := by
  have := putBit_bits p.cmd v
  simp [-BitVec.getLsbD_eq_getElem, clockBits, bitsOf, Periph.observe, PStore.observe, PStore.clock, hc, hn, this]

/-- The second byte of a write frame is stored in the command's row (R73). -/
theorem clockBits_data (v : Byte) {ce : LineState} {p : PStore} {k : Nat} (hc : ce.level = true) (hn : p.n = 8)
    (hd : p.cmd.getLsbD 0 = false) (hk : rowOf p.cmd = some k) :
    clockBits (bitsOf v) ce (.store p) =
      .ok (.store { p with dat := v, n := 16, store := Memory.write p.store k v }) := by
  have := putBit_bits p.dat v
  simp [-BitVec.getLsbD_eq_getElem, clockBits, bitsOf, Periph.observe, PStore.observe, PStore.clock, hc, hn, hd, hk,
    this]

/-- In a read frame the second byte is only counted (R73). -/
theorem clockBits_readFrame (v : Byte) {ce : LineState} {p : PStore} (hc : ce.level = true) (hn : p.n = 8)
    (hd : p.cmd.getLsbD 0 = true) :
    clockBits (bitsOf v) ce (.store p) = .ok (.store { p with n := 16 }) := by
  simp [-BitVec.getLsbD_eq_getElem, clockBits, bitsOf, Periph.observe, PStore.observe, PStore.clock, hc, hn, hd]

/-- A seventeenth edge is refused (R73). -/
theorem clockBits_full (v : Byte) {ce : LineState} {p : PStore} (hc : ce.level = true) (hn : 16 ≤ p.n) :
    clockBits (bitsOf v) ce (.store p) = .error .periphSeventeenthPulse := by
  have h8 : ¬ p.n < 8 := by omega
  have h16 : ¬ p.n < 16 := by omega
  simp [clockBits, bitsOf, Periph.observe, PStore.observe, PStore.clock, hc, h8, h16]

end Sys2Proof.Machine
end

