-- ==== Sys2Proof/Laws/Bytes.lean ====
section
/-! SUPPORT. One spec lemma per byte of the transport (R151, R153): what it plays, what it comes to when it is done, and
when `P_store` refuses it. -/

namespace Sys2Proof.Machine

/-! ### Write cells -/

/-- The state after write cells for the bits in the list, with peripheral `p`. -/
def State.cellsWritten : List Level → Periph → State → State
  | [], p, s => { s with periph := p }
  | b :: bs, p, s => State.cellsWritten bs p (s.cellWritten b p)

theorem State.cellsWritten_periph (bs : List Level) (p q : Periph) (s : State) :
    State.cellsWritten bs p { s with periph := q } = State.cellsWritten bs p s := by
  cases bs <;> rfl

theorem State.cellsWritten_cell (bs : List Level) (p q : Periph) (b : Level) (s : State) :
    State.cellsWritten bs p (s.cellWritten b q) = State.cellsWritten (b :: bs) p s := by
  cases bs <;> rfl

theorem writeCells_plays {bs : List Level} {s : State} {p : Periph} (hm : s.io.mode = .out)
    (h : clockBits bs s.ce s.periph = .ok p) :
    Plays s (writeCells bs s) (bs.flatMap writeCellEvents) () (State.cellsWritten bs p s) := by
  induction bs generalizing s with
  | nil =>
    simp only [clockBits, Except.ok.injEq] at h
    subst h
    exact Plays.done () rfl rfl rfl
  | cons b bs ih =>
    simp only [clockBits] at h
    split at h
    · rename_i q hq
      simp only [writeCells, List.flatMap_cons]
      refine Plays.andThen (writeCell_plays (p := q) (by rw [hm]; exact hq)) ?_
      rw [← State.cellsWritten_cell bs p q b s]
      exact ih hm h
    · cases h

theorem writeCells_refused {bs : List Level} {s : State} {r : Refusal} (hf : faultFree s (5 * bs.length))
    (hm : s.io.mode = .out) (h : clockBits bs s.ce s.periph = .error r) : writeCells bs s = .refused r := by
  induction bs generalizing s with
  | nil => simp [clockBits] at h
  | cons b bs ih =>
    simp only [clockBits] at h
    simp only [List.length_cons] at hf
    split at h
    · rename_i q hq
      have h1 := writeCell_plays (b := b) (s := s) (p := q) (by rw [hm]; exact hq)
      simp only [writeCells]
      rw [h1.runs (faultFree_mono hf (by simp [writeCellEvents])), Run.andThen_done]
      refine ih (faultFree_append (m := 5) (n := 5 * bs.length) ?_ rfl rfl) hm h
      rwa [show 5 + 5 * bs.length = 5 * (bs.length + 1) by omega]
    · rename_i r' hr
      simp only [Except.error.injEq] at h
      subst h
      simp only [writeCells]
      rw [writeCell_refused (r := r') (faultFree_mono hf (by omega)) (by rw [hm]; exact hr), Run.andThen_refused]

theorem writeCells_done {bs : List Level} {s t : State} {u : Unit} (hm : s.io.mode = .out)
    (h : writeCells bs s = .done u t) :
    ∃ p, clockBits bs s.ce s.periph = .ok p ∧ t = State.cellsWritten bs p s := by
  induction bs generalizing s with
  | nil =>
    simp only [writeCells, Run.done.injEq, true_and] at h
    exact ⟨s.periph, rfl, by rw [← h]; rfl⟩
  | cons b bs ih =>
    simp only [writeCells] at h
    obtain ⟨_, s1, h1, h2⟩ := Run.andThen_eq_done h
    obtain ⟨q, hq, rfl⟩ := writeCell_done h1
    obtain ⟨p, hp, rfl⟩ := ih (by exact hm) h2
    rw [hm] at hq
    refine ⟨p, ?_, State.cellsWritten_cell bs p q b s⟩
    simp only [clockBits, hq]
    exact hp

/-! ### WRBYTE -/

/-- The state after WRBYTE `v` with peripheral `p`. -/
def State.byteWritten (s : State) (v : Byte) (p : Periph) : State :=
  { s with io := ⟨.out, v.getLsbD 7⟩, clk := ⟨s.clk.mode, false⟩, sr := 0, bc := 8, tmr := 0, ph := .idle,
           trace := s.trace ++ writeByteEvents v, prims := s.prims + 41, draws := s.draws + 1, periph := p }

/-- `Cfg(IO, out)` and eight write cells come to `byteWritten`. -/
theorem State.cellsWritten_byte (s : State) (v : Byte) (p : Periph) :
    (State.cellsWritten (bitsOf v) p ((s.loadWrite v).cfgOut .io)).atPhase .idle = s.byteWritten v p := by
  have h := shiftOut_eight v
  simp [-BitVec.getLsbD_eq_getElem, bitsOf, State.cellsWritten, State.cellWritten, State.cfgOut, State.withLine,
    State.loadWrite, State.atPhase, State.byteWritten, writeByteEvents, h]

theorem writeByte_plays {v : Byte} {s : State} {p : Periph} (h : clockBits (bitsOf v) s.ce s.periph = .ok p) :
    Plays s (writeByte v s) (writeByteEvents v) () (s.byteWritten v p) := by
  unfold writeByte writeByteEvents
  refine Plays.step (es1 := [.cfg .io .out]) (cfgOut_plays _ _) rfl rfl rfl ?_
  refine (writeCells_plays (s := (s.loadWrite v).cfgOut .io) (p := p) rfl h).map () (s.byteWritten v p) ?_ ?_ ?_ ?_
  · rw [← State.cellsWritten_byte]; rfl
  · rw [← State.cellsWritten_byte]; rfl
  · rw [← State.cellsWritten_byte]; rfl
  · rw [State.cellsWritten_byte]

theorem writeByte_refused {v : Byte} {s : State} {r : Refusal} (hf : faultFree s 41)
    (h : clockBits (bitsOf v) s.ce s.periph = .error r) : writeByte v s = .refused r := by
  have h1 := (cfgOut_plays .io (s.loadWrite v)).of_start (s := s) rfl rfl rfl
  unfold writeByte
  rw [h1.runs (faultFree_mono hf (by simp)), Run.andThen_done,
    writeCells_refused (s := (s.loadWrite v).cfgOut .io) (bs := bitsOf v) (r := r)
      (faultFree_append (m := 1) (n := 40) hf rfl rfl) rfl h, Run.andThen_refused]

theorem writeByte_done {v : Byte} {s t : State} {u : Unit} (h : writeByte v s = .done u t) :
    ∃ p, clockBits (bitsOf v) s.ce s.periph = .ok p ∧ t = s.byteWritten v p := by
  unfold writeByte at h
  obtain ⟨_, s1, h1, h⟩ := Run.andThen_eq_done h
  obtain ⟨_, s2, h2, h⟩ := Run.andThen_eq_done h
  obtain rfl := cfgOut_done h1
  obtain ⟨p, hp, rfl⟩ := writeCells_done rfl h2
  simp only [Run.done.injEq, true_and] at h
  exact ⟨p, hp, by rw [← h, State.cellsWritten_byte]⟩

/-! ### Read cells -/

/-- The state after read cells giving the bits in the list, with peripheral `p` and `n` draws made. -/
def State.cellsRead : List Level → Periph → Nat → State → State
  | [], p, n, s => { s with periph := p, draws := s.draws + n }
  | b :: bs, p, n, s => State.cellsRead bs p n (s.cellRead b p 0)

theorem State.cellsRead_cell (bs : List Level) (p q : Periph) (n m : Nat) (b : Level) (s : State) :
    State.cellsRead bs p n (s.cellRead b q m) = State.cellsRead (b :: bs) p (m + n) s := by
  induction bs generalizing s b q m with
  | nil => simp [State.cellsRead, State.cellRead, Nat.add_assoc]
  | cons c bs ih =>
    have h : (s.cellRead b q m).cellRead c p 0 = (s.cellRead b p 0).cellRead c p m := by simp [State.cellRead]
    have e := ih p m c (s.cellRead b p 0)
    rw [← h] at e
    exact e

/-- The byte assembled from samples taken at the bit numbers in the list (R153). -/
def assemble : List Nat → List Level → Byte → Byte
  | i :: is, b :: bs, r => assemble is bs (orBit r i b)
  | _, _, r => r

theorem readCells_plays_free (is : List Nat) {r : Byte} {s : State} (h : s.periph.refusesNothing = true) :
    ∃ bs p n, bs.length = is.length ∧
      Plays s (readCells is r s) (bs.flatMap readCellEvents) (assemble is bs r) (State.cellsRead bs p n s) ∧
      p.refusesNothing = true ∧ n ≤ is.length ∧ (s.periph = .unbound → p = .unbound ∧ n = is.length) := by
  induction is generalizing r s with
  | nil => exact ⟨[], s.periph, 0, rfl, Plays.ends _ rfl rfl rfl rfl, h, Nat.le_refl 0, fun e => ⟨e, rfl⟩⟩
  | cons i is ih =>
    obtain ⟨b, q, m, h1, hq, hm, hu⟩ := readCell_plays_free h
    obtain ⟨bs, p, n, hl, h2, hp, hn, hv⟩ := ih (r := orBit r i b) (s := s.cellRead b q m) hq
    refine ⟨b :: bs, p, m + n, by simp [hl], ?_, hp, by simp only [List.length_cons]; omega, fun e => ?_⟩
    · simp only [readCells, List.flatMap_cons, assemble]
      exact (h1.andThen h2).cast rfl rfl (State.cellsRead_cell bs p q n m b s)
    · obtain ⟨g1, g2⟩ := hv (hu e).1
      refine ⟨g1, ?_⟩
      rw [(hu e).2, g2, List.length_cons, Nat.add_comm]

/-- What an oracle follows, it follows part by part. -/
theorem Oracle.follows_append (es1 es2 : List Event) {o o' : Oracle} {t : List Event} :
    o.follows t (es1 ++ es2) = some o' ↔ ∃ o1, o.follows t es1 = some o1 ∧ o1.follows (t ++ es1) es2 = some o' := by
  induction es1 generalizing o t with
  | nil => simp [Oracle.follows]
  | cons e es1 ih =>
    cases e with
    | sample l b =>
      simp only [List.cons_append, Oracle.follows]
      cases o.answer t with
      | none => simp
      | some x =>
        obtain ⟨c, o1⟩ := x
        dsimp only
        split
        · rw [ih]; simp
        · simp
    | cfg l d => simp only [List.cons_append, Oracle.follows]; rw [ih]; simp
    | set l b => simp only [List.cons_append, Oracle.follows]; rw [ih]; simp
    | delay d => simp only [List.cons_append, Oracle.follows]; rw [ih]; simp

/-- A byte that is sent asks the oracle nothing. -/
theorem Oracle.follows_writeByte (o : Oracle) (t : List Event) (v : Byte) : o.follows t (writeByteEvents v) = some o := rfl

theorem readCells_plays_oracle {is : List Nat} {bs : List Level} {r : Byte} {s : State} {o o' : Oracle}
    (hl : bs.length = is.length) (h : s.periph = .oracle o)
    (hf : o.follows s.trace (bs.flatMap readCellEvents) = some o') :
    Plays s (readCells is r s) (bs.flatMap readCellEvents) (assemble is bs r) (State.cellsRead bs (.oracle o') 0 s) := by
  induction is generalizing bs r s o with
  | nil =>
    obtain rfl := List.length_eq_zero_iff.1 hl
    simp only [List.flatMap_nil, Oracle.follows, Option.some.injEq] at hf
    exact Plays.ends _ (by simp [State.cellsRead, ← h, ← hf]) rfl rfl rfl
  | cons i is ih =>
    match bs, hl with
    | b :: bs, hl =>
      rw [List.flatMap_cons] at hf
      obtain ⟨o1, h1, h2⟩ := (Oracle.follows_append _ _).1 hf
      have g1 := readCell_plays_oracle h h1
      have g2 := ih (bs := bs) (r := orBit r i b) (s := s.cellRead b (.oracle o1) 0) (by simpa using hl) rfl h2
      simp only [readCells, List.flatMap_cons, assemble]
      exact (g1.andThen g2).cast rfl rfl (State.cellsRead_cell bs (.oracle o') (.oracle o1) 0 0 b s)

/-- A rising edge of a read cell (R73): it is counted and nothing else. -/
theorem PStore.observe_readEdge {io ce : LineState} {p : PStore} (hc : ce.level = true) (hd : p.cmd.getLsbD 0 = true)
    (h8 : 8 ≤ p.n) (h16 : p.n < 16) :
    PStore.observe (.set .clk true) io ce p = .ok { p with n := p.n + 1 } := by
  have : ¬ p.n < 8 := by omega
  simp only [PStore.observe, PStore.clock, hc, if_true, this, if_false, h16, hd]

/-- The answer of a read cell (R73): bit `n-9` of the stored byte. -/
theorem PStore.answer_readCell {io ce : LineState} {p : PStore} {k : Nat} (hm : io.mode = .inp)
    (hc : ce.level = true) (hd : p.cmd.getLsbD 0 = true) (hk : rowOf p.cmd = some k)
    (h9 : 9 ≤ p.n) (h16 : p.n ≤ 16) :
    PStore.answer io ce p =
      match Memory.read p.store k with
      | some v => .ok (v.getLsbD (p.n - 9))
      | none => .error .periphUnwritten := by
  cases h : Memory.read p.store k <;> simp [PStore.answer, hm, hc, hd, hk, h9, h16, h]

theorem readCells_plays_store {p : PStore} {k : Nat} {v : Byte} (m : Nat) : ∀ {i : Nat} {r : Byte} {s : State},
    i + m = 8 → s.periph = .store { p with n := 8 + i } → s.io.mode = .inp → s.ce.level = true →
    p.cmd.getLsbD 0 = true → rowOf p.cmd = some k → Memory.read p.store k = some v →
    Plays s (readCells (List.range' i m) r s) ((List.range' i m).flatMap fun i => readCellEvents (v.getLsbD i))
      (assemble (List.range' i m) ((List.range' i m).map v.getLsbD) r)
      (State.cellsRead ((List.range' i m).map v.getLsbD) (.store { p with n := 16 }) 0 s) := by
  induction m with
  | zero =>
    intro i r s hi hp _ _ _ _ _
    obtain rfl : i = 8 := by omega
    exact Plays.ends _ (by simp [State.cellsRead, ← hp]) rfl rfl rfl
  | succ m ih =>
    intro i r s hi hp hm hc hd hk hv
    have h1 := readCell_plays_store (s := s) (p := { p with n := 8 + i }) (q := { p with n := 8 + i + 1 })
      (b := v.getLsbD i) hp (PStore.observe_readEdge hc hd (Nat.le_add_right _ _) (by change 8 + i < 16; omega))
      (by
        rw [PStore.answer_readCell (p := { p with n := 8 + i + 1 }) (k := k) hm hc hd hk (by change 9 ≤ 8 + i + 1; omega)
          (by change 8 + i + 1 ≤ 16; omega)]
        simp only [hv]
        rw [show 8 + i + 1 - 9 = i by omega])
    have h2 := ih (i := i + 1) (r := orBit r i (v.getLsbD i))
      (s := s.cellRead (v.getLsbD i) (.store { p with n := 8 + i + 1 }) 0) (by omega) rfl hm hc hd hk hv
    simp only [List.range'_succ, readCells, List.flatMap_cons, List.map_cons, assemble]
    refine (h1.andThen h2).cast rfl rfl ?_
    rw [State.cellsRead_cell]

theorem readCells_done {is : List Nat} {r a : Byte} {s t : State} (h : readCells is r s = .done a t) :
    ∃ bs p n, bs.length = is.length ∧ a = assemble is bs r ∧ t = State.cellsRead bs p n s := by
  induction is generalizing r s with
  | nil =>
    simp only [readCells, Run.done.injEq] at h
    exact ⟨[], s.periph, 0, rfl, h.1.symm, by rw [← h.2]; rfl⟩
  | cons i is ih =>
    simp only [readCells] at h
    obtain ⟨b, s1, h1, h2⟩ := Run.andThen_eq_done h
    obtain ⟨q, m, rfl⟩ := readCell_done h1
    obtain ⟨bs, p, n, hl, ha, rfl⟩ := ih h2
    exact ⟨b :: bs, p, m + n, by simp [hl], ha, State.cellsRead_cell bs p q n m b s⟩

/-! ### RDBYTE -/

/-- The state after an RDBYTE that returned `r`, with peripheral `p` and `n` draws made. -/
def State.byteRead (s : State) (r : Byte) (p : Periph) (n : Nat) : State :=
  { s with io := ⟨.inp, s.io.level⟩, clk := ⟨s.clk.mode, false⟩, sr := r, bc := 8, tmr := 0, ph := .idle,
           trace := s.trace ++ readByteEvents r, prims := s.prims + 41, draws := s.draws + n, periph := p }

/-- `Cfg(IO, in)` and eight read cells come to `byteRead`. -/
theorem State.cellsRead_byte (s : State) (p : Periph) (n : Nat) {bs : List Level} (h : bs.length = 8) :
    (State.cellsRead bs p n (s.loadRead.cfgIn .io)).atPhase .idle =
      s.byteRead (assemble [0, 1, 2, 3, 4, 5, 6, 7] bs 0) p n := by
  match bs, h with
  | [b0, b1, b2, b3, b4, b5, b6, b7], _ =>
    have h1 := shiftIn_samples b0 b1 b2 b3 b4 b5 b6 b7
    have h2 := bitsOf_byteOf b0 b1 b2 b3 b4 b5 b6 b7
    rw [show assemble [0, 1, 2, 3, 4, 5, 6, 7] [b0, b1, b2, b3, b4, b5, b6, b7] 0 = byteOf b0 b1 b2 b3 b4 b5 b6 b7
      from rfl]
    simp [-BitVec.getLsbD_eq_getElem, State.cellsRead, State.cellRead, State.cfgIn, State.withLine, State.line,
      State.loadRead, State.atPhase, State.byteRead, readByteEvents, h2]
    exact h1

/-- The events of eight read cells, by the byte assembled from them. -/
theorem readByteEvents_assemble {bs : List Level} (h : bs.length = 8) :
    readByteEvents (assemble [0, 1, 2, 3, 4, 5, 6, 7] bs 0) = [.cfg .io .inp] ++ bs.flatMap readCellEvents := by
  match bs, h with
  | [b0, b1, b2, b3, b4, b5, b6, b7], _ =>
    rw [show assemble [0, 1, 2, 3, 4, 5, 6, 7] [b0, b1, b2, b3, b4, b5, b6, b7] 0 = byteOf b0 b1 b2 b3 b4 b5 b6 b7
      from rfl, readByteEvents, bitsOf_byteOf]
    rfl

/-- RDBYTE, given what its cells play. -/
theorem readByte_plays {s : State} {bs : List Level} {p : Periph} {n : Nat} (hl : bs.length = 8)
    (h : Plays (s.loadRead.cfgIn .io) (readCells [0, 1, 2, 3, 4, 5, 6, 7] 0 (s.loadRead.cfgIn .io))
      (bs.flatMap readCellEvents) (assemble [0, 1, 2, 3, 4, 5, 6, 7] bs 0)
      (State.cellsRead bs p n (s.loadRead.cfgIn .io))) :
    Plays s (readByte s) (readByteEvents (assemble [0, 1, 2, 3, 4, 5, 6, 7] bs 0))
      (assemble [0, 1, 2, 3, 4, 5, 6, 7] bs 0) (s.byteRead (assemble [0, 1, 2, 3, 4, 5, 6, 7] bs 0) p n) := by
  rw [readByteEvents_assemble hl]
  unfold readByte
  refine Plays.step (cfgIn_plays _ _) rfl rfl rfl ?_
  have e := State.cellsRead_byte s p n hl
  refine h.map _ _ ?_ ?_ ?_ ?_
  · rw [← e]; rfl
  · rw [← e]; rfl
  · rw [← e]; rfl
  · rw [← e]

theorem readByte_plays_free {s : State} (h : s.periph.refusesNothing = true) :
    ∃ r p n, Plays s (readByte s) (readByteEvents r) r (s.byteRead r p n) ∧ p.refusesNothing = true ∧ n ≤ 8 ∧
      (s.periph = .unbound → p = .unbound ∧ n = 8) := by
  obtain ⟨bs, p, n, hl, h2, hp⟩ := readCells_plays_free [0, 1, 2, 3, 4, 5, 6, 7] (r := 0) (s := s.loadRead.cfgIn .io)
    (by exact h)
  exact ⟨_, p, n, readByte_plays hl h2, hp⟩

theorem readByte_plays_oracle {s : State} {o o' : Oracle} {r : Byte} (h : s.periph = .oracle o)
    (hf : o.follows s.trace (readByteEvents r) = some o') :
    Plays s (readByte s) (readByteEvents r) r (s.byteRead r (.oracle o') 0) := by
  have ha : assemble [0, 1, 2, 3, 4, 5, 6, 7] (bitsOf r) 0 = r := byteOf_bits r
  have h2 := readByte_plays (s := s) (bs := bitsOf r) rfl
    (readCells_plays_oracle (is := [0, 1, 2, 3, 4, 5, 6, 7]) (r := 0) (s := s.loadRead.cfgIn .io) (o := o) (o' := o')
      rfl h (by exact hf))
  rwa [ha] at h2

theorem readByte_plays_store {s : State} {p : PStore} {k : Nat} {v : Byte} (hp : s.periph = .store p) (hn : p.n = 8)
    (hc : s.ce.level = true) (hd : p.cmd.getLsbD 0 = true) (hk : rowOf p.cmd = some k)
    (hv : Memory.read p.store k = some v) :
    Plays s (readByte s) (readByteEvents v) v (s.byteRead v (.store { p with n := 16 }) 0) := by
  have h2 := readCells_plays_store (p := p) (k := k) (v := v) 8 (i := 0) (r := 0) (s := s.loadRead.cfgIn .io) rfl
    (by change s.periph = _; rw [hp]; cases p; subst hn; rfl) rfl hc hd hk hv
  have ha : assemble [0, 1, 2, 3, 4, 5, 6, 7] (bitsOf v) 0 = v := byteOf_bits v
  have h3 := readByte_plays (s := s) (bs := bitsOf v) rfl h2
  rwa [ha] at h3

theorem readByte_done {s t : State} {r : Byte} (h : readByte s = .done r t) :
    ∃ p n, t = s.byteRead r p n := by
  unfold readByte at h
  obtain ⟨_, s1, h1, h⟩ := Run.andThen_eq_done h
  obtain ⟨_, s2, h2, h⟩ := Run.andThen_eq_done h
  obtain rfl := cfgIn_done h1
  obtain ⟨bs, p, n, hl, rfl, rfl⟩ := readCells_done h2
  simp only [Run.done.injEq] at h
  refine ⟨p, n, ?_⟩
  rw [← h.2, State.cellsRead_byte s p n hl, h.1]

/-- A read cell of a read frame on an unwritten row is refused (R72). -/
theorem readByte_unwritten {s : State} {p : PStore} {k : Nat} (hf : faultFree s 41) (hp : s.periph = .store p)
    (hn : p.n = 8) (hc : s.ce.level = true) (hd : p.cmd.getLsbD 0 = true) (hk : rowOf p.cmd = some k)
    (hv : Memory.read p.store k = none) : readByte s = .refused .periphUnwritten := by
  have h1 := (cfgIn_plays .io s.loadRead).of_start (s := s) rfl rfl rfl
  unfold readByte
  rw [h1.runs (faultFree_mono hf (by simp)), Run.andThen_done]
  simp only [readCells]
  rw [readCell_refused (s := s.loadRead.cfgIn .io) (p := p) (q := { p with n := p.n + 1 }) (r := .periphUnwritten)
    (faultFree_mono (faultFree_append (m := 1) (n := 40) hf rfl rfl) (by omega)) hp
    (PStore.observe_readEdge hc hd (by omega) (by omega)), Run.andThen_refused, Run.andThen_refused]
  rw [PStore.answer_readCell (io := (s.loadRead.cfgIn .io).io) (ce := (s.loadRead.cfgIn .io).ce)
    (p := { p with n := p.n + 1 }) (k := k) rfl hc hd hk (by change 9 ≤ p.n + 1; omega) (by change p.n + 1 ≤ 16; omega)]
  simp only [hv]

end Sys2Proof.Machine
end

