-- ==== Sys2Proof/Laws/Memory.lean ====
section
/-! SUPPORT. The laws of the peripheral's register space (R60, R72): a read after a write, and the canonical form. -/

namespace Sys2Proof.Machine

/-- What a write does to every row, itself and the others. -/
theorem Memory.read_write (m : Memory) (k j : Nat) (v : Byte) :
    Memory.read (Memory.write m k v) j = if j = k then some v else Memory.read m j := by
  induction m with
  | nil =>
    by_cases h : j = k
    · simp [Memory.write, Memory.read, h]
    · simp [Memory.write, Memory.read, h, Ne.symm h]
  | cons c m ih =>
    obtain ⟨a, b⟩ := c
    simp only [Memory.write]
    split
    · by_cases h : j = k
      · simp [Memory.read, h]
      · simp [Memory.read, h, Ne.symm h]
    · split
      · rename_i _ e
        rw [← e]
        by_cases h : j = k
        · simp [Memory.read, h]
        · simp [Memory.read, h, Ne.symm h]
      · by_cases h : a = j
        · subst h
          have : ¬ a = k := fun e => by simp_all
          simp [Memory.read, this]
        · simp [Memory.read, h, ih]

theorem Memory.read_write_same (m : Memory) (k : Nat) (v : Byte) : Memory.read (Memory.write m k v) k = some v := by
  simp [Memory.read_write]

theorem Memory.read_write_other (m : Memory) {k j : Nat} (v : Byte) (h : j ≠ k) :
    Memory.read (Memory.write m k v) j = Memory.read m j := by
  simp [Memory.read_write, h]

/-- A write keeps the rows strictly rising. -/
theorem Memory.risingFrom_write {m : Memory} {lo k : Nat} (v : Byte) (h : Memory.risingFrom lo m = true) (hk : lo ≤ k) :
    Memory.risingFrom lo (Memory.write m k v) = true := by
  induction m generalizing lo with
  | nil => simp [Memory.write, Memory.risingFrom, hk]
  | cons c m ih =>
    obtain ⟨a, b⟩ := c
    simp only [Memory.risingFrom, Bool.and_eq_true, decide_eq_true_eq] at h
    simp only [Memory.write]
    split
    · simp only [Memory.risingFrom, Bool.and_eq_true, decide_eq_true_eq]
      exact ⟨hk, by omega, h.2⟩
    · split
      · rename_i _ e
        rw [← e] at h
        simp only [Memory.risingFrom, Bool.and_eq_true, decide_eq_true_eq]
        exact h
      · simp only [Memory.risingFrom, Bool.and_eq_true, decide_eq_true_eq]
        exact ⟨h.1, ih h.2 (by omega)⟩

/-- A write adds no row but its own. -/
theorem Memory.all_write {m : Memory} {k : Nat} (v : Byte) (P : Host.Cell → Bool)
    (h : m.all P = true) (hk : P (k, v) = true) : (Memory.write m k v).all P = true := by
  induction m with
  | nil => simp [Memory.write, hk]
  | cons c m ih =>
    obtain ⟨a, b⟩ := c
    simp only [List.all_cons, Bool.and_eq_true] at h
    simp only [Memory.write]
    split
    · simp [h, hk]
    · split
      · simp [h, hk]
      · simp [h.1, ih h.2]

/-- Every write of a row of the map keeps the canonical form. -/
theorem Memory.wf_write {m : Memory} {k : Nat} (v : Byte) (h : Memory.wf m = true) (hk : k < 8) :
    Memory.wf (Memory.write m k v) = true := by
  simp only [Memory.wf, Bool.and_eq_true] at h ⊢
  exact ⟨Memory.risingFrom_write v h.1 (Nat.zero_le _), Memory.all_write v _ h.2 (by simpa using hk)⟩

/-- A row found by the table is a row of the map. -/
theorem rowOf_lt {b : Byte} {k : Nat} (h : rowOf b = some k) : k < 8 := by
  simp only [rowOf, Option.map_eq_some_iff] at h
  obtain ⟨r, hr, rfl⟩ := h
  have := List.mem_of_find?_eq_some hr
  simp only [addrTable, List.mem_cons, List.not_mem_nil, or_false] at this
  rcases this with rfl | rfl | rfl | rfl | rfl | rfl | rfl | rfl <;> decide

end Sys2Proof.Machine
end

