-- ==== Sys2Proof/Laws/Transactions.lean ====
section
/-! SUPPORT. One spec lemma per transaction (R183, R184) and per facade sequence (R221, R224, R227). -/

namespace Sys2Proof.Machine

/-! ### The literal table -/

/-- A write address selects a row and has bit 0 clear (R61, R93). -/
theorem isWriteAddr_row {a : Byte} (h : isWriteAddr a = true) :
    a.getLsbD 0 = false ∧ ∃ k, rowOf a = some k := by
  have : ∀ a : Byte, isWriteAddr a = true → a.getLsbD 0 = false ∧ (rowOf a).isSome = true := by decide +kernel
  exact ⟨(this a h).1, Option.isSome_iff_exists.1 (this a h).2⟩

/-- A read address selects a row and has bit 0 set (R61, R93). -/
theorem isReadAddr_row {a : Byte} (h : isReadAddr a = true) :
    a.getLsbD 0 = true ∧ ∃ k, rowOf a = some k := by
  have : ∀ a : Byte, isReadAddr a = true → a.getLsbD 0 = true ∧ (rowOf a).isSome = true := by decide +kernel
  exact ⟨(this a h).1, Option.isSome_iff_exists.1 (this a h).2⟩

/-! ### The peripheral through a frame -/

/-- The peripheral after `Set(CE, 1)` (R73). -/
def Periph.raised : Periph → Periph
  | .unbound => .unbound
  | .store p => .store { p with n := 0 }
  | .oracle o => .oracle o

/-- The peripheral after a write frame with a write address `a` (R72, R73). -/
def Periph.framed (a v : Byte) : Periph → Periph
  | .unbound => .unbound
  | .store p =>
    match rowOf a with
    | some k => .store { store := Memory.write p.store k v, n := 16, cmd := a, dat := v }
    | none => .store p
  | .oracle o => .oracle o

/-- A peripheral that refuses nothing is as it was after a write frame. -/
theorem Periph.framed_of_refusesNothing {p : Periph} (h : p.refusesNothing = true) (a v : Byte) : p.framed a v = p := by
  cases p with
  | unbound => rfl
  | store q => cases h
  | oracle o => rfl

theorem Periph.observe_raised (io ce : LineState) (p : Periph) :
    Periph.observe (.set .ce true) io ce p = .ok p.raised := by
  cases p <;> rfl

/-- The peripheral once the address byte of a frame has been sent. -/
def Periph.commanded (a : Byte) : Periph → Periph
  | .unbound => .unbound
  | .store p => .store { p with n := 8, cmd := a }
  | .oracle o => .oracle o

theorem Periph.commanded_of_refusesNothing {p : Periph} (h : p.refusesNothing = true) (a : Byte) : p.commanded a = p := by
  cases p with
  | unbound => rfl
  | store q => cases h
  | oracle o => rfl

theorem clockBits_address (a : Byte) {ce : LineState} (hc : ce.level = true) (p : Periph) :
    clockBits (bitsOf a) ce p.raised = .ok (p.commanded a) := by
  cases p with
  | unbound => exact clockBits_of_refusesNothing rfl _ _
  | store p => exact clockBits_command a hc rfl
  | oracle o => exact clockBits_of_refusesNothing rfl _ _

theorem clockBits_dataByte {a : Byte} (v : Byte) {ce : LineState} (hc : ce.level = true) (h : isWriteAddr a = true)
    (p : Periph) : clockBits (bitsOf v) ce (p.commanded a) = .ok (p.framed a v) := by
  cases p with
  | unbound => exact clockBits_of_refusesNothing rfl _ _
  | store p =>
    obtain ⟨hd, k, hk⟩ := isWriteAddr_row h
    simp only [Periph.framed, hk]
    exact clockBits_data v hc rfl hd hk
  | oracle o => exact clockBits_of_refusesNothing rfl _ _

theorem betweenFrames_framed {a v : Byte} (h : isWriteAddr a = true) (p : Periph) :
    betweenFrames (p.framed a v) = true := by
  cases p with
  | unbound => rfl
  | store p =>
    obtain ⟨_, k, hk⟩ := isWriteAddr_row h
    simp [Periph.framed, hk, betweenFrames]
  | oracle o => rfl

/-! ### WRREG -/

/-- The state after a write frame, with peripheral `p`. -/
def State.frameWritten (s : State) (a v : Byte) (p : Periph) : State :=
  { s with ce := ⟨s.ce.mode, false⟩, io := ⟨.out, v.getLsbD 7⟩, clk := ⟨s.clk.mode, false⟩, sr := 0, bc := 8, tmr := 0,
           ph := .idle, txn := .none, trace := s.trace ++ writeFrame a v, prims := s.prims + 84, draws := s.draws + 2,
           periph := p }

/-- A write transaction plays its frame, whatever is wired. -/
theorem writeRegister_plays {a : Byte} (v : Byte) (h : isWriteAddr a = true) (s : State) :
    Plays s (writeRegister a v s) (writeFrame a v) () (s.frameWritten a v (s.periph.framed a v)) := by
  rw [show writeFrame a v = [.set .ce true] ++ (writeByteEvents a ++ (writeByteEvents v ++ ([.set .ce false] ++ [])))
    by simp [writeFrame]]
  unfold writeRegister
  refine Plays.step (setLine_plays (p := s.periph.raised) (Periph.observe_raised _ _ _)) rfl rfl rfl ?_
  refine Plays.step (writeByte_plays (p := s.periph.commanded a) (clockBits_address a rfl s.periph)) rfl rfl rfl ?_
  refine Plays.step (writeByte_plays (p := s.periph.framed a v) (clockBits_dataByte v rfl h s.periph)) rfl rfl rfl ?_
  refine Plays.step (setLine_plays (p := s.periph.framed a v) ?_) rfl rfl rfl ?_
  · rw [Periph.observe_lower]
    exact if_pos (betweenFrames_framed h s.periph)
  refine Plays.ends () ?_ rfl rfl rfl
  simp [State.frameWritten, State.setTo, State.byteWritten, State.withLine, State.line, State.atTxn, writeFrame]

theorem writeRegister_done {a v : Byte} {s t : State} {u : Unit} (h : isWriteAddr a = true)
    (hd : writeRegister a v s = .done u t) : t = s.frameWritten a v (s.periph.framed a v) := by
  unfold writeRegister at hd
  obtain ⟨_, s1, h1, hd⟩ := Run.andThen_eq_done hd
  obtain ⟨_, s2, h2, hd⟩ := Run.andThen_eq_done hd
  obtain ⟨_, s3, h3, hd⟩ := Run.andThen_eq_done hd
  obtain ⟨_, s4, h4, hd⟩ := Run.andThen_eq_done hd
  obtain ⟨p1, hp1, rfl⟩ := setLine_done h1
  rw [Periph.observe_raised, Except.ok.injEq] at hp1
  subst hp1
  obtain ⟨p2, hp2, rfl⟩ := writeByte_done h2
  have e2 := (clockBits_address a (ce := ⟨s.ce.mode, true⟩) rfl s.periph).symm.trans hp2
  rw [Except.ok.injEq] at e2
  subst e2
  obtain ⟨p3, hp3, rfl⟩ := writeByte_done h3
  have e3 := (clockBits_dataByte v (ce := ⟨s.ce.mode, true⟩) rfl h s.periph).symm.trans hp3
  rw [Except.ok.injEq] at e3
  subst e3
  obtain ⟨p4, hp4, rfl⟩ := setLine_done h4
  have e4 : p4 = s.periph.framed a v := by
    rw [Periph.observe_lower] at hp4
    exact (Except.ok.inj (hp4.symm.trans (if_pos (betweenFrames_framed h s.periph))))
  subst e4
  simp only [Run.done.injEq, true_and] at hd
  rw [← hd]
  simp [State.frameWritten, State.setTo, State.byteWritten, State.withLine, State.line, State.atTxn, writeFrame]

/-! ### RDREG -/

/-- The state after a read frame that returned `r`, with peripheral `p` and `n` samples drawn. -/
def State.frameRead (s : State) (a r : Byte) (p : Periph) (n : Nat) : State :=
  { s with ce := ⟨s.ce.mode, false⟩, io := ⟨.inp, a.getLsbD 7⟩, clk := ⟨s.clk.mode, false⟩, sr := r, bc := 8, tmr := 0,
           ph := .idle, txn := .none, trace := s.trace ++ readFrame a r, prims := s.prims + 84,
           draws := s.draws + (1 + n), periph := p }

@[simp] theorem State.frameRead_draws (s : State) (a r : Byte) (p : Periph) (n : Nat) :
    (s.frameRead a r p n).draws = s.draws + (1 + n) := rfl

@[simp] theorem State.frameRead_trace (s : State) (a r : Byte) (p : Periph) (n : Nat) :
    (s.frameRead a r p n).trace = s.trace ++ readFrame a r := rfl

/-- The state before the data byte of a read transaction. -/
def State.addressed (s : State) (a : Byte) : State :=
  ((((s.atTxn .ceHi).setTo .ce true s.periph.raised).atTxn .addr).byteWritten a (s.periph.commanded a)).atTxn .data

/-- The parts of a read transaction, given what its data byte plays. -/
theorem readRegister_plays {a r : Byte} {s : State} {p : Periph} {n : Nat}
    (h : Plays (s.addressed a) (readByte (s.addressed a)) (readByteEvents r) r ((s.addressed a).byteRead r p n))
    (hb : betweenFrames p = true) :
    Plays s (readRegister a s) (readFrame a r) r (s.frameRead a r p n) := by
  rw [show readFrame a r = [.set .ce true] ++ (writeByteEvents a ++ (readByteEvents r ++ ([.set .ce false] ++ [])))
    by simp [readFrame]]
  unfold readRegister
  refine Plays.step (setLine_plays (p := s.periph.raised) (Periph.observe_raised _ _ _)) rfl rfl rfl ?_
  refine Plays.step (writeByte_plays (p := s.periph.commanded a) (clockBits_address a rfl s.periph)) rfl rfl rfl ?_
  refine Plays.step (u := s.addressed a) h rfl rfl rfl ?_
  refine Plays.step (setLine_plays (p := p) ?_) rfl rfl rfl ?_
  · rw [Periph.observe_lower]
    exact if_pos hb
  refine Plays.ends r ?_ rfl rfl rfl
  simp [State.frameRead, State.addressed, State.setTo, State.byteWritten, State.byteRead, State.withLine, State.line,
    State.atTxn, readFrame, Nat.add_assoc]

theorem readRegister_plays_free {s : State} (a : Byte) (h : s.periph.refusesNothing = true) :
    ∃ r p n, Plays s (readRegister a s) (readFrame a r) r (s.frameRead a r p n) ∧ p.refusesNothing = true ∧ n ≤ 8 ∧
      (s.periph = .unbound → p = .unbound ∧ n = 8) := by
  have hc := Periph.commanded_of_refusesNothing h a
  obtain ⟨r, p, n, hr, hp, hn, hu⟩ := readByte_plays_free (s := s.addressed a)
    (by change (s.periph.commanded a).refusesNothing = true; rw [hc]; exact h)
  exact ⟨r, p, n, readRegister_plays hr (betweenFrames_of_refusesNothing hp), hp, hn,
    fun e => hu (by change s.periph.commanded a = .unbound; rw [hc]; exact e)⟩

theorem readRegister_plays_oracle {s : State} {a r : Byte} {o o' : Oracle} (h : s.periph = .oracle o)
    (hf : o.follows s.trace (readFrame a r) = some o') :
    Plays s (readRegister a s) (readFrame a r) r (s.frameRead a r (.oracle o') 0) := by
  rw [show readFrame a r = ([.set .ce true] ++ writeByteEvents a) ++ (readByteEvents r ++ [.set .ce false])
    by simp [readFrame]] at hf
  obtain ⟨o1, h1, h2⟩ := (Oracle.follows_append _ _).1 hf
  obtain rfl : o = o1 := Option.some.inj h1
  obtain ⟨o2, h3, h4⟩ := (Oracle.follows_append _ _).1 h2
  obtain rfl : o2 = o' := Option.some.inj h4
  refine readRegister_plays (readByte_plays_oracle (o := o) ?_ ?_) rfl
  · change s.periph.commanded a = .oracle o
    rw [h]
    rfl
  · rw [show (s.addressed a).trace = s.trace ++ ([.set .ce true] ++ writeByteEvents a) by
      simp [State.addressed, State.setTo, State.byteWritten]]
    exact h3

theorem readRegister_plays_store {s : State} {a r : Byte} {p : PStore} {k : Nat} (h : isReadAddr a = true)
    (hp : s.periph = .store p) (hk : rowOf a = some k) (hr : Memory.read p.store k = some r) :
    Plays s (readRegister a s) (readFrame a r) r (s.frameRead a r (.store { p with n := 16, cmd := a }) 0) := by
  refine readRegister_plays (readByte_plays_store (p := { p with n := 8, cmd := a }) ?_ rfl rfl (isReadAddr_row h).1 hk hr)
    rfl
  change s.periph.commanded a = _
  rw [hp]
  rfl

theorem readRegister_unwritten {s : State} {a : Byte} {p : PStore} {k : Nat} (hf : faultFree s 84)
    (h : isReadAddr a = true) (hp : s.periph = .store p) (hk : rowOf a = some k) (hr : Memory.read p.store k = none) :
    readRegister a s = .refused .periphUnwritten := by
  have h1 := (setLine_plays (l := .ce) (b := true) (s := s.atTxn .ceHi) (p := s.periph.raised)
    (Periph.observe_raised _ _ _)).of_start (s := s) rfl rfl rfl
  have h2 := writeByte_plays (v := a) (s := ((s.atTxn .ceHi).setTo .ce true s.periph.raised).atTxn .addr)
    (p := s.periph.commanded a) (clockBits_address a rfl s.periph)
  have f1 : faultFree (((s.atTxn .ceHi).setTo .ce true s.periph.raised).atTxn .addr) 83 :=
    faultFree_append (m := 1) (n := 83) hf rfl rfl
  have h3 := readByte_unwritten (s := s.addressed a) (p := { p with n := 8, cmd := a }) (k := k)
    (faultFree_mono (faultFree_append (m := 41) (n := 42) f1 rfl rfl) (by omega))
    (by simp [State.addressed, State.byteWritten, hp, Periph.commanded]) rfl rfl (isReadAddr_row h).1 hk hr
  unfold State.addressed at h3
  unfold readRegister
  rw [h1.runs (faultFree_mono hf (by simp)), Run.andThen_done, h2.runs (faultFree_mono f1 (by
      rw [show (writeByteEvents a).length = 41 by rfl]; omega)), Run.andThen_done, h3, Run.andThen_refused]

theorem readRegister_done {a r : Byte} {s t : State} (h : readRegister a s = .done r t) :
    ∃ p n, t = s.frameRead a r p n := by
  unfold readRegister at h
  obtain ⟨_, s1, h1, h⟩ := Run.andThen_eq_done h
  obtain ⟨_, s2, h2, h⟩ := Run.andThen_eq_done h
  obtain ⟨r', s3, h3, h⟩ := Run.andThen_eq_done h
  obtain ⟨_, s4, h4, h⟩ := Run.andThen_eq_done h
  obtain ⟨p1, -, rfl⟩ := setLine_done h1
  obtain ⟨p2, -, rfl⟩ := writeByte_done h2
  obtain ⟨p3, n, rfl⟩ := readByte_done h3
  obtain ⟨p4, -, rfl⟩ := setLine_done h4
  simp only [Run.done.injEq] at h
  obtain ⟨rfl, rfl⟩ := h
  refine ⟨p4, n, ?_⟩
  simp [State.frameRead, State.setTo, State.byteWritten, State.byteRead, State.withLine, State.line, State.atTxn,
    readFrame, Nat.add_assoc]

/-! ### Facade sequences -/

/-- The state after the write transactions of a list of pairs. -/
def State.stepsWritten : BitVec 4 → List (Byte × Byte) → State → State
  | _, [], s => s
  | k, (a, v) :: ps, s => State.stepsWritten (k + 1) ps ((s.atSeq k).frameWritten a v (s.periph.framed a v))

theorem writeSteps_plays {ps : List (Byte × Byte)} (h : ∀ q ∈ ps, isWriteAddr q.1 = true) (k : BitVec 4) (s : State) :
    Plays s (writeSteps k ps s) (writeFrames ps) () (State.stepsWritten k ps s) := by
  induction ps generalizing k s with
  | nil => exact Plays.done () rfl rfl rfl
  | cons q ps ih =>
    obtain ⟨a, v⟩ := q
    have ha : isWriteAddr a = true := h (a, v) List.mem_cons_self
    simp only [writeSteps, writeFrames, List.flatMap_cons]
    exact Plays.step (writeRegister_plays v ha (s.atSeq k)) rfl rfl rfl
      (ih (fun q hq => h q (List.mem_cons_of_mem _ hq)) (k + 1) _)

theorem writeSteps_done {ps : List (Byte × Byte)} (h : ∀ q ∈ ps, isWriteAddr q.1 = true) {k : BitVec 4} {s t : State}
    {u : Unit} (hd : writeSteps k ps s = .done u t) : t = State.stepsWritten k ps s := by
  induction ps generalizing k s with
  | nil => simpa [writeSteps, State.stepsWritten] using hd.symm
  | cons q ps ih =>
    obtain ⟨a, v⟩ := q
    simp only [writeSteps] at hd
    obtain ⟨_, s1, h1, h2⟩ := Run.andThen_eq_done hd
    have ha : isWriteAddr a = true := h (a, v) List.mem_cons_self
    obtain rfl := writeRegister_done ha h1
    exact ih (fun q hq => h q (List.mem_cons_of_mem _ hq)) h2

/-- The addresses of SETTIME are write addresses (R224). -/
theorem setTimePairs_write (t : TimeValue) : ∀ q ∈ setTimePairs t, isWriteAddr q.1 = true := by
  simp [setTimePairs, isWriteAddr, addrTable]

/-- The state after the read transactions of a list of addresses that returned `rs`, with `n` draws and peripheral `p`. -/
def State.stepsRead : BitVec 4 → List Byte → List Byte → Periph → Nat → State → State
  | k, a :: as, r :: rs, p, n, s => State.stepsRead (k + 1) as rs p n ((s.atSeq k).frameRead a r p n)
  | _, _, _, _, _, s => s

/-- The state with its peripheral and its count of draws written over. -/
def State.withSamples (s : State) (q : Periph) (x : Nat) : State := { s with periph := q, draws := x }

/-- A read frame leaves the same but for the peripheral and the draws, whatever those were before it. -/
theorem State.frameRead_withSamples (k : BitVec 4) (a r : Byte) (p : Periph) (n : Nat) (q : Periph) (x : Nat) (s : State) :
    ((s.atSeq k).frameRead a r p n).withSamples q x = (((s.withSamples q x).atSeq k).frameRead a r p n).withSamples q x :=
  rfl

theorem readFrames_cons (q : Byte × Byte) (qs : List (Byte × Byte)) :
    readFrames (q :: qs) = readFrame q.1 q.2 ++ readFrames qs := rfl

/-- The peripheral and the draws of the start do not show once both are written over. -/
theorem State.stepsRead_congr (as rs : List Byte) (k : BitVec 4) (q : Periph) (x : Nat) {s t : State}
    (h : s.withSamples q x = t.withSamples q x) :
    (State.stepsRead k as rs .unbound 0 s).withSamples q x = (State.stepsRead k as rs .unbound 0 t).withSamples q x := by
  induction as generalizing rs k s t with
  | nil => exact h
  | cons b as ih =>
    cases rs with
    | nil => exact h
    | cons c rs =>
      refine ih rs (k + 1) ?_
      rw [State.frameRead_withSamples, h, ← State.frameRead_withSamples]

theorem readSteps_plays_free (as : List Byte) {k : BitVec 4} {s : State} (h : s.periph.refusesNothing = true) :
    ∃ (rs : List Byte) (p : Periph) (n : Nat), rs.length = as.length ∧
      Plays s (readSteps k as s) (readFrames (as.zip rs)) rs
        { State.stepsRead k as rs .unbound 0 s with periph := p, draws := s.draws + as.length + n } ∧
      p.refusesNothing = true ∧ n ≤ 8 * as.length ∧ (s.periph = .unbound → p = .unbound ∧ n = 8 * as.length) := by
  induction as generalizing k s with
  | nil => exact ⟨[], s.periph, 0, rfl, Plays.done _ rfl rfl rfl, h, Nat.le_refl 0, fun e => ⟨e, rfl⟩⟩
  | cons a as ih =>
    obtain ⟨r, q, m, h1, hq, hm, hu⟩ := readRegister_plays_free (s := s.atSeq k) a h
    obtain ⟨rs, p, n, hl, h2, hp, hn, hv⟩ := ih (k := k + 1) (s := (s.atSeq k).frameRead a r q m) hq
    refine ⟨r :: rs, p, m + n, by simp [hl], ?_, hp, by simp only [List.length_cons]; omega, fun e => ?_⟩
    · simp only [readSteps, readFrames, List.zip_cons_cons, List.flatMap_cons]
      refine Plays.step h1 rfl rfl rfl ((h2.map (r :: rs) _ rfl rfl rfl rfl).cast rfl rfl ?_)
      rw [State.frameRead_draws, State.atSeq_draws, List.length_cons,
        show s.draws + (1 + m) + as.length + n = s.draws + (as.length + 1) + (m + n) by omega]
      exact State.stepsRead_congr as rs (k + 1) _ _ (s := (s.atSeq k).frameRead a r q m) rfl
    · obtain ⟨g1, g2⟩ := hv (hu e).1
      refine ⟨g1, ?_⟩
      rw [(hu e).2, g2, List.length_cons]
      omega

theorem readSteps_plays_oracle {as rs : List Byte} {k : BitVec 4} {s : State} {o o' : Oracle} (hl : rs.length = as.length)
    (h : s.periph = .oracle o) (hf : o.follows s.trace (readFrames (as.zip rs)) = some o') :
    Plays s (readSteps k as s) (readFrames (as.zip rs)) rs
      { State.stepsRead k as rs .unbound 0 s with periph := .oracle o', draws := s.draws + as.length } := by
  induction as generalizing rs k s o with
  | nil =>
    obtain rfl := List.length_eq_zero_iff.1 hl
    simp only [List.zip_nil_left, readFrames, List.flatMap_nil, Oracle.follows, Option.some.injEq] at hf
    exact Plays.ends _ (by simp [State.stepsRead, ← h, ← hf]) rfl rfl rfl
  | cons a as ih =>
    cases rs with
    | nil => cases hl
    | cons r rs =>
      rw [List.zip_cons_cons, readFrames_cons] at hf ⊢
      obtain ⟨o1, h1, h2⟩ := (Oracle.follows_append _ _).1 hf
      have g1 := readRegister_plays_oracle (s := s.atSeq k) (a := a) (r := r) h h1
      have g2 := ih (rs := rs) (k := k + 1) (s := (s.atSeq k).frameRead a r (.oracle o1) 0) (Nat.succ.inj hl) rfl
        (by rw [State.frameRead_trace, State.atSeq_trace]; exact h2)
      simp only [readSteps]
      refine Plays.step g1 rfl rfl rfl ((g2.map (r :: rs) _ rfl rfl rfl rfl).cast rfl rfl ?_)
      rw [State.frameRead_draws, State.atSeq_draws, List.length_cons,
        show s.draws + (1 + 0) + as.length = s.draws + (as.length + 1) by omega]
      exact State.stepsRead_congr as rs (k + 1) _ _ (s := (s.atSeq k).frameRead a r (.oracle o1) 0) rfl

/-- The peripheral after read frames of the addresses in the list. -/
def PStore.afterReads (p : PStore) : List Byte → PStore
  | [] => p
  | a :: as => PStore.afterReads { p with n := 16, cmd := a } as

theorem PStore.afterReads_store (as : List Byte) (p : PStore) : (p.afterReads as).store = p.store := by
  induction as generalizing p with
  | nil => rfl
  | cons a as ih => exact ih _

theorem readSteps_plays_store {as rs : List Byte} {m : Memory} {p : PStore} {k : BitVec 4} {s : State}
    (h : List.Forall₂ (fun a r => isReadAddr a = true ∧ ∃ j, rowOf a = some j ∧ Memory.read m j = some r) as rs)
    (hm : p.store = m) (hp : s.periph = .store p) :
    ∃ t, Plays s (readSteps k as s) (readFrames (as.zip rs)) rs t ∧
      t = { State.stepsRead k as rs .unbound 0 s with periph := .store (p.afterReads as) } := by
  refine ⟨_, ?_, rfl⟩
  induction h generalizing k s p with
  | nil => exact Plays.ends _ (by simp [State.stepsRead, PStore.afterReads, ← hp]) rfl rfl rfl
  | @cons a r as rs ha hs ih =>
    obtain ⟨h1, j, h2, h3⟩ := ha
    simp only [readSteps, readFrames, List.zip_cons_cons, List.flatMap_cons]
    have f := readRegister_plays_store (s := s.atSeq k) h1 hp h2 (by rw [hm]; exact h3)
    have g := ih (k := k + 1) (p := { p with n := 16, cmd := a })
      (s := (s.atSeq k).frameRead a r (.store { p with n := 16, cmd := a }) 0) hm rfl
    refine Plays.step f rfl rfl rfl ((g.map (r :: rs) _ rfl rfl rfl rfl).cast rfl rfl ?_)
    cases as <;> cases rs <;> rfl

theorem readSteps_done {as : List Byte} {k : BitVec 4} {s t : State} {rs : List Byte}
    (h : readSteps k as s = .done rs t) :
    rs.length = as.length ∧ t.trace = s.trace ++ readFrames (as.zip rs) ∧ t.clk.mode = s.clk.mode ∧
      t.ce.mode = s.ce.mode ∧ t.prims = s.prims + 84 * as.length := by
  induction as generalizing k s rs with
  | nil =>
    simp only [readSteps, Run.done.injEq] at h
    obtain ⟨rfl, rfl⟩ := h
    simp [readFrames]
  | cons a as ih =>
    simp only [readSteps] at h
    obtain ⟨r, s1, h1, h⟩ := Run.andThen_eq_done h
    obtain ⟨rs', s2, h2, h3⟩ := Run.andThen_eq_done h
    obtain ⟨p, n, rfl⟩ := readRegister_done h1
    obtain ⟨rfl, rfl⟩ := Run.done.inj h3
    obtain ⟨e1, e2, e3, e4, e5⟩ := ih h2
    refine ⟨by simp [e1], ?_, e3, e4, ?_⟩
    · rw [e2]
      simp [readFrames, State.frameRead]
    · rw [e5]
      simp only [State.frameRead, List.length_cons, State.atSeq_prims]
      omega

/-- Where the read transactions of a nonempty list leave the block. -/
theorem readSteps_ends {as : List Byte} {k : BitVec 4} {s t : State} {rs : List Byte} (hn : as ≠ [])
    (h : readSteps k as s = .done rs t) :
    t.ph = .idle ∧ t.txn = .none ∧ t.io.mode = .inp ∧ t.clk = ⟨s.clk.mode, false⟩ ∧ t.ce = ⟨s.ce.mode, false⟩ := by
  induction as generalizing k s rs with
  | nil => exact absurd rfl hn
  | cons a as ih =>
    simp only [readSteps] at h
    obtain ⟨r, s1, h1, h⟩ := Run.andThen_eq_done h
    obtain ⟨rs', s2, h2, h3⟩ := Run.andThen_eq_done h
    obtain ⟨p, n, rfl⟩ := readRegister_done h1
    obtain ⟨rfl, rfl⟩ := Run.done.inj h3
    by_cases he : as = []
    · subst he
      obtain ⟨rfl, rfl⟩ := Run.done.inj h2
      exact ⟨rfl, rfl, rfl, rfl, rfl⟩
    · exact ih (s := (s.atSeq k).frameRead a r p n) he h2

/-! ### INIT -/

/-- The state after INIT's six events. -/
def State.initialised (s : State) : State :=
  { s with clk := ⟨.out, false⟩, io := ⟨.out, false⟩, ce := ⟨.out, false⟩, trace := s.trace ++ initEvents,
           prims := s.prims + 6, draws := s.draws + 3 }

theorem initLines_plays {s : State} (h : betweenFrames s.periph = true) :
    Plays s (initLines s) initEvents () s.initialised := by
  rw [show initEvents = [.cfg .clk .out] ++ ([.cfg .io .out] ++ ([.cfg .ce .out] ++ ([.set .clk false] ++
    ([.set .io false] ++ [.set .ce false])))) from rfl]
  unfold initLines
  refine Plays.step (cfgOut_plays _ _) rfl rfl rfl ?_
  refine Plays.step (cfgOut_plays _ _) rfl rfl rfl ?_
  refine Plays.step (cfgOut_plays _ _) rfl rfl rfl ?_
  refine Plays.step (setLine_plays (p := s.periph) (by simp [State.cfgOut, State.withLine])) rfl rfl rfl ?_
  refine Plays.step (setLine_plays (p := s.periph) (by simp [State.setTo])) rfl rfl rfl ?_
  refine (setLine_plays (p := s.periph) ?_).cast rfl rfl ?_
  · rw [Periph.observe_lower]
    exact if_pos h
  · simp [State.initialised, State.setTo, State.cfgOut, State.withLine, State.line, initEvents]

/-- INIT inside a frame of `P_store` is refused at its last event (R73). -/
theorem initLines_refused {s : State} (hf : faultFree s 6) (h : betweenFrames s.periph = false) :
    initLines s = .refused .periphFrameCut := by
  have h1 := cfgOut_plays .clk s
  have h2 := cfgOut_plays .io (s.cfgOut .clk)
  have h3 := cfgOut_plays .ce ((s.cfgOut .clk).cfgOut .io)
  have h4 := setLine_plays (l := .clk) (b := false) (s := ((s.cfgOut .clk).cfgOut .io).cfgOut .ce) (p := s.periph)
    (by simp [State.cfgOut, State.withLine])
  have h5 := setLine_plays (l := .io) (b := false)
    (s := (((s.cfgOut .clk).cfgOut .io).cfgOut .ce).setTo .clk false s.periph) (p := s.periph) (by simp [State.setTo])
  have f1 := faultFree_append (t := s.cfgOut .clk) (m := 1) (n := 5) hf rfl rfl
  have f2 := faultFree_append (t := (s.cfgOut .clk).cfgOut .io) (m := 2) (n := 4) hf rfl rfl
  have f3 := faultFree_append (t := ((s.cfgOut .clk).cfgOut .io).cfgOut .ce) (m := 3) (n := 3) hf rfl rfl
  have f4 := faultFree_append (t := (((s.cfgOut .clk).cfgOut .io).cfgOut .ce).setTo .clk false s.periph) (m := 4)
    (n := 2) hf rfl rfl
  unfold initLines
  rw [h1.runs (faultFree_mono hf (by simp)), Run.andThen_done, h2.runs (faultFree_mono f1 (by simp)), Run.andThen_done,
    h3.runs (faultFree_mono f2 (by simp)), Run.andThen_done, h4.runs (faultFree_mono f3 (by simp)), Run.andThen_done,
    h5.runs (faultFree_mono f4 (by simp)), Run.andThen_done]
  refine setLine_refused (faultFree_append (m := 5) (n := 1) hf rfl rfl) ?_
  rw [Periph.observe_lower]
  exact if_neg (by simpa [State.setTo] using h)

theorem initLines_done {s t : State} {u : Unit} (h : initLines s = .done u t) :
    betweenFrames s.periph = true ∧ t = s.initialised := by
  unfold initLines at h
  obtain ⟨_, s1, h1, h⟩ := Run.andThen_eq_done h
  obtain ⟨_, s2, h2, h⟩ := Run.andThen_eq_done h
  obtain ⟨_, s3, h3, h⟩ := Run.andThen_eq_done h
  obtain ⟨_, s4, h4, h⟩ := Run.andThen_eq_done h
  obtain ⟨_, s5, h5, h6⟩ := Run.andThen_eq_done h
  obtain rfl := cfgOut_done h1
  obtain rfl := cfgOut_done h2
  obtain rfl := cfgOut_done h3
  obtain ⟨p4, hp4, rfl⟩ := setLine_done h4
  obtain ⟨p5, hp5, rfl⟩ := setLine_done h5
  obtain ⟨p6, hp6, rfl⟩ := setLine_done h6
  rw [Periph.observe_fall, Except.ok.injEq] at hp4
  subst hp4
  rw [Periph.observe_io, Except.ok.injEq] at hp5
  subst hp5
  rw [Periph.observe_lower] at hp6
  split at hp6
  · rename_i hb
    rw [Except.ok.injEq] at hp6
    subst hp6
    exact ⟨hb, by simp [State.initialised, State.setTo, State.cfgOut, State.withLine, State.line, initEvents]⟩
  · cases hp6

end Sys2Proof.Machine
end

