-- ==== Sys2Proof/Laws/Meanings.lean ====
section
/-! SUPPORT. One equation per instruction: what `exec` is where the instruction's precondition holds; what a precondition
says of the lines; and the closed forms of the facade's sequences. Later proofs cite these and unfold no meaning. -/

namespace Sys2Proof.Machine

/-! ### What the preconditions say -/

theorem transportReady_iff {s : State} :
    transportReady s = true ↔ s.clk = ⟨.out, false⟩ ∧ s.ce = ⟨.out, true⟩ := by
  cases hc : s.clk
  cases he : s.ce
  simp [transportReady, hc, he, and_assoc]

theorem gateReady_iff {s : State} : gateReady s = true ↔ s.ce.mode = .out ∧ s.clk = ⟨.out, false⟩ := by
  cases hc : s.clk
  simp [gateReady, hc, and_assoc]

theorem idleState_iff {s : State} :
    idleState s = true ↔ s.clk = ⟨.out, false⟩ ∧ s.ce = ⟨.out, false⟩ ∧ s.io.mode ≠ .unconf := by
  cases hc : s.clk
  cases he : s.ce
  simp [idleState, hc, he, and_assoc]

theorem yearOk_iff {y : BitVec 16} : yearOk y = true ↔ 2000 ≤ y.toNat ∧ y.toNat ≤ 2099 := by
  unfold yearOk
  rw [Bool.and_eq_true, decide_eq_true_eq, decide_eq_true_eq]
  rfl

/-! ### Response words -/

/-- A result byte fills `RW[7:0]` (R104). -/
theorem okResponse_byte (r : Byte) : okResponse (bytePayload r) = r.setWidth 64 := by
  revert r
  decide +kernel

/-- A response with no result is 0 (R104). -/
theorem okResponse_zero : okResponse 0 = 0 := by decide

/-- The payload of a response is the Time Value packed into it (R103, R104). -/
theorem okResponse_eq (p : BitVec 56) : okResponse p = (0#8) ++ p := by
  apply BitVec.eq_of_toNat_eq
  simp only [okResponse, responseWord, statusOk, toNat_append_add]
  rfl

/-! ### Line primitives -/

theorem exec_cfgline {l : Line} {d : Dir} {s : State} (hn : onNull s = false) (h : cfgPairOk l d = true) :
    exec (.cfgline l d) s = finish ((cfgLine l d s).andThen fun _ s => .done 0 s) := by
  simp [exec, execCfgline, hn, h]

theorem exec_sethi {l : Line} {s : State} (hn : onNull s = false) (h : (s.line l).mode = .out) :
    exec (.sethi l) s = finish ((setLine l true s).andThen fun _ s => .done 0 s) := by
  simp [exec, execSethi, hn, h]

theorem exec_setlo {l : Line} {s : State} (hn : onNull s = false) (h : (s.line l).mode = .out) :
    exec (.setlo l) s = finish ((setLine l false s).andThen fun _ s => .done 0 s) := by
  simp [exec, execSetlo, hn, h]

theorem exec_rdlvl {l : Line} {s : State} (hn : onNull s = false) (h : (s.line l).mode = .inp) :
    exec (.rdlvl l) s = finish ((sampleLine l s).andThen fun b s => .done (bitPayload b) s) := by
  simp [exec, execRdlvl, hn, h]

theorem exec_sleep {d : BitVec 16} {s : State} (hn : onNull s = false) :
    exec (.sleep d) s = finish ((sleepMicros d s).andThen fun _ s => .done 0 s) := by
  simp [exec, execSleep, hn]

/-! ### Transport, gate, wire command bytes -/

theorem exec_wrbyte {v : Byte} {s : State} (hn : onNull s = false) (h : transportReady s = true) :
    exec (.wrbyte v) s = finish ((writeByte v s).andThen fun _ s => .done 0 s) := by
  simp [exec, execWrbyte, hn, h]

theorem exec_rdbyte {s : State} (hn : onNull s = false) (h : transportReady s = true) :
    exec .rdbyte s = finish ((readByte s).andThen fun r s => .done (bytePayload r) s) := by
  simp [exec, execRdbyte, hn, h]

theorem exec_cehi {s : State} (hn : onNull s = false) (h : gateReady s = true) :
    exec .cehi s = finish ((setLine .ce true s).andThen fun _ s => .done 0 s) := by
  simp [exec, execCehi, hn, h]

theorem exec_celo {s : State} (hn : onNull s = false) (h : gateReady s = true) :
    exec .celo s = finish ((setLine .ce false s).andThen fun _ s => .done 0 s) := by
  simp [exec, execCelo, hn, h]

/-- Every wire row's meaning is the address part of a frame with the row's literal byte. -/
theorem exec_wire {r : Instr × Byte × Nat} (hr : r ∈ wireRows) (s : State) : exec r.1 s = wireCommand r.2.1 s := by
  simp only [wireRows, List.mem_cons, List.not_mem_nil, or_false] at hr
  rcases hr with rfl | rfl | rfl | rfl | rfl | rfl | rfl | rfl | rfl | rfl | rfl | rfl | rfl | rfl | rfl | rfl <;> rfl

theorem wireCommand_eq {b : Byte} {s : State} (hn : onNull s = false) (h : transportReady s = true) :
    wireCommand b s = finish ((writeByte b (s.atTxn .addr)).andThen fun _ s => .done 0 (s.atTxn .none)) := by
  simp [wireCommand, hn, h]

/-! ### Register protocol and facade -/

theorem exec_wrreg {a v : Byte} {s : State} (hn : onNull s = false) (ha : isWriteAddr a = true)
    (h : idleState s = true) :
    exec (.wrreg a v) s = finish ((writeRegister a v s).andThen fun _ s => .done 0 s) := by
  simp [exec, execWrreg, hn, ha, h]

theorem exec_rdreg {a : Byte} {s : State} (hn : onNull s = false) (ha : isReadAddr a = true)
    (h : idleState s = true) :
    exec (.rdreg a) s = finish ((readRegister a s).andThen fun r s => .done (bytePayload r) s) := by
  simp [exec, execRdreg, hn, ha, h]

theorem exec_init {s : State} (hn : onNull s = false) :
    exec .init s = finish ((initLines s).andThen fun _ s => .done 0 s) := by
  simp [exec, execInit, hn]

theorem exec_settime {t : TimeValue} {s : State} (hn : onNull s = false) (hy : yearOk t.year = true)
    (h : idleState s = true) :
    exec (.settime t) s =
      finish ((writeSteps 0 (setTimePairs t) s).andThen fun _ s => .done 0 (s.atSeq 0)) := by
  simp [exec, execSettime, hn, hy, h]

theorem exec_readtime {s : State} (hn : onNull s = false) (h : idleState s = true) :
    exec .readtime s =
      finish ((readSteps 0 readTimeAddrs s).andThen fun rs s => .done (packTime (decodeTimeBytes rs)) (s.atSeq 0)) := by
  simp [exec, execReadtime, hn, h]

/-! ### Closed forms -/

/-- The state after the write transactions of a nonempty list whose last pair is `(a, v)`. -/
theorem State.stepsWritten_eq (ps : List (Byte × Byte)) (a v : Byte) (k : BitVec 4) (s : State) :
    State.stepsWritten k (ps ++ [(a, v)]) s =
      { s with
        ce := ⟨s.ce.mode, false⟩, io := ⟨.out, v.getLsbD 7⟩, clk := ⟨s.clk.mode, false⟩, sr := 0, bc := 8, tmr := 0
        ph := .idle, txn := .none, seq := (State.stepsWritten k (ps ++ [(a, v)]) s).seq
        trace := s.trace ++ writeFrames (ps ++ [(a, v)]), prims := s.prims + 84 * (ps.length + 1)
        draws := s.draws + 2 * (ps.length + 1)
        periph := (ps ++ [(a, v)]).foldl (fun p q => Periph.framed q.1 q.2 p) s.periph } := by
  induction ps generalizing k s with
  | nil => simp [State.stepsWritten, State.frameWritten, writeFrames]
  | cons q ps ih =>
    obtain ⟨a', v'⟩ := q
    have h := ih (k + 1) ((s.atSeq k).frameWritten a' v' (s.periph.framed a' v'))
    simp only [List.cons_append, State.stepsWritten]
    rw [h]
    simp only [State.frameWritten, State.mk.injEq, writeFrames, List.flatMap_cons, List.append_assoc, List.length_cons,
      List.foldl_cons, true_and, and_true, State.atSeq_cfg, State.atSeq_clk, State.atSeq_ce, State.atSeq_busy,
      State.atSeq_fault, State.atSeq_cw, State.atSeq_rw, State.atSeq_trace, State.atSeq_lineFaults, State.atSeq_prims,
      State.atSeq_faultInfo, State.atSeq_draws, State.atSeq_pending]
    refine ⟨?_, ?_⟩ <;> omega

/-- The state after the read transactions of a nonempty list of addresses whose last is `a`, answered `r`. -/
theorem State.stepsRead_eq (as rs : List Byte) (a r : Byte) (k : BitVec 4) (p : Periph) (n : Nat) (s : State)
    (h : rs.length = as.length) :
    State.stepsRead k (as ++ [a]) (rs ++ [r]) p n s =
      { s with
        ce := ⟨s.ce.mode, false⟩, io := ⟨.inp, a.getLsbD 7⟩, clk := ⟨s.clk.mode, false⟩, sr := r, bc := 8, tmr := 0
        ph := .idle, txn := .none, seq := (State.stepsRead k (as ++ [a]) (rs ++ [r]) p n s).seq
        trace := s.trace ++ readFrames ((as ++ [a]).zip (rs ++ [r])), prims := s.prims + 84 * (as.length + 1)
        draws := s.draws + (1 + n) * (as.length + 1), periph := p } := by
  induction as generalizing rs k s with
  | nil =>
    obtain rfl : rs = [] := List.length_eq_zero_iff.1 h
    simp [State.stepsRead, State.frameRead, readFrames]
  | cons a' as ih =>
    match rs, h with
    | r' :: rs, h =>
      have g := ih rs (k + 1) ((s.atSeq k).frameRead a' r' p n) (by simpa using h)
      simp only [List.cons_append, State.stepsRead]
      rw [g]
      simp only [State.frameRead, State.mk.injEq, readFrames, List.zip_cons_cons, List.flatMap_cons, List.append_assoc,
        List.length_cons, true_and, and_true, State.atSeq_cfg, State.atSeq_clk, State.atSeq_ce, State.atSeq_busy,
        State.atSeq_fault, State.atSeq_cw, State.atSeq_rw, State.atSeq_trace, State.atSeq_lineFaults, State.atSeq_prims,
        State.atSeq_faultInfo, State.atSeq_draws, State.atSeq_pending]
      refine ⟨by omega, ?_⟩
      rw [Nat.mul_add (1 + n) (as.length + 1) 1, Nat.mul_one]
      omega

end Sys2Proof.Machine
end

