-- ==== Sys2Proof/Laws/Alike.lean ====
section
/-! SUPPORT. Two runs side by side: a relation that the primitives keep is kept by every operation, so what an operation does
cannot depend on what the relation lets differ (R21, R23, R27). -/

namespace Sys2Proof.Machine

/-- Two parts come to the same: both done with one result in related states, both halted, or both refused for one reason. -/
def Run.Same {α : Type} (R H : State → State → Prop) : Run α → Run α → Prop
  | .done a s, .done b t => a = b ∧ R s t
  | .halted s, .halted t => H s t
  | .refused r, .refused q => r = q
  | .done _ _, .halted _ => False
  | .done _ _, .refused _ => False
  | .halted _, .done _ _ => False
  | .halted _, .refused _ => False
  | .refused _, .done _ _ => False
  | .refused _, .halted _ => False

theorem Run.Same.andThen {α β : Type} {R R' H : State → State → Prop} {m n : Run α} {f g : α → State → Run β}
    (h : m.Same R H n) (hf : ∀ a s t, R s t → (f a s).Same R' H (g a t)) : (m.andThen f).Same R' H (n.andThen g) := by
  cases m <;> cases n <;> try exact h.elim
  · obtain ⟨rfl, h⟩ := h
    exact hf _ _ _ h
  · exact h
  · exact h

/-- `R` relates states that every primitive takes to related states, and `H` the states that its faults leave. -/
structure KeptRel (R H : State → State → Prop) : Prop where
  cfgOut : ∀ l s t, R s t → R (s.cfgOut l) (t.cfgOut l)
  cfgIn : ∀ l s t, R s t → R (s.cfgIn l) (t.cfgIn l)
  setTo : ∀ l b p s t, R s t → R (s.setTo l b p) (t.setTo l b p)
  slept : ∀ d s t, R s t → R (s.slept d) (t.slept d)
  sampled : ∀ l b p n s t, R s t → R (s.sampled l b p n) (t.sampled l b p n)
  phase : ∀ p s t, R s t → R (s.atPhase p) (t.atPhase p)
  txn : ∀ x s t, R s t → R (s.atTxn x) (t.atTxn x)
  seq : ∀ k s t, R s t → R (s.atSeq k) (t.atSeq k)
  regs : ∀ r x m r' x' m' s t, R s t → R { s with sr := r, bc := x, tmr := m } { t with sr := r', bc := x', tmr := m' }
  faulted : ∀ l p s t, R s t →
    H (enterLineFault l p { s with prims := s.prims + 1 }) (enterLineFault l p { t with prims := t.prims + 1 })
  faults : ∀ s t, R s t → faultsNow s = faultsNow t
  observes : ∀ l b s t, R s t →
    Periph.observe (.set l b) s.io s.ce s.periph = Periph.observe (.set l b) t.io t.ce t.periph
  samples : ∀ s t, R s t → s.sampleNow = t.sampleNow

namespace KeptRel

variable {R H : State → State → Prop}

theorem attempt {α : Type} (h : KeptRel R H) {l : Option Line} {p : Primitive} {s t : State} {f g : State → Run α}
    (hs : R s t) (hb : (f { s with prims := s.prims + 1 }).Same R H (g { t with prims := t.prims + 1 })) :
    (attempt l p s f).Same R H (attempt l p t g) := by
  unfold Machine.attempt
  rw [h.faults s t hs]
  split
  · exact h.faulted l p s t hs
  · exact hb

theorem cfgLine (h : KeptRel R H) {l : Line} {d : Dir} {s t : State} (hs : R s t) :
    (cfgLine l d s).Same R H (cfgLine l d t) := by
  cases d with
  | out => rw [cfgLine_out, cfgLine_out]; exact h.attempt hs ⟨rfl, h.cfgOut l s t hs⟩
  | inp => rw [cfgLine_in, cfgLine_in]; exact h.attempt hs ⟨rfl, h.cfgIn l s t hs⟩

theorem setLine (h : KeptRel R H) {l : Line} {b : Level} {s t : State} (hs : R s t) :
    (setLine l b s).Same R H (setLine l b t) := by
  rw [setLine_eq, setLine_eq]
  refine h.attempt hs ?_
  rw [h.observes l b s t hs]
  cases Periph.observe (.set l b) t.io t.ce t.periph with
  | ok p => exact ⟨rfl, h.setTo l b p s t hs⟩
  | error r => exact rfl

theorem sleep (h : KeptRel R H) {d : BitVec 16} {s t : State} (hs : R s t) :
    (sleepMicros d s).Same R H (sleepMicros d t) := by
  rw [sleepMicros_eq, sleepMicros_eq]
  exact h.attempt hs ⟨rfl, h.slept d s t hs⟩

theorem sample (h : KeptRel R H) {l : Line} {s t : State} (hs : R s t) :
    (sampleLine l s).Same R H (sampleLine l t) := by
  rw [sampleLine_eq, sampleLine_eq]
  refine h.attempt hs ?_
  rw [h.samples s t hs]
  cases t.sampleNow with
  | ok x => exact ⟨rfl, h.sampled l x.1 x.2.1 x.2.2 s t hs⟩
  | error r => exact rfl

theorem writeCell (h : KeptRel R H) {b : Level} {s t : State} (hs : R s t) :
    (writeCell b s).Same R H (writeCell b t) := by
  unfold Machine.writeCell
  refine (h.setLine (h.phase _ _ _ hs)).andThen fun _ s1 t1 h1 => ?_
  refine (h.setLine (h.phase _ _ _ h1)).andThen fun _ s2 t2 h2 => ?_
  refine (h.sleep (h.phase _ _ _ (h.regs s2.sr s2.bc _ t2.sr t2.bc _ s2 t2 h2))).andThen fun _ s3 t3 h3 => ?_
  refine (h.setLine (h.phase _ _ _ h3)).andThen fun _ s4 t4 h4 => ?_
  refine (h.sleep (h.phase _ _ _ (h.regs s4.sr s4.bc _ t4.sr t4.bc _ s4 t4 h4))).andThen fun _ s5 t5 h5 => ?_
  exact ⟨rfl, h.regs _ _ s5.tmr _ _ t5.tmr s5 t5 h5⟩

theorem writeCells (h : KeptRel R H) {bs : List Level} {s t : State} (hs : R s t) :
    (writeCells bs s).Same R H (writeCells bs t) := by
  induction bs generalizing s t with
  | nil => exact ⟨rfl, hs⟩
  | cons b bs ih => exact (h.writeCell hs).andThen fun _ _ _ h1 => ih h1

/-- WRBYTE sets the direction and the level of `IO` before it uses them: it is enough that the states are related then. -/
theorem writeByteFrom (h : KeptRel R H) {v : Byte} {s t : State}
    (hs : (Machine.cfgLine .io .out (s.loadWrite v)).Same R H (Machine.cfgLine .io .out (t.loadWrite v))) :
    (writeByte v s).Same R H (writeByte v t) := by
  unfold Machine.writeByte
  refine hs.andThen fun _ s1 t1 h1 => ?_
  exact (h.writeCells h1).andThen fun _ s2 t2 h2 => ⟨rfl, h.phase _ _ _ h2⟩

theorem writeByte (h : KeptRel R H) {v : Byte} {s t : State} (hs : R s t) :
    (writeByte v s).Same R H (writeByte v t) :=
  h.writeByteFrom (h.cfgLine (h.phase .wCfg _ _ (h.regs v 0 s.tmr v 0 t.tmr s t hs)))

theorem readCell (h : KeptRel R H) {s t : State} (hs : R s t) : (readCell s).Same R H (readCell t) := by
  unfold Machine.readCell
  refine (h.setLine (h.phase _ _ _ hs)).andThen fun _ s1 t1 h1 => ?_
  refine (h.sleep (h.phase _ _ _ (h.regs s1.sr s1.bc _ t1.sr t1.bc _ s1 t1 h1))).andThen fun _ s2 t2 h2 => ?_
  refine (h.sample (h.phase _ _ _ h2)).andThen fun b s3 t3 h3 => ?_
  refine (h.setLine (h.phase _ _ _ (h.regs _ s3.bc s3.tmr _ t3.bc t3.tmr s3 t3 h3))).andThen fun _ s4 t4 h4 => ?_
  refine (h.sleep (h.phase _ _ _ (h.regs s4.sr s4.bc _ t4.sr t4.bc _ s4 t4 h4))).andThen fun _ s5 t5 h5 => ?_
  exact ⟨rfl, h.regs s5.sr _ s5.tmr t5.sr _ t5.tmr s5 t5 h5⟩

theorem readCells (h : KeptRel R H) {is : List Nat} {r : Byte} {s t : State} (hs : R s t) :
    (readCells is r s).Same R H (readCells is r t) := by
  induction is generalizing r s t with
  | nil => exact ⟨rfl, hs⟩
  | cons i is ih => exact (h.readCell hs).andThen fun _ _ _ h1 => ih h1

/-- RDBYTE sets the direction of `IO` before it uses it: it is enough that the states are related then. -/
theorem readByteFrom (h : KeptRel R H) {s t : State}
    (hs : (Machine.cfgLine .io .inp s.loadRead).Same R H (Machine.cfgLine .io .inp t.loadRead)) :
    (readByte s).Same R H (readByte t) := by
  unfold Machine.readByte
  refine hs.andThen fun _ s1 t1 h1 => ?_
  exact (h.readCells h1).andThen fun _ s2 t2 h2 => ⟨rfl, h.phase _ _ _ h2⟩

theorem readByte (h : KeptRel R H) {s t : State} (hs : R s t) : (readByte s).Same R H (readByte t) :=
  h.readByteFrom (h.cfgLine (h.phase .rCfg _ _ (h.regs 0 0 s.tmr 0 0 t.tmr s t hs)))

theorem writeRegister (h : KeptRel R H) {a v : Byte} {s t : State} (hs : R s t) :
    (writeRegister a v s).Same R H (writeRegister a v t) := by
  unfold Machine.writeRegister
  refine (h.setLine (h.txn _ _ _ hs)).andThen fun _ _ _ h1 => ?_
  refine (h.writeByte (h.txn _ _ _ h1)).andThen fun _ _ _ h2 => ?_
  refine (h.writeByte (h.txn _ _ _ h2)).andThen fun _ _ _ h3 => ?_
  exact (h.setLine (h.txn _ _ _ h3)).andThen fun _ _ _ h4 => ⟨rfl, h.txn _ _ _ h4⟩

theorem readRegister (h : KeptRel R H) {a : Byte} {s t : State} (hs : R s t) :
    (readRegister a s).Same R H (readRegister a t) := by
  unfold Machine.readRegister
  refine (h.setLine (h.txn _ _ _ hs)).andThen fun _ _ _ h1 => ?_
  refine (h.writeByte (h.txn _ _ _ h1)).andThen fun _ _ _ h2 => ?_
  refine (h.readByte (h.txn _ _ _ h2)).andThen fun _ _ _ h3 => ?_
  exact (h.setLine (h.txn _ _ _ h3)).andThen fun _ _ _ h4 => ⟨rfl, h.txn _ _ _ h4⟩

theorem writeSteps (h : KeptRel R H) {ps : List (Byte × Byte)} {k : BitVec 4} {s t : State} (hs : R s t) :
    (writeSteps k ps s).Same R H (writeSteps k ps t) := by
  induction ps generalizing k s t with
  | nil => exact ⟨rfl, hs⟩
  | cons q ps ih => exact (h.writeRegister (h.seq _ _ _ hs)).andThen fun _ _ _ h1 => ih h1

theorem readSteps (h : KeptRel R H) {as : List Byte} {k : BitVec 4} {s t : State} (hs : R s t) :
    (readSteps k as s).Same R H (readSteps k as t) := by
  induction as generalizing k s t with
  | nil => exact ⟨rfl, hs⟩
  | cons a as ih =>
    exact (h.readRegister (h.seq _ _ _ hs)).andThen fun _ _ _ h1 => (ih h1).andThen fun _ _ _ h2 => ⟨rfl, h2⟩

theorem initLines (h : KeptRel R H) {s t : State} (hs : R s t) : (initLines s).Same R H (initLines t) := by
  unfold Machine.initLines
  refine (h.cfgLine hs).andThen fun _ _ _ h1 => ?_
  refine (h.cfgLine h1).andThen fun _ _ _ h2 => ?_
  refine (h.cfgLine h2).andThen fun _ _ _ h3 => ?_
  refine (h.setLine h3).andThen fun _ _ _ h4 => ?_
  exact (h.setLine h4).andThen fun _ _ _ h5 => h.setLine h5

/-- Two outcomes come to the same: the same response over related states, faults' entries related, or one refusal. -/
def OutSame (R H : State → State → Prop) (o o' : Host.Outcome State Fault Refusal) : Prop :=
  (∃ p u v, R u v ∧ o = .next (respond p u) ∧ o' = .next (respond p v)) ∨
  (∃ u v, H u v ∧ o = .next u ∧ o' = .next v) ∨ (∃ r, o = .refused r ∧ o' = .refused r)

theorem finish {m n : Run (BitVec 56)} (h : m.Same R H n) : OutSame R H (finish m) (finish n) := by
  cases m <;> cases n <;> try exact h.elim
  · obtain ⟨rfl, h⟩ := h
    exact .inl ⟨_, _, _, h, rfl, rfl⟩
  · exact .inr (.inl ⟨_, _, h, rfl, rfl⟩)
  · exact .inr (.inr ⟨_, rfl, by rw [show _ = _ from h]; rfl⟩)

/-- A check that both sides answer alike. -/
theorem guard {c c' : Bool} (hc : c = c') {r : Refusal} {o o' : Host.Outcome State Fault Refusal}
    (h : c = false → OutSame R H o o') :
    OutSame R H (if c then .refused r else o) (if c' then .refused r else o') := by
  subst hc
  cases c with
  | true => exact .inr (.inr ⟨r, rfl, rfl⟩)
  | false => exact h rfl

theorem wireCommand (h : KeptRel R H) {b : Byte} {s t : State} (hs : R s t) (hn : onNull s = onNull t)
    (ht : transportReady s = transportReady t) : OutSame R H (wireCommand b s) (wireCommand b t) := by
  unfold Machine.wireCommand
  refine guard hn fun _ => guard (by rw [ht]) fun _ => finish ?_
  exact (h.writeByte (h.txn _ _ _ hs)).andThen fun _ _ _ h1 => ⟨rfl, h.txn _ _ _ h1⟩

/-- `exec` from related states whose parameters and lines are equal. -/
theorem exec (h : KeptRel R H) (i : Instr) {s t : State} (hs : R s t) (hc : s.cfg = t.cfg) (h1 : s.clk = t.clk)
    (h2 : s.io = t.io) (h3 : s.ce = t.ce) : OutSame R H (exec i s) (exec i t) := by
  have hn : onNull s = onNull t := by simp [onNull, hc]
  have ht : transportReady s = transportReady t := by simp [transportReady, h1, h3]
  have hi : idleState s = idleState t := by simp [idleState, h1, h2, h3]
  have hg : gateReady s = gateReady t := by simp [gateReady, h1, h3]
  have hl : ∀ l, s.line l = t.line l := fun l => by cases l <;> assumption
  cases i with
  | init =>
    simp only [Machine.exec, execInit, hn]
    split
    · exact .inl ⟨_, _, _, hs, rfl, rfl⟩
    · exact finish ((h.initLines hs).andThen fun _ _ _ h1 => ⟨rfl, h1⟩)
  | settime x =>
    simp only [Machine.exec, execSettime, hn]
    split
    · exact .inl ⟨_, _, _, hs, rfl, rfl⟩
    · exact guard rfl fun _ => guard (by rw [hi]) fun _ =>
        finish ((h.writeSteps hs).andThen fun _ _ _ h1 => ⟨rfl, h.seq _ _ _ h1⟩)
  | readtime =>
    simp only [Machine.exec, execReadtime, hn, hc]
    split
    · exact .inl ⟨_, _, _, hs, rfl, rfl⟩
    · exact guard (by rw [hi]) fun _ =>
        finish ((h.readSteps hs).andThen fun _ _ _ h1 => ⟨rfl, h.seq _ _ _ h1⟩)
  | wrreg a v =>
    exact guard hn fun _ => guard rfl fun _ => guard (by rw [hi]) fun _ =>
      finish ((h.writeRegister hs).andThen fun _ _ _ h1 => ⟨rfl, h1⟩)
  | rdreg a =>
    exact guard hn fun _ => guard rfl fun _ => guard (by rw [hi]) fun _ =>
      finish ((h.readRegister hs).andThen fun _ _ _ h1 => ⟨rfl, h1⟩)
  | cehi =>
    exact guard hn fun _ => guard (by rw [hg]) fun _ =>
      finish ((h.setLine hs).andThen fun _ _ _ h1 => ⟨rfl, h1⟩)
  | celo =>
    exact guard hn fun _ => guard (by rw [hg]) fun _ =>
      finish ((h.setLine hs).andThen fun _ _ _ h1 => ⟨rfl, h1⟩)
  | wrbyte v =>
    exact guard hn fun _ => guard (by rw [ht]) fun _ =>
      finish ((h.writeByte hs).andThen fun _ _ _ h1 => ⟨rfl, h1⟩)
  | rdbyte =>
    exact guard hn fun _ => guard (by rw [ht]) fun _ =>
      finish ((h.readByte hs).andThen fun _ _ _ h1 => ⟨rfl, h1⟩)
  | bcd2dec b => exact .inl ⟨_, _, _, hs, rfl, rfl⟩
  | dec2bcd d => exact .inl ⟨_, _, _, hs, rfl, rfl⟩
  | cfgline l d =>
    exact guard hn fun _ => guard rfl fun _ => finish ((h.cfgLine hs).andThen fun _ _ _ h1 => ⟨rfl, h1⟩)
  | sethi l =>
    exact guard hn fun _ => guard (by rw [hl]) fun _ => finish ((h.setLine hs).andThen fun _ _ _ h1 => ⟨rfl, h1⟩)
  | setlo l =>
    exact guard hn fun _ => guard (by rw [hl]) fun _ => finish ((h.setLine hs).andThen fun _ _ _ h1 => ⟨rfl, h1⟩)
  | rdlvl l =>
    exact guard hn fun _ => guard (by rw [hl]) fun _ => finish ((h.sample hs).andThen fun _ _ _ h1 => ⟨rfl, h1⟩)
  | sleep d => exact guard hn fun _ => finish ((h.sleep hs).andThen fun _ _ _ h1 => ⟨rfl, h1⟩)
  | secW => exact h.wireCommand hs hn ht
  | secR => exact h.wireCommand hs hn ht
  | minW => exact h.wireCommand hs hn ht
  | minR => exact h.wireCommand hs hn ht
  | hourW => exact h.wireCommand hs hn ht
  | hourR => exact h.wireCommand hs hn ht
  | dateW => exact h.wireCommand hs hn ht
  | dateR => exact h.wireCommand hs hn ht
  | monthW => exact h.wireCommand hs hn ht
  | monthR => exact h.wireCommand hs hn ht
  | dayW => exact h.wireCommand hs hn ht
  | dayR => exact h.wireCommand hs hn ht
  | yearW => exact h.wireCommand hs hn ht
  | yearR => exact h.wireCommand hs hn ht
  | wpW => exact h.wireCommand hs hn ht
  | wpR => exact h.wireCommand hs hn ht

end KeptRel
end Sys2Proof.Machine
end

