-- ==== Sys2Proof/Laws/Kept.lean ====
section
/-! SUPPORT. What every operation keeps: a property that the primitives keep is kept by all of `exec`, whatever is wired and
whichever primitive faults. -/

namespace Sys2Proof.Machine

/-- What a part of an operation ends in: `D` where it is done, `H` where a fault was entered; a refusal ends in nothing. -/
def Run.Ends {α : Type} (D : α → State → Prop) (H : State → Prop) : Run α → Prop
  | .done a s => D a s
  | .halted s => H s
  | .refused _ => True

theorem Run.Ends.andThen {α β : Type} {D : α → State → Prop} {E : β → State → Prop} {H : State → Prop} {m : Run α}
    {f : α → State → Run β} (hm : m.Ends D H) (hf : ∀ a s, m = .done a s → D a s → (f a s).Ends E H) :
    (m.andThen f).Ends E H := by
  cases m with
  | done a s => exact hf a s rfl hm
  | halted s => exact hm
  | refused r => trivial

/-- `P` is kept by the primitives and by the engine's own moves, and a fault entered from `P` leaves `H`. -/
structure Kept (P H : State → Prop) : Prop where
  cfgOut : ∀ l s, P s → P (s.cfgOut l)
  cfgIn : ∀ s, P s → P (s.cfgIn .io)
  setTo : ∀ l b p s, P s → Periph.observe (.set l b) s.io s.ce s.periph = .ok p → P (s.setTo l b p)
  slept : ∀ d s, P s → P (s.slept d)
  sampled : ∀ l b p n s, P s → s.sampleNow = .ok (b, p, n) → P (s.sampled l b p n)
  engine : ∀ r m p x q s, P s → P { s with sr := r, tmr := m, ph := p, txn := x, seq := q }
  count : ∀ x s, P s → BitVec.toNat x ≤ 8 → P { s with bc := x }
  faulted : ∀ l p s, P s → H (enterLineFault l p { s with prims := s.prims + 1 })

namespace Kept

variable {P H : State → Prop}

theorem attempt {α : Type} {D : α → State → Prop} (h : Kept P H) {l : Option Line} {p : Primitive} {s : State}
    {body : State → Run α} (hs : P s) (hb : (body { s with prims := s.prims + 1 }).Ends D H) :
    (attempt l p s body).Ends D H := by
  unfold Machine.attempt
  split
  · exact h.faulted l p s hs
  · exact hb

theorem cfgLine (h : Kept P H) {l : Line} {d : Dir} {s : State} (hd : d = .inp → l = .io) (hs : P s) :
    (cfgLine l d s).Ends (fun _ => P) H := by
  cases d with
  | out => rw [cfgLine_out]; exact h.attempt hs (h.cfgOut l s hs)
  | inp => obtain rfl := hd rfl; rw [cfgLine_in]; exact h.attempt hs (h.cfgIn s hs)

theorem setLine (h : Kept P H) {l : Line} {b : Level} {s : State} (hs : P s) :
    (setLine l b s).Ends (fun _ => P) H := by
  rw [setLine_eq]
  refine h.attempt hs ?_
  cases ho : Periph.observe (.set l b) s.io s.ce s.periph with
  | ok p => exact h.setTo l b p s hs ho
  | error r => trivial

theorem sleep (h : Kept P H) {d : BitVec 16} {s : State} (hs : P s) : (sleepMicros d s).Ends (fun _ => P) H := by
  rw [sleepMicros_eq]
  exact h.attempt hs (h.slept d s hs)

theorem sample (h : Kept P H) {l : Line} {s : State} (hs : P s) : (sampleLine l s).Ends (fun _ => P) H := by
  rw [sampleLine_eq]
  refine h.attempt hs ?_
  cases hx : s.sampleNow with
  | ok x => exact h.sampled l x.1 x.2.1 x.2.2 s hs hx
  | error r => trivial

/-- One cell further, the count grows by one. -/
theorem count_succ {x : BitVec 4} {n : Nat} (h : x.toNat + (n + 1) ≤ 8) : (x + 1).toNat + n ≤ 8 := by
  rw [BitVec.toNat_add]
  have : (1 : BitVec 4).toNat = 1 := rfl
  omega

theorem writeCell (h : Kept P H) {b : Level} {s : State} (hs : P s) (hb : (s.bc + 1).toNat ≤ 8) :
    (writeCell b s).Ends (fun _ => P) H := by
  unfold Machine.writeCell
  refine (h.setLine (h.engine _ _ _ _ _ _ hs)).andThen fun _ s1 e1 h1 => ?_
  refine (h.setLine (h.engine _ _ _ _ _ _ h1)).andThen fun _ s2 e2 h2 => ?_
  refine (h.sleep (h.engine _ _ _ _ _ _ h2)).andThen fun _ s3 e3 h3 => ?_
  refine (h.setLine (h.engine _ _ _ _ _ _ h3)).andThen fun _ s4 e4 h4 => ?_
  refine (h.sleep (h.engine _ _ _ _ _ _ h4)).andThen fun _ s5 e5 h5 => ?_
  have hbc : s5.bc = s.bc := by
    obtain ⟨_, -, rfl⟩ := setLine_done e1
    obtain ⟨_, -, rfl⟩ := setLine_done e2
    obtain rfl := sleep_done e3
    obtain ⟨_, -, rfl⟩ := setLine_done e4
    obtain rfl := sleep_done e5
    rfl
  exact h.count _ _ (h.engine (shiftOut s5.sr) s5.tmr s5.ph s5.txn s5.seq s5 h5) (by rw [hbc]; exact hb)

theorem writeCells (h : Kept P H) {bs : List Level} {s : State} (hs : P s) (hb : s.bc.toNat + bs.length ≤ 8) :
    (writeCells bs s).Ends (fun _ => P) H := by
  induction bs generalizing s with
  | nil => exact hs
  | cons b bs ih =>
    have hn : (s.bc + 1).toNat + bs.length ≤ 8 := count_succ hb
    refine (h.writeCell hs (by omega)).andThen fun _ t e ht => ?_
    obtain ⟨p, -, rfl⟩ := writeCell_done e
    exact ih ht hn

theorem writeByte (h : Kept P H) {v : Byte} {s : State} (hs : P s) : (writeByte v s).Ends (fun _ => P) H := by
  unfold Machine.writeByte
  refine (h.cfgLine (fun e => by cases e) (h.count 0 _ (h.engine v s.tmr .wCfg s.txn s.seq s hs) (by decide))).andThen
    fun _ s1 e1 h1 => ?_
  refine (h.writeCells h1 ?_).andThen fun _ s2 _ h2 => h.engine _ _ _ _ _ _ h2
  obtain rfl := cfgOut_done e1
  exact Nat.le_refl 8

theorem readCell (h : Kept P H) {s : State} (hs : P s) (hb : (s.bc + 1).toNat ≤ 8) :
    (readCell s).Ends (fun _ => P) H := by
  unfold Machine.readCell
  refine (h.setLine (h.engine _ _ _ _ _ _ hs)).andThen fun _ s1 e1 h1 => ?_
  refine (h.sleep (h.engine _ _ _ _ _ _ h1)).andThen fun _ s2 e2 h2 => ?_
  refine (h.sample (h.engine _ _ _ _ _ _ h2)).andThen fun b s3 e3 h3 => ?_
  refine (h.setLine (h.engine _ _ _ _ _ _ h3)).andThen fun _ s4 e4 h4 => ?_
  refine (h.sleep (h.engine _ _ _ _ _ _ h4)).andThen fun _ s5 e5 h5 => ?_
  have hbc : s5.bc = s.bc := by
    obtain ⟨_, -, rfl⟩ := setLine_done e1
    obtain rfl := sleep_done e2
    obtain ⟨_, _, -, rfl⟩ := sample_done e3
    obtain ⟨_, -, rfl⟩ := setLine_done e4
    obtain rfl := sleep_done e5
    rfl
  exact h.count _ _ h5 (by rw [hbc]; exact hb)

theorem readCells (h : Kept P H) {is : List Nat} {r : Byte} {s : State} (hs : P s)
    (hb : s.bc.toNat + is.length ≤ 8) : (readCells is r s).Ends (fun _ => P) H := by
  induction is generalizing r s with
  | nil => exact hs
  | cons i is ih =>
    have hn : (s.bc + 1).toNat + is.length ≤ 8 := count_succ hb
    refine (h.readCell hs (by omega)).andThen fun b t e ht => ?_
    obtain ⟨p, n, rfl⟩ := readCell_done e
    exact ih ht hn

theorem readByte (h : Kept P H) {s : State} (hs : P s) : (readByte s).Ends (fun _ => P) H := by
  unfold Machine.readByte
  refine (h.cfgLine (fun _ => rfl) (h.count 0 _ (h.engine 0 s.tmr .rCfg s.txn s.seq s hs) (by decide))).andThen
    fun _ s1 e1 h1 => ?_
  refine (h.readCells h1 ?_).andThen fun _ s2 _ h2 => h.engine _ _ _ _ _ _ h2
  obtain rfl := cfgIn_done e1
  exact Nat.le_refl 8

theorem writeRegister (h : Kept P H) {a v : Byte} {s : State} (hs : P s) :
    (writeRegister a v s).Ends (fun _ => P) H := by
  unfold Machine.writeRegister
  refine (h.setLine (h.engine _ _ _ _ _ _ hs)).andThen fun _ s1 _ h1 => ?_
  refine (h.writeByte (h.engine _ _ _ _ _ _ h1)).andThen fun _ s2 _ h2 => ?_
  refine (h.writeByte (h.engine _ _ _ _ _ _ h2)).andThen fun _ s3 _ h3 => ?_
  exact (h.setLine (h.engine _ _ _ _ _ _ h3)).andThen fun _ s4 _ h4 => h.engine _ _ _ _ _ _ h4

theorem readRegister (h : Kept P H) {a : Byte} {s : State} (hs : P s) : (readRegister a s).Ends (fun _ => P) H := by
  unfold Machine.readRegister
  refine (h.setLine (h.engine _ _ _ _ _ _ hs)).andThen fun _ s1 _ h1 => ?_
  refine (h.writeByte (h.engine _ _ _ _ _ _ h1)).andThen fun _ s2 _ h2 => ?_
  refine (h.readByte (h.engine _ _ _ _ _ _ h2)).andThen fun _ s3 _ h3 => ?_
  exact (h.setLine (h.engine _ _ _ _ _ _ h3)).andThen fun _ s4 _ h4 => h.engine _ _ _ _ _ _ h4

theorem writeSteps (h : Kept P H) {ps : List (Byte × Byte)} {k : BitVec 4} {s : State} (hs : P s) :
    (writeSteps k ps s).Ends (fun _ => P) H := by
  induction ps generalizing k s with
  | nil => exact hs
  | cons q ps ih =>
    exact (h.writeRegister (h.engine _ _ _ _ _ _ hs)).andThen fun _ s1 _ h1 => ih h1

theorem readSteps (h : Kept P H) {as : List Byte} {k : BitVec 4} {s : State} (hs : P s) :
    (readSteps k as s).Ends (fun _ => P) H := by
  induction as generalizing k s with
  | nil => exact hs
  | cons a as ih =>
    exact (h.readRegister (h.engine _ _ _ _ _ _ hs)).andThen fun _ s1 _ h1 =>
      (ih h1).andThen fun _ s2 _ h2 => h2

theorem initLines (h : Kept P H) {s : State} (hs : P s) : (initLines s).Ends (fun _ => P) H := by
  unfold Machine.initLines
  refine (h.cfgLine (fun e => by cases e) hs).andThen fun _ s1 _ h1 => ?_
  refine (h.cfgLine (fun e => by cases e) h1).andThen fun _ s2 _ h2 => ?_
  refine (h.cfgLine (fun e => by cases e) h2).andThen fun _ s3 _ h3 => ?_
  refine (h.setLine h3).andThen fun _ s4 _ h4 => ?_
  exact (h.setLine h4).andThen fun _ s5 _ h5 => h.setLine h5

/-- What `finish` makes of it. -/
theorem finish {m : Run (BitVec 56)} {t : State} (h : finish m = .next t) (hm : m.Ends (fun _ => P) H) :
    (∃ p u, P u ∧ t = respond p u) ∨ H t := by
  rcases finish_eq_next h with ⟨p, u, rfl, rfl⟩ | rfl
  · exact .inl ⟨p, u, hm, rfl⟩
  · exact .inr hm

theorem wireCommand (h : Kept P H) {b : Byte} {s t : State} (hs : P s) (he : wireCommand b s = .next t) :
    (∃ p u, P u ∧ t = respond p u) ∨ H t := by
  unfold Machine.wireCommand at he
  split at he
  · cases he
  split at he
  · cases he
  exact finish he ((h.writeByte (h.engine _ _ _ _ _ _ hs)).andThen fun _ s1 _ h1 => h.engine _ _ _ _ _ _ h1)

/-- Every operation, answered from a state with `P`, ends in `P` with its response written, or in `H`. -/
theorem exec (h : Kept P H) {i : Instr} {s t : State} (hs : P s) (he : exec i s = .next t) :
    (∃ p u, P u ∧ t = respond p u) ∨ H t := by
  cases i with
  | init =>
    simp only [Machine.exec, execInit] at he
    split at he
    · exact .inl ⟨_, s, hs, by simpa using he.symm⟩
    · exact finish he ((h.initLines hs).andThen fun _ _ _ h1 => h1)
  | settime x =>
    simp only [Machine.exec, execSettime] at he
    split at he
    · exact .inl ⟨_, s, hs, by simpa using he.symm⟩
    split at he
    · cases he
    split at he
    · cases he
    exact finish he ((h.writeSteps hs).andThen fun _ _ _ h1 => h.engine _ _ _ _ _ _ h1)
  | readtime =>
    simp only [Machine.exec, execReadtime] at he
    split at he
    · exact .inl ⟨_, s, hs, by simpa using he.symm⟩
    split at he
    · cases he
    exact finish he ((h.readSteps hs).andThen fun _ _ _ h1 => h.engine _ _ _ _ _ _ h1)
  | wrreg a v =>
    simp only [Machine.exec, execWrreg] at he
    split at he
    · cases he
    split at he
    · cases he
    split at he
    · cases he
    exact finish he ((h.writeRegister hs).andThen fun _ _ _ h1 => h1)
  | rdreg a =>
    simp only [Machine.exec, execRdreg] at he
    split at he
    · cases he
    split at he
    · cases he
    split at he
    · cases he
    exact finish he ((h.readRegister hs).andThen fun _ _ _ h1 => h1)
  | cehi =>
    simp only [Machine.exec, execCehi] at he
    split at he
    · cases he
    split at he
    · cases he
    exact finish he ((h.setLine hs).andThen fun _ _ _ h1 => h1)
  | celo =>
    simp only [Machine.exec, execCelo] at he
    split at he
    · cases he
    split at he
    · cases he
    exact finish he ((h.setLine hs).andThen fun _ _ _ h1 => h1)
  | wrbyte v =>
    simp only [Machine.exec, execWrbyte] at he
    split at he
    · cases he
    split at he
    · cases he
    exact finish he ((h.writeByte hs).andThen fun _ _ _ h1 => h1)
  | rdbyte =>
    simp only [Machine.exec, execRdbyte] at he
    split at he
    · cases he
    split at he
    · cases he
    exact finish he ((h.readByte hs).andThen fun _ _ _ h1 => h1)
  | bcd2dec b => exact .inl ⟨_, s, hs, by simpa [Machine.exec, execBcd2dec] using he.symm⟩
  | dec2bcd d => exact .inl ⟨_, s, hs, by simpa [Machine.exec, execDec2bcd] using he.symm⟩
  | cfgline l d =>
    simp only [Machine.exec, execCfgline] at he
    split at he
    · cases he
    split at he
    · cases he
    · rename_i hc
      refine finish he ((h.cfgLine ?_ hs).andThen fun _ _ _ h1 => h1)
      rintro rfl
      revert hc
      cases l <;> decide
  | sethi l =>
    simp only [Machine.exec, execSethi] at he
    split at he
    · cases he
    split at he
    · cases he
    exact finish he ((h.setLine hs).andThen fun _ _ _ h1 => h1)
  | setlo l =>
    simp only [Machine.exec, execSetlo] at he
    split at he
    · cases he
    split at he
    · cases he
    exact finish he ((h.setLine hs).andThen fun _ _ _ h1 => h1)
  | rdlvl l =>
    simp only [Machine.exec, execRdlvl] at he
    split at he
    · cases he
    split at he
    · cases he
    exact finish he ((h.sample hs).andThen fun _ _ _ h1 => h1)
  | sleep d =>
    simp only [Machine.exec, execSleep] at he
    split at he
    · cases he
    exact finish he ((h.sleep hs).andThen fun _ _ _ h1 => h1)
  | secW => exact h.wireCommand hs he
  | secR => exact h.wireCommand hs he
  | minW => exact h.wireCommand hs he
  | minR => exact h.wireCommand hs he
  | hourW => exact h.wireCommand hs he
  | hourR => exact h.wireCommand hs he
  | dateW => exact h.wireCommand hs he
  | dateR => exact h.wireCommand hs he
  | monthW => exact h.wireCommand hs he
  | monthR => exact h.wireCommand hs he
  | dayW => exact h.wireCommand hs he
  | dayR => exact h.wireCommand hs he
  | yearW => exact h.wireCommand hs he
  | yearR => exact h.wireCommand hs he
  | wpW => exact h.wireCommand hs he
  | wpR => exact h.wireCommand hs he

end Kept
end Sys2Proof.Machine
end

