-- ==== Sys2Proof/Laws/Done.lean ====
section
/-! SUPPORT. Inversion of `exec`: an instruction that is answered without a fault has passed its checks and ends in its
closed form, whatever is wired. -/

namespace Sys2Proof.Machine

/-- Whatever halts has entered the fault. -/
theorem keptFault : Kept (fun _ => True) (fun s => s.fault = true) where
  cfgOut _ _ _ := trivial
  cfgIn _ _ := trivial
  setTo _ _ _ _ _ _ := trivial
  slept _ _ _ := trivial
  sampled _ _ _ _ _ _ _ := trivial
  engine _ _ _ _ _ _ _ := trivial
  count _ _ _ _ := trivial
  faulted _ _ _ _ := rfl

/-- Whatever `finish` answers without a fault was done. -/
theorem finish_next_done {m : Run (BitVec 56)} {t : State} (h : finish m = .next t) (hf : t.fault = false)
    (hm : m.Ends (fun _ _ => True) (fun s => s.fault = true)) : ∃ p u, m = .done p u ∧ t = respond p u := by
  rcases finish_eq_next h with h | rfl
  · exact h
  · exact absurd (hf.symm.trans hm) (by decide)

theorem cfgline_done {l : Line} {d : Dir} {s t : State} (h : exec (.cfgline l d) s = .next t) (hf : t.fault = false) :
    cfgPairOk l d = true ∧ t = respond 0 (if d = .out then s.cfgOut l else s.cfgIn l) := by
  simp only [exec, execCfgline] at h
  split at h
  · cases h
  split at h
  · cases h
  rename_i hc
  simp only [Bool.not_eq_true', Bool.not_eq_false] at hc
  have hio : d = .inp → l = .io := by rintro rfl; revert hc; cases l <;> decide
  obtain ⟨p, u, hm, rfl⟩ := finish_next_done h hf ((keptFault.cfgLine hio trivial).andThen fun _ _ _ _ => trivial)
  obtain ⟨_, s1, h1, h2⟩ := Run.andThen_eq_done hm
  obtain ⟨rfl, rfl⟩ := Run.done.inj h2
  cases d with
  | out => obtain rfl := cfgOut_done h1; exact ⟨hc, rfl⟩
  | inp =>
    obtain rfl := hio rfl
    obtain rfl := cfgIn_done h1
    exact ⟨hc, rfl⟩

/-- What is done of a `Set` that is all of an operation. -/
theorem finish_setLine_done {l : Line} {b : Level} {s t : State}
    (h : finish ((setLine l b s).andThen fun _ s => .done 0 s) = .next t) (hf : t.fault = false) :
    ∃ p, Periph.observe (.set l b) s.io s.ce s.periph = .ok p ∧ t = respond 0 (s.setTo l b p) := by
  obtain ⟨p, u, hm, rfl⟩ := finish_next_done h hf ((keptFault.setLine trivial).andThen fun _ _ _ _ => trivial)
  obtain ⟨_, s1, h1, h2⟩ := Run.andThen_eq_done hm
  obtain ⟨rfl, rfl⟩ := Run.done.inj h2
  obtain ⟨p, hp, rfl⟩ := setLine_done h1
  exact ⟨p, hp, rfl⟩

theorem sethi_done {l : Line} {s t : State} (h : exec (.sethi l) s = .next t) (hf : t.fault = false) :
    (s.line l).mode = .out ∧
      ∃ p, Periph.observe (.set l true) s.io s.ce s.periph = .ok p ∧ t = respond 0 (s.setTo l true p) := by
  simp only [exec, execSethi] at h
  split at h
  · cases h
  split at h
  · cases h
  rename_i hc
  exact ⟨by simpa using hc, finish_setLine_done h hf⟩

theorem setlo_done {l : Line} {s t : State} (h : exec (.setlo l) s = .next t) (hf : t.fault = false) :
    (s.line l).mode = .out ∧
      ∃ p, Periph.observe (.set l false) s.io s.ce s.periph = .ok p ∧ t = respond 0 (s.setTo l false p) := by
  simp only [exec, execSetlo] at h
  split at h
  · cases h
  split at h
  · cases h
  rename_i hc
  exact ⟨by simpa using hc, finish_setLine_done h hf⟩

theorem cehi_done {s t : State} (h : exec .cehi s = .next t) (hf : t.fault = false) :
    gateReady s = true ∧ t = respond 0 (s.setTo .ce true s.periph.raised) := by
  simp only [exec, execCehi] at h
  split at h
  · cases h
  split at h
  · cases h
  rename_i hc
  obtain ⟨p, hp, rfl⟩ := finish_setLine_done h hf
  rw [Periph.observe_raised, Except.ok.injEq] at hp
  exact ⟨by simpa using hc, by rw [hp]⟩

theorem celo_done {s t : State} (h : exec .celo s = .next t) (hf : t.fault = false) :
    gateReady s = true ∧ betweenFrames s.periph = true ∧ t = respond 0 (s.setTo .ce false s.periph) := by
  simp only [exec, execCelo] at h
  split at h
  · cases h
  split at h
  · cases h
  rename_i hc
  obtain ⟨p, hp, rfl⟩ := finish_setLine_done h hf
  rw [Periph.observe_lower] at hp
  split at hp
  · rename_i hb
    rw [Except.ok.injEq] at hp
    exact ⟨by simpa using hc, hb, by rw [hp]⟩
  · cases hp

theorem rdlvl_done {l : Line} {s t : State} (h : exec (.rdlvl l) s = .next t) (hf : t.fault = false) :
    (s.line l).mode = .inp ∧ ∃ b p n, s.sampleNow = .ok (b, p, n) ∧ t = respond (bitPayload b) (s.sampled l b p n) := by
  simp only [exec, execRdlvl] at h
  split at h
  · cases h
  split at h
  · cases h
  rename_i hc
  obtain ⟨p, u, hm, rfl⟩ := finish_next_done h hf ((keptFault.sample trivial).andThen fun _ _ _ _ => trivial)
  obtain ⟨b, s1, h1, h2⟩ := Run.andThen_eq_done hm
  obtain ⟨rfl, rfl⟩ := Run.done.inj h2
  obtain ⟨q, n, hx, rfl⟩ := sample_done h1
  exact ⟨by simpa using hc, b, q, n, hx, rfl⟩

theorem sleep_exec_done {d : BitVec 16} {s t : State} (h : exec (.sleep d) s = .next t) (hf : t.fault = false) :
    t = respond 0 (s.slept d) := by
  simp only [exec, execSleep] at h
  split at h
  · cases h
  obtain ⟨p, u, hm, rfl⟩ := finish_next_done h hf ((keptFault.sleep trivial).andThen fun _ _ _ _ => trivial)
  obtain ⟨_, s1, h1, h2⟩ := Run.andThen_eq_done hm
  obtain ⟨rfl, rfl⟩ := Run.done.inj h2
  obtain rfl := sleep_done h1
  rfl

theorem wrbyte_done {v : Byte} {s t : State} (h : exec (.wrbyte v) s = .next t) (hf : t.fault = false) :
    transportReady s = true ∧
      ∃ p, clockBits (bitsOf v) s.ce s.periph = .ok p ∧ t = respond 0 (s.byteWritten v p) := by
  simp only [exec, execWrbyte] at h
  split at h
  · cases h
  split at h
  · cases h
  rename_i hc
  obtain ⟨p, u, hm, rfl⟩ := finish_next_done h hf ((keptFault.writeByte trivial).andThen fun _ _ _ _ => trivial)
  obtain ⟨_, s1, h1, h2⟩ := Run.andThen_eq_done hm
  obtain ⟨rfl, rfl⟩ := Run.done.inj h2
  obtain ⟨q, hq, rfl⟩ := writeByte_done h1
  exact ⟨by simpa using hc, q, hq, rfl⟩

theorem rdbyte_done {s t : State} (h : exec .rdbyte s = .next t) (hf : t.fault = false) :
    transportReady s = true ∧ ∃ r p n, t = respond (bytePayload r) (s.byteRead r p n) := by
  simp only [exec, execRdbyte] at h
  split at h
  · cases h
  split at h
  · cases h
  rename_i hc
  obtain ⟨p, u, hm, rfl⟩ := finish_next_done h hf ((keptFault.readByte trivial).andThen fun _ _ _ _ => trivial)
  obtain ⟨r, s1, h1, h2⟩ := Run.andThen_eq_done hm
  obtain ⟨rfl, rfl⟩ := Run.done.inj h2
  obtain ⟨q, n, rfl⟩ := readByte_done h1
  exact ⟨by simpa using hc, r, q, n, rfl⟩

theorem wireCommand_done {b : Byte} {s t : State} (h : wireCommand b s = .next t) (hf : t.fault = false) :
    transportReady s = true ∧
      ∃ p, t = respond 0 (((s.atTxn .addr).byteWritten b p).atTxn .none) := by
  simp only [wireCommand] at h
  split at h
  · cases h
  split at h
  · cases h
  rename_i hc
  obtain ⟨p, u, hm, rfl⟩ := finish_next_done h hf ((keptFault.writeByte trivial).andThen fun _ _ _ _ => trivial)
  obtain ⟨_, s1, h1, h2⟩ := Run.andThen_eq_done hm
  obtain ⟨rfl, rfl⟩ := Run.done.inj h2
  obtain ⟨q, -, rfl⟩ := writeByte_done h1
  exact ⟨by simpa using hc, q, rfl⟩

theorem wrreg_done {a v : Byte} {s t : State} (h : exec (.wrreg a v) s = .next t) (hf : t.fault = false) :
    onNull s = false ∧ isWriteAddr a = true ∧ idleState s = true ∧
      t = respond 0 (s.frameWritten a v (s.periph.framed a v)) := by
  simp only [exec, execWrreg] at h
  split at h
  · cases h
  rename_i hn
  split at h
  · cases h
  rename_i ha
  split at h
  · cases h
  rename_i hi
  simp only [Bool.not_eq_true', Bool.not_eq_false] at ha hi
  obtain ⟨p, u, hm, rfl⟩ := finish_next_done h hf ((keptFault.writeRegister trivial).andThen fun _ _ _ _ => trivial)
  obtain ⟨_, s1, h1, h2⟩ := Run.andThen_eq_done hm
  obtain ⟨rfl, rfl⟩ := Run.done.inj h2
  obtain rfl := writeRegister_done ha h1
  exact ⟨by simpa using hn, ha, hi, rfl⟩

theorem rdreg_done {a : Byte} {s t : State} (h : exec (.rdreg a) s = .next t) (hf : t.fault = false) :
    onNull s = false ∧ isReadAddr a = true ∧ idleState s = true ∧
      ∃ r p n, readRegister a s = .done r (s.frameRead a r p n) ∧ t = respond (bytePayload r) (s.frameRead a r p n) := by
  simp only [exec, execRdreg] at h
  split at h
  · cases h
  rename_i hn
  split at h
  · cases h
  rename_i ha
  split at h
  · cases h
  rename_i hi
  simp only [Bool.not_eq_true', Bool.not_eq_false] at ha hi
  obtain ⟨p, u, hm, rfl⟩ := finish_next_done h hf ((keptFault.readRegister trivial).andThen fun _ _ _ _ => trivial)
  obtain ⟨r, s1, h1, h2⟩ := Run.andThen_eq_done hm
  obtain ⟨rfl, rfl⟩ := Run.done.inj h2
  obtain ⟨q, n, rfl⟩ := readRegister_done h1
  exact ⟨by simpa using hn, ha, hi, r, q, n, h1, rfl⟩

theorem init_done {s t : State} (hn : onNull s = false) (h : exec .init s = .next t) (hf : t.fault = false) :
    betweenFrames s.periph = true ∧ t = respond 0 s.initialised := by
  rw [exec_init hn] at h
  obtain ⟨p, u, hm, rfl⟩ := finish_next_done h hf ((keptFault.initLines trivial).andThen fun _ _ _ _ => trivial)
  obtain ⟨_, s1, h1, h2⟩ := Run.andThen_eq_done hm
  obtain ⟨rfl, rfl⟩ := Run.done.inj h2
  obtain ⟨hb, rfl⟩ := initLines_done h1
  exact ⟨hb, rfl⟩

theorem settime_done {x : TimeValue} {s t : State} (hn : onNull s = false) (h : exec (.settime x) s = .next t)
    (hf : t.fault = false) :
    yearOk x.year = true ∧ idleState s = true ∧
      t = respond 0 ((State.stepsWritten 0 (setTimePairs x) s).atSeq 0) := by
  simp only [exec, execSettime, hn] at h
  split at h
  · rename_i hc; cases hc
  split at h
  · cases h
  rename_i hy
  split at h
  · cases h
  rename_i hi
  obtain ⟨p, u, hm, rfl⟩ := finish_next_done h hf ((keptFault.writeSteps trivial).andThen fun _ _ _ _ => trivial)
  obtain ⟨_, s1, h1, h2⟩ := Run.andThen_eq_done hm
  obtain ⟨rfl, rfl⟩ := Run.done.inj h2
  obtain rfl := writeSteps_done (setTimePairs_write x) h1
  exact ⟨by simpa using hy, by simpa using hi, rfl⟩

theorem readtime_done {s t : State} (hn : onNull s = false) (h : exec .readtime s = .next t) (hf : t.fault = false) :
    idleState s = true ∧ ∃ rs u, readSteps 0 readTimeAddrs s = .done rs u ∧
      t = respond (packTime (decodeTimeBytes rs)) (u.atSeq 0) := by
  simp only [exec, execReadtime, hn] at h
  split at h
  · rename_i hc; cases hc
  split at h
  · cases h
  rename_i hi
  obtain ⟨p, u, hm, rfl⟩ := finish_next_done h hf ((keptFault.readSteps trivial).andThen fun _ _ _ _ => trivial)
  obtain ⟨rs, s1, h1, h2⟩ := Run.andThen_eq_done hm
  obtain ⟨rfl, rfl⟩ := Run.done.inj h2
  exact ⟨by simpa using hi, rs, s1, h1, rfl⟩

end Sys2Proof.Machine
end

