-- ==== Sys2Proof/Laws/Precise.lean ====
section
/-! SUPPORT. The fault is precise for every operation, whatever is wired (R253): an operation that is done when no primitive
faults plays its events, and a fault leaves the engine where the faulting primitive stands. -/

namespace Sys2Proof.Machine

/-- The same state with other faults to come. -/
def State.withFaults (s : State) (l : List Nat) : State := { s with lineFaults := l }

/-- The same state with no fault to come. -/
def State.spared (s : State) : State := s.withFaults []

/-- The same state with the faults of `r` to come. -/
def State.armed (s r : State) : State := s.withFaults r.lineFaults

@[simp] theorem State.spared_faultsNow (s : State) : faultsNow s.spared = false := rfl

theorem State.armed_spared {s r : State} (h : s.lineFaults = []) : (s.armed r).spared = s := by
  cases s
  subst h
  rfl

/-- From every start, if `m` is done with no fault to come, then with the faults to come it plays the events of that run, one
primitive for each position of `ps`; a fault leaves the engine at the primitive's position, and the end is at `q`. Positions
are functions of the position at the start. -/
structure Precise {α : Type} (m : State → Run α) (ps : Position → List Position) (q : Position → Position) : Prop where
  goesOn : ∀ (s : State) u, m s.spared ≠ .halted u
  spared : ∀ (s : State) a u, m s.spared = .done a u → u.lineFaults = [] ∧ u.position = q s.position
  plays : ∀ (s : State) a u, m s.spared = .done a u → ∃ es, es.length = (ps s.position).length ∧ Plays s (m s) es a (u.armed s) ∧
    ∀ j t, faultsFirstAt s j → j < es.length → m s = .halted t → (ps s.position)[j]? = some t.position

/-- A pure end. -/
theorem Precise.done {α : Type} (a : α) (f : State → State) (q : Position → Position)
    (hl : ∀ s l, f (State.withFaults s l) = (f s).withFaults l) (hp : ∀ s, (f s).position = q s.position)
    (hn : ∀ s, (f s).prims = s.prims) (ht : ∀ s, (f s).trace = s.trace) :
    Precise (fun s => .done a (f s)) (fun _ => []) q where
  goesOn s u h := by cases h
  spared s b u h := by
    obtain ⟨-, rfl⟩ := Run.done.inj h
    exact ⟨by rw [State.spared, hl]; rfl, by rw [hp]; rfl⟩
  plays s b u h := by
    obtain ⟨rfl, rfl⟩ := Run.done.inj h
    have hs : f s = (f s).withFaults s.lineFaults := hl s s.lineFaults
    refine ⟨[], rfl, Plays.ends a ?_ (hn s) (congrArg State.lineFaults hs :) (ht s), fun j t _ hj => by cases hj⟩
    rw [State.spared, hl]
    exact hs

/-- A move of the engine that comes before a part. -/
theorem Precise.after {α : Type} {m : State → Run α} {ps : Position → List Position} {q : Position → Position}
    (h : Precise m ps q) (g : State → State) (c : Position → Position)
    (hl : ∀ s l, g (State.withFaults s l) = (g s).withFaults l) (hp : ∀ s, (g s).position = c s.position)
    (hn : ∀ s, (g s).prims = s.prims) (ht : ∀ s, (g s).trace = s.trace) :
    Precise (fun s => m (g s)) (fun x => ps (c x)) (fun x => q (c x)) where
  goesOn s u e := h.goesOn (g s) u (by rw [← e]; exact congrArg m (hl s []).symm)
  spared s a u e := by
    have := h.spared (g s) a u (by rw [← e]; exact congrArg m (hl s []).symm)
    rw [hp] at this
    exact this
  plays s a u e := by
    have hs : g s = (g s).withFaults s.lineFaults := hl s s.lineFaults
    have hg : (g s).lineFaults = s.lineFaults := (congrArg State.lineFaults hs :)
    obtain ⟨es, h1, h2, h3⟩ := h.plays (g s) a u (by rw [← e]; exact congrArg m (hl s []).symm)
    rw [hp] at h1 h3
    refine ⟨es, h1, (h2.of_start (hn s) hg (ht s)).cast rfl rfl (by simp only [State.armed, hg]), fun j t hj => h3 j t ?_⟩
    exact ⟨(faultFree_congr (hn s) hg).2 hj.1, by rw [hn, hg]; exact hj.2⟩

/-- One part after another. -/
theorem Precise.andThen {α β : Type} {m : State → Run α} {f : α → State → Run β} {ps ps' : Position → List Position}
    {q q' : Position → Position} (h : Precise m ps q) (hf : ∀ a, Precise (f a) ps' q') :
    Precise (fun s => (m s).andThen f) (fun x => ps x ++ ps' (q x)) (fun x => q' (q x)) where
  goesOn s u e := by
    rcases Run.andThen_eq_halted e with e | ⟨a, s1, e1, e2⟩
    · exact h.goesOn s u e
    · exact (hf a).goesOn (s1.armed s) u (by rw [State.armed_spared (h.spared s a s1 e1).1]; exact e2)
  spared s b u e := by
    obtain ⟨a, s1, e1, e2⟩ := Run.andThen_eq_done e
    obtain ⟨l1, p1⟩ := h.spared s a s1 e1
    have := (hf a).spared (s1.armed s) b u (by rw [State.armed_spared l1]; exact e2)
    refine ⟨this.1, this.2.trans ?_⟩
    rw [← p1]
    rfl
  plays s b u e := by
    obtain ⟨a, s1, e1, e2⟩ := Run.andThen_eq_done e
    obtain ⟨l1, p1⟩ := h.spared s a s1 e1
    obtain ⟨es1, n1, g1, c1⟩ := h.plays s a s1 e1
    obtain ⟨es2, n2, g2, c2⟩ := (hf a).plays (s1.armed s) b u (by rw [State.armed_spared l1]; exact e2)
    have pq : (s1.armed s).position = q s.position := p1
    rw [pq] at n2 c2
    refine ⟨es1 ++ es2, by simp only [List.length_append, n1, n2], g1.andThen g2, fun j t hj hlt ht => ?_⟩
    by_cases h1 : j < es1.length
    · rw [List.getElem?_append_left (by omega)]
      obtain ⟨u1, hu, -⟩ := g1.faults j _ hj (List.getElem?_eq_getElem h1)
      refine c1 j t hj h1 ?_
      rw [hu, Run.andThen_halted] at ht
      rw [hu, ← Run.halted.inj ht]
    · rw [List.getElem?_append_right (by omega)]
      rw [g1.runs (faultFree_mono hj.1 (by omega)), Run.andThen_done] at ht
      rw [← n1]
      refine c2 (j - es1.length) t ⟨?_, ?_⟩ (by rw [List.length_append] at hlt; omega) ht
      · apply faultFree_append (m := es1.length) _ g1.prims g1.lineFaults
        rw [Nat.add_sub_cancel' (by omega)]
        exact hj.1
      · rw [g1.prims, g1.lineFaults, Nat.add_assoc, Nat.add_sub_cancel' (by omega)]
        exact hj.2

/-- One attempt of a primitive, which leaves the engine where it stands. -/
theorem Precise.attempt {α : Type} {l : Option Line} {p : Primitive} {m : State → Run α}
    {body : State → State → Run α} (hm : ∀ s, m s = Machine.attempt l p s (body s))
    (hb : ∀ s t u, body s t ≠ .halted u)
    (h : ∀ s a u, body s.spared { s.spared with prims := s.prims + 1 } = .done a u →
      u.lineFaults = [] ∧ u.position = s.position ∧
        body s { s with prims := s.prims + 1 } = .done a (u.armed s) ∧ u.prims = s.prims + 1 ∧
        ∃ e, primitiveOf e = (l, p) ∧ u.trace = s.trace ++ [e]) :
    Precise m (fun x => [x]) id where
  goesOn s u e := by
    rw [hm] at e
    exact hb _ _ u e
  spared s a u e := by
    rw [hm] at e
    have := h s a u (attempt_eq_done e).2
    exact ⟨this.1, this.2.1⟩
  plays s a u e := by
    rw [hm] at e
    obtain ⟨-, -, hb, hn, ev, hp, ht⟩ := h s a u (attempt_eq_done e).2
    refine ⟨[ev], rfl, ?_, fun j t hj hlt hh => ?_⟩
    · rw [hm]
      exact Plays.attempt hp hb hn rfl ht
    · obtain rfl : j = 0 := Nat.lt_one_iff.1 hlt
      rw [hm, Machine.attempt, if_pos (faultsFirstAt_zero.1 hj)] at hh
      rw [← Run.halted.inj hh]
      rfl

/-- What `Precise` says of an operation: the fault's entry at the `j`-th primitive of the events the operation would append. -/
theorem Precise.finish {m : State → Run (BitVec 56)} {ps : Position → List Position} {q : Position → Position}
    (h : Precise m ps q) {s u : State} {es : List Event} {j : Nat} {e : Event} (hu : finish (m s.spared) = .next u)
    (ht : u.trace = s.trace ++ es) (hj : faultsFirstAt s j) (he : es[j]? = some e) :
    ∃ t, Machine.finish (m s) = .next t ∧ FaultedAt s es j e t ∧ (ps s.position)[j]? = some t.position := by
  rcases finish_eq_next hu with ⟨p, v, hv, rfl⟩ | hv
  · obtain ⟨es', -, h2, h3⟩ := h.plays s p v hv
    obtain rfl : es' = es := List.append_cancel_left (h2.trace.symm.trans ht)
    obtain ⟨t, h4, h5⟩ := h2.faults j e hj he
    exact ⟨t, by rw [h4]; rfl, h5, h3 j t hj (List.getElem?_eq_some_iff.1 he).1 h4⟩
  · exact absurd hv (h.goesOn s u)

/-! ### The primitives -/

theorem precise_cfgLine (l : Line) (d : Dir) : Precise (cfgLine l d) (fun x => [x]) id := by
  cases d with
  | out =>
    refine Precise.attempt (cfgLine_out l) (fun _ _ _ e => by cases e) fun s a u e => ?_
    obtain ⟨-, rfl⟩ := Run.done.inj e
    cases l <;> exact ⟨rfl, rfl, rfl, rfl, _, rfl, rfl⟩
  | inp =>
    refine Precise.attempt (cfgLine_in l) (fun _ _ _ e => by cases e) fun s a u e => ?_
    obtain ⟨-, rfl⟩ := Run.done.inj e
    cases l <;> exact ⟨rfl, rfl, rfl, rfl, _, rfl, rfl⟩

theorem precise_setLine (l : Line) (b : Level) : Precise (setLine l b) (fun x => [x]) id := by
  refine Precise.attempt (setLine_eq l b) (fun _ _ _ e => by split at e <;> cases e) fun s a u e => ?_
  change (match Periph.observe (.set l b) s.io s.ce s.periph with
    | .ok p => Run.done () (s.spared.setTo l b p)
    | .error r => .refused r) = .done a u at e
  cases ho : Periph.observe (.set l b) s.io s.ce s.periph with
  | ok p =>
    rw [ho] at e
    obtain ⟨-, rfl⟩ := Run.done.inj e
    cases l <;> exact ⟨rfl, rfl, rfl, rfl, _, rfl, rfl⟩
  | error r => rw [ho] at e; cases e

theorem precise_sleep (d : BitVec 16) : Precise (sleepMicros d) (fun x => [x]) id := by
  refine Precise.attempt (sleepMicros_eq d) (fun _ _ _ e => by cases e) fun s a u e => ?_
  obtain ⟨-, rfl⟩ := Run.done.inj e
  exact ⟨rfl, rfl, rfl, rfl, _, rfl, rfl⟩

theorem precise_sample (l : Line) : Precise (sampleLine l) (fun x => [x]) id := by
  refine Precise.attempt (sampleLine_eq l) (fun _ _ _ e => by split at e <;> cases e) fun s a u e => ?_
  change (match s.sampleNow with
    | .ok (b, p, n) => Run.done b (s.spared.sampled l b p n)
    | .error r => .refused r) = .done a u at e
  cases ho : s.sampleNow with
  | ok x =>
    obtain ⟨b, p, n⟩ := x
    rw [ho] at e
    obtain ⟨rfl, rfl⟩ := Run.done.inj e
    exact ⟨rfl, rfl, rfl, rfl, _, rfl, rfl⟩
  | error r => rw [ho] at e; cases e

/-! ### The engine's moves -/

/-- A part that starts once the engine has moved to phase `p`. -/
theorem Precise.atPhase {α : Type} {m : State → Run α} {ps : Position → List Position} {q : Position → Position}
    (h : Precise m ps q) (p : Phase) :
    Precise (fun s => m (s.atPhase p)) (fun x => ps { x with ph := p }) (fun x => q { x with ph := p }) :=
  h.after (·.atPhase p) (fun x => { x with ph := p }) (fun _ _ => rfl) (fun _ => rfl) (fun _ => rfl) (fun _ => rfl)

/-- A part that starts once the engine has moved to part `x` of a transaction. -/
theorem Precise.atTxn {α : Type} {m : State → Run α} {ps : Position → List Position} {q : Position → Position}
    (h : Precise m ps q) (t : Txn) :
    Precise (fun s => m (s.atTxn t)) (fun x => ps { x with txn := t }) (fun x => q { x with txn := t }) :=
  h.after (·.atTxn t) (fun x => { x with txn := t }) (fun _ _ => rfl) (fun _ => rfl) (fun _ => rfl) (fun _ => rfl)

/-- A part that starts once the engine has moved to step `k` of a facade sequence. -/
theorem Precise.atSeq {α : Type} {m : State → Run α} {ps : Position → List Position} {q : Position → Position}
    (h : Precise m ps q) (k : BitVec 4) :
    Precise (fun s => m (s.atSeq k)) (fun x => ps { x with seq := k }) (fun x => q { x with seq := k }) :=
  h.after (·.atSeq k) (fun x => { x with seq := k }) (fun _ _ => rfl) (fun _ => rfl) (fun _ => rfl) (fun _ => rfl)

/-- A part that starts once the timer is loaded and the engine has moved to phase `p`. -/
theorem Precise.timed {α : Type} {m : State → Run α} {ps : Position → List Position} {q : Position → Position}
    (h : Precise m ps q) (p : Phase) :
    Precise (fun s => m (s.loadTimer.atPhase p)) (fun x => ps { x with ph := p }) (fun x => q { x with ph := p }) :=
  h.after (·.loadTimer.atPhase p) (fun x => { x with ph := p }) (fun _ _ => rfl) (fun _ => rfl) (fun _ => rfl) (fun _ => rfl)

/-! ### Bytes -/

/-- The positions of a write cell. -/
def writeCellAt (x : Position) : List Position := [Phase.wData, .wRise, .wHi, .wFall, .wLo].map fun p => { x with ph := p }

/-- The positions of a read cell. -/
def readCellAt (x : Position) : List Position := [Phase.rRise, .rHi, .rSamp, .rFall, .rLo].map fun p => { x with ph := p }

theorem precise_writeCell (b : Level) : Precise (writeCell b) writeCellAt (fun x => { x with ph := .wLo }) :=
  ((precise_setLine .io b).atPhase .wData).andThen fun _ =>
  ((precise_setLine .clk true).atPhase .wRise).andThen fun _ =>
  ((precise_sleep Config.delayUs).timed .wHi).andThen fun _ =>
  ((precise_setLine .clk false).atPhase .wFall).andThen fun _ =>
  ((precise_sleep Config.delayUs).timed .wLo).andThen fun _ =>
  Precise.done () State.endWriteCell id (fun _ _ => rfl) (fun _ => rfl) (fun _ => rfl) (fun _ => rfl)

theorem precise_readCell : Precise readCell readCellAt (fun x => { x with ph := .rLo }) :=
  ((precise_setLine .clk true).atPhase .rRise).andThen fun _ =>
  ((precise_sleep Config.delayUs).timed .rHi).andThen fun _ =>
  ((precise_sample .io).atPhase .rSamp).andThen fun b =>
  (((precise_setLine .clk false).atPhase .rFall).after (·.shiftSample b) id (fun _ _ => rfl) (fun _ => rfl) (fun _ => rfl)
    (fun _ => rfl)).andThen fun _ =>
  ((precise_sleep Config.delayUs).timed .rLo).andThen fun _ =>
  Precise.done b State.endReadCell id (fun _ _ => rfl) (fun _ => rfl) (fun _ => rfl) (fun _ => rfl)

/-- The positions and the end may be written in another form. -/
theorem Precise.cast {α : Type} {m : State → Run α} {ps ps' : Position → List Position} {q q' : Position → Position}
    (h : Precise m ps q) (hp : ∀ x, ps x = ps' x) (hq : ∀ x, q x = q' x) : Precise m ps' q' := by
  rw [← funext hp, ← funext hq]
  exact h

theorem precise_writeByte (v : Byte) :
    Precise (writeByte v) (fun x => writeByteAt x.txn x.seq) (fun x => { x with ph := .idle }) := by
  have hd : Precise (fun s => Run.done () s) (fun _ => []) id :=
    Precise.done () id id (fun _ _ => rfl) (fun _ => rfl) (fun _ => rfl) (fun _ => rfl)
  have cells := (precise_writeCell (v.getLsbD 0)).andThen fun _ => (precise_writeCell (v.getLsbD 1)).andThen fun _ =>
    (precise_writeCell (v.getLsbD 2)).andThen fun _ => (precise_writeCell (v.getLsbD 3)).andThen fun _ =>
    (precise_writeCell (v.getLsbD 4)).andThen fun _ => (precise_writeCell (v.getLsbD 5)).andThen fun _ =>
    (precise_writeCell (v.getLsbD 6)).andThen fun _ => (precise_writeCell (v.getLsbD 7)).andThen fun _ => hd
  exact ((((precise_cfgLine .io .out).after (·.loadWrite v) (fun x => { x with ph := .wCfg }) (fun _ _ => rfl)
    (fun _ => rfl) (fun _ => rfl) (fun _ => rfl)).andThen fun _ => cells.andThen fun _ =>
    Precise.done () (·.atPhase .idle) (fun x => { x with ph := .idle }) (fun _ _ => rfl) (fun _ => rfl) (fun _ => rfl)
      (fun _ => rfl))).cast (fun _ => rfl) (fun _ => rfl)

theorem precise_readByte :
    Precise readByte (fun x => readByteAt x.txn x.seq) (fun x => { x with ph := .idle }) := by
  have cells : Precise (readCells [0, 1, 2, 3, 4, 5, 6, 7] 0) _ _ :=
    precise_readCell.andThen fun b0 => precise_readCell.andThen fun b1 =>
    precise_readCell.andThen fun b2 => precise_readCell.andThen fun b3 =>
    precise_readCell.andThen fun b4 => precise_readCell.andThen fun b5 =>
    precise_readCell.andThen fun b6 => precise_readCell.andThen fun b7 =>
    Precise.done (orBit (orBit (orBit (orBit (orBit (orBit (orBit (orBit 0 0 b0) 1 b1) 2 b2) 3 b3) 4 b4) 5 b5) 6 b6) 7 b7)
      id id (fun _ _ => rfl) (fun _ => rfl) (fun _ => rfl) (fun _ => rfl)
  exact ((((precise_cfgLine .io .inp).after State.loadRead (fun x => { x with ph := .rCfg }) (fun _ _ => rfl)
    (fun _ => rfl) (fun _ => rfl) (fun _ => rfl)).andThen fun _ => cells.andThen fun r =>
    Precise.done r (·.atPhase .idle) (fun x => { x with ph := .idle }) (fun _ _ => rfl) (fun _ => rfl) (fun _ => rfl)
      (fun _ => rfl))).cast (fun _ => rfl) (fun _ => rfl)

/-! ### Transactions and facade sequences -/

theorem precise_writeRegister (a v : Byte) :
    Precise (writeRegister a v) (fun x => ⟨x.ph, .ceHi, x.seq⟩ :: (writeFrameAt x.seq).tail) (fun x => ⟨.idle, .none, x.seq⟩) :=
  (((precise_setLine .ce true).atTxn .ceHi).andThen fun _ =>
    ((precise_writeByte a).atTxn .addr).andThen fun _ =>
    ((precise_writeByte v).atTxn .data).andThen fun _ =>
    ((precise_setLine .ce false).atTxn .ceLo).andThen fun _ =>
    Precise.done () (·.atTxn .none) (fun x => { x with txn := .none }) (fun _ _ => rfl) (fun _ => rfl) (fun _ => rfl)
      (fun _ => rfl)).cast (fun _ => rfl) (fun _ => rfl)

theorem precise_readRegister (a : Byte) :
    Precise (readRegister a) (fun x => ⟨x.ph, .ceHi, x.seq⟩ :: (readFrameAt x.seq).tail) (fun x => ⟨.idle, .none, x.seq⟩) :=
  (((precise_setLine .ce true).atTxn .ceHi).andThen fun _ =>
    ((precise_writeByte a).atTxn .addr).andThen fun _ =>
    (precise_readByte.atTxn .data).andThen fun r =>
    ((precise_setLine .ce false).atTxn .ceLo).andThen fun _ =>
    Precise.done r (·.atTxn .none) (fun x => { x with txn := .none }) (fun _ _ => rfl) (fun _ => rfl) (fun _ => rfl)
      (fun _ => rfl)).cast (fun _ => rfl) (fun _ => rfl)

theorem precise_initLines : Precise initLines (fun x => List.replicate 6 x) id :=
  (precise_cfgLine .clk .out).andThen fun _ => (precise_cfgLine .io .out).andThen fun _ =>
  (precise_cfgLine .ce .out).andThen fun _ => (precise_setLine .clk false).andThen fun _ =>
  (precise_setLine .io false).andThen fun _ => precise_setLine .ce false

/-- The positions of `n` frames from step `k` on; only the first depends on the phase at the start. -/
def framesAt (frame : BitVec 4 → List Position) : BitVec 4 → Nat → Phase → List Position
  | _, 0, _ => []
  | k, n + 1, p => (⟨p, .ceHi, k⟩ :: (frame k).tail) ++ framesAt frame (k + 1) n .idle

/-- Where `n` transactions from step `k` on leave the engine. -/
def afterFrames : BitVec 4 → Nat → Position → Position
  | _, 0, x => x
  | k, n + 1, _ => afterFrames (k + 1) n ⟨.idle, .none, k⟩

theorem precise_writeSteps (qs : List (Byte × Byte)) (k : BitVec 4) :
    Precise (writeSteps k qs) (fun x => framesAt writeFrameAt k qs.length x.ph) (afterFrames k qs.length) := by
  induction qs generalizing k with
  | nil => exact Precise.done () id id (fun _ _ => rfl) (fun _ => rfl) (fun _ => rfl) (fun _ => rfl)
  | cons q qs ih =>
    exact (((precise_writeRegister q.1 q.2).atSeq k).andThen fun _ => ih (k + 1)).cast (fun _ => rfl) (fun _ => rfl)

theorem precise_readSteps (as : List Byte) (k : BitVec 4) :
    Precise (readSteps k as) (fun x => framesAt readFrameAt k as.length x.ph) (afterFrames k as.length) := by
  induction as generalizing k with
  | nil => exact Precise.done [] id id (fun _ _ => rfl) (fun _ => rfl) (fun _ => rfl) (fun _ => rfl)
  | cons a as ih =>
    exact (((precise_readRegister a).atSeq k).andThen fun r => (ih (k + 1)).andThen fun rs =>
      Precise.done (r :: rs) id id (fun _ _ => rfl) (fun _ => rfl) (fun _ => rfl) (fun _ => rfl)).cast
      (fun x => by simp only [List.append_nil]; rfl) (fun _ => rfl)

end Sys2Proof.Machine
end

