-- ==== Sys2Proof/Tests/Slice0.lean ====
section
/-! SUPPORT. The model's own tests. Expected values are those of spec/95_test_vectors.md (V and S numbers) and of the
encodings of spec/30_encoding.md; the witnesses at the end meet the hypotheses of the obligations. -/

namespace Sys2Proof.Tests

set_option Elab.async false

open Sys2Proof.Machine

/-! ### Small states -/

/-- After INIT: the idle state of R180. -/
def idle : State :=
  { State.reset with clk := ⟨.out, false⟩, io := ⟨.out, false⟩, ce := ⟨.out, false⟩ }

/-- After INIT and CEHI: the transport's precondition holds (R150). -/
def selected : State := { idle with ce := ⟨.out, true⟩ }

/-- `P_store` with some rows. -/
def store (m : Memory) (n : Nat) (cmd : Byte) : PStore := { store := m, n := n, cmd := cmd, dat := 0 }

/-- A state wired to an oracle that gives these answers in order. -/
def scripted (s : State) (bs : List Level) : State := { s with periph := .oracle { answers := [], script := bs } }

/-- The null backend. -/
def nullBlock : State :=
  { State.reset with cfg := { Config.defaultParams with backend := .null, contract := by decide } }

/-- A state wired to `P_store`. -/
def wired (s : State) (p : PStore) : State := { s with periph := .store p }

/-- The next state of an outcome has a property. -/
def nextHas (o : Host.Outcome State Fault Refusal) (p : State → Bool) : Bool :=
  match o with
  | .next s => p s
  | .fault _ => false
  | .refused _ => false

/-- The outcome is a refusal with the reason. -/
def refusedBy (o : Host.Outcome State Fault Refusal) (r : Refusal) : Bool :=
  match o with
  | .next _ => false
  | .fault _ => false
  | .refused q => q == r

/-- One step on a command word. -/
def answer (w : Nat) (s : State) (p : State → Bool) : Bool := nextHas (step (s.withFetchWord 64 w)) p

/-- With no fault drawn no primitive faults. -/
theorem faultFree_none {s : State} (h : s.lineFaults = []) (n : Nat) : faultFree s n := by
  intro i _
  rw [h]
  simp

/-! ### WellFormed smoke: an ill-formed term for each check -/

theorem test_illFormed_year_low : Instr.wellFormed (.settime ⟨1999, 12, 31, 23, 59, 59⟩) = false := by decide
theorem test_illFormed_year_high : Instr.wellFormed (.settime ⟨2100, 1, 1, 0, 0, 0⟩) = false := by decide
theorem test_illFormed_wrreg : Instr.wellFormed (.wrreg 0x81 0) = false := by decide
theorem test_illFormed_rdreg : Instr.wellFormed (.rdreg 0x80) = false := by decide
theorem test_illFormed_cfgline_clk : Instr.wellFormed (.cfgline .clk .inp) = false := by decide
theorem test_illFormed_cfgline_ce : Instr.wellFormed (.cfgline .ce .inp) = false := by decide
theorem test_wellFormed_bounds :
    (Instr.wellFormed (.settime ⟨2000, 1, 1, 0, 0, 0⟩) && Instr.wellFormed (.settime ⟨2099, 12, 31, 23, 59, 59⟩) &&
      Instr.wellFormed (.wrreg 0x8E 0) && Instr.wellFormed (.rdreg 0x8F) && Instr.wellFormed (.cfgline .io .inp)) = true := by
  decide

/-! ### Decoding: a word of the spec for every constructor (V1; the bytes of R93) -/

theorem test_decode_init : decodeTableWord 64 0x0100000000000000 = some (.init) := by decide +kernel
theorem test_decode_settime : decodeTableWord 64 0x0208330C1F173B3B = some (.settime ⟨2099, 12, 31, 23, 59, 59⟩) := by decide +kernel
theorem test_decode_readtime : decodeTableWord 64 0x0300000000000000 = some (.readtime) := by decide +kernel
theorem test_decode_wrreg : decodeTableWord 64 0x1000000000008A03 = some (.wrreg 0x8A 0x03) := by decide +kernel
theorem test_decode_rdreg : decodeTableWord 64 0x110000000000008F = some (.rdreg 0x8F) := by decide +kernel
theorem test_decode_cehi : decodeTableWord 64 0x1200000000000000 = some (.cehi) := by decide +kernel
theorem test_decode_celo : decodeTableWord 64 0x1300000000000000 = some (.celo) := by decide +kernel
theorem test_decode_wrbyte : decodeTableWord 64 0x200000000000008E = some (.wrbyte 0x8E) := by decide +kernel
theorem test_decode_rdbyte : decodeTableWord 64 0x2100000000000000 = some (.rdbyte) := by decide +kernel
theorem test_decode_bcd2dec : decodeTableWord 64 0x3000000000000059 = some (.bcd2dec 0x59) := by decide +kernel
theorem test_decode_dec2bcd : decodeTableWord 64 0x310000000000002D = some (.dec2bcd 45) := by decide +kernel
theorem test_decode_cfgline : decodeTableWord 64 0x4000000000000101 = some (.cfgline .io .inp) := by decide +kernel
theorem test_decode_sethi : decodeTableWord 64 0x4100000000000200 = some (.sethi .ce) := by decide +kernel
theorem test_decode_setlo : decodeTableWord 64 0x4200000000000100 = some (.setlo .io) := by decide +kernel
theorem test_decode_rdlvl : decodeTableWord 64 0x4300000000000100 = some (.rdlvl .io) := by decide +kernel
theorem test_decode_sleep : decodeTableWord 64 0x440000000000FFFF = some (.sleep 65535) := by decide +kernel

theorem test_decode_wire :
    [0x80, 0x81, 0x82, 0x83, 0x84, 0x85, 0x86, 0x87].map (decodeTableWord 8) =
      [some .secW, some .secR, some .minW, some .minR, some .hourW, some .hourR, some .dateW, some .dateR] ∧
    [0x88, 0x89, 0x8A, 0x8B, 0x8C, 0x8D, 0x8E, 0x8F].map (decodeTableWord 8) =
      [some .monthW, some .monthR, some .dayW, some .dayR, some .yearW, some .yearR, some .wpW, some .wpR] ∧
    decodeTableWord 8 0x90 = none ∧ decodeTableWord 8 0x7F = none := by
  decide +kernel

/-- V2: the fourteen illegal words. -/
theorem test_illegalWords :
    [0x0000000000000000, 0x0400000000000000, 0xFF00000000000000, 0x0100000000000001, 0x0300000000000100,
     0x2100000000000001, 0x1100000000000181, 0x1000000000018E00, 0x3100000000000163, 0x4000000000000300,
     0x4000000000000102, 0x4100000000000101, 0x4300000000000101, 0x4400000000010000].all
      (fun w => answer w State.reset fun s => s.rw == 0x8000000000000000#64 && s.trace == [] && !s.busy) = true := by
  decide +kernel

/-! ### One step per instruction -/

/-- V50. -/
theorem test_init : answer 0x0100000000000000 State.reset (fun s =>
    s.trace == [.cfg .clk .out, .cfg .io .out, .cfg .ce .out, .set .clk false, .set .io false, .set .ce false] &&
      s.clk == ⟨.out, false⟩ && s.io == ⟨.out, false⟩ && s.ce == ⟨.out, false⟩ && s.stat == 0#2 && s.rw == 0) = true := by
  decide +kernel

/-- V51, first row. -/
theorem test_settime : answer 0x0207E80805150000 (wired idle (store [] 0 0)) (fun s =>
    s.trace.length == 672 && s.io == ⟨.out, true⟩ && s.rw == 0 &&
      s.periph == .store ⟨[(0, 0), (1, 0), (2, 0x21), (3, 5), (4, 8), (6, 0x24), (7, 0x80)], 16, 0x8E, 0x80⟩) = true := by
  decide +kernel

/-- V52: the year window. -/
theorem test_settime_year :
    refusedBy (exec (.settime ⟨1999, 1, 1, 0, 0, 0⟩) idle) .yearOutsideWindow = true ∧
    refusedBy (exec (.settime ⟨2100, 1, 1, 0, 0, 0⟩) idle) .yearOutsideWindow = true := by
  decide +kernel

/-- S3, S6: the raw seconds byte 0xD9 reads as 59. -/
theorem test_readtime :
    answer 0x0300000000000000
      (wired idle (store [(0, 0xD9), (1, 0), (2, 0x21), (3, 5), (4, 8), (6, 0x24)] 0 0)) (fun s =>
        s.trace.length == 504 && s.rw == 0x0007E8080515003B#64 && s.io.mode == .inp) = true := by
  decide +kernel

/-- V32: the sixteen levels of the write frame. -/
theorem test_wrreg : answer 0x1000000000008059 (wired idle (store [] 0 0)) (fun s =>
    s.trace.length == 84 && s.periph == .store ⟨[(0, 0x59)], 16, 0x80, 0x59⟩ &&
      levelsAtRising false s.trace == [false, false, false, false, false, false, false, true,
        true, false, false, true, true, false, true, false]) = true := by
  decide +kernel

/-- V34: a read address as a write operand. -/
theorem test_wrreg_refused : refusedBy (exec (.wrreg 0x81 0) idle) .notAWriteAddress = true := by decide +kernel

/-- V31: returned raw, not masked. -/
theorem test_rdreg : answer 0x1100000000000081 (wired idle (store [(0, 0xD9)] 0 0)) (fun s =>
    s.trace.length == 84 && s.rw == 0xD9#64 && s.periph == .store ⟨[(0, 0xD9)], 16, 0x81, 0⟩) = true := by
  decide +kernel

/-- V34: an unwritten row. -/
theorem test_rdreg_unwritten : refusedBy (exec (.rdreg 0x8B) (wired idle (store [] 0 0))) .periphUnwritten = true := by
  decide +kernel

theorem test_cehi : answer 0x1200000000000000 idle (fun s =>
    s.ce == ⟨.out, true⟩ && s.trace == [.set .ce true]) = true := by decide +kernel

/-- R73: lowering `CE` inside a frame. -/
theorem test_celo_cut : refusedBy (exec .celo (wired selected (store [] 8 0x80))) .periphFrameCut = true := by
  decide +kernel

theorem test_celo : answer 0x1300000000000000 selected (fun s =>
    s.ce == ⟨.out, false⟩ && s.trace == [.set .ce false]) = true := by decide +kernel

/-- V20. -/
theorem test_wrbyte : answer 0x200000000000008E selected (fun s =>
    s.trace.length == 41 && s.io == ⟨.out, true⟩ && s.clk == ⟨.out, false⟩ && s.ce == ⟨.out, true⟩ && s.rw == 0 &&
      ioLevels s.trace == [false, true, true, true, false, false, false, true]) = true := by
  decide +kernel

/-- V24: `SR` after four cells of WRBYTE 0xA5. -/
theorem test_wrbyte_shift :
    (match writeCells ((bitsOf 0xA5).take 4) (selected.loadWrite 0xA5) with
      | .done _ s => s.sr == 0x0A && s.bc == 4
      | .halted _ => false
      | .refused _ => false) = true := by
  decide +kernel

/-- V22, with `P_store` holding the byte of its samples. -/
theorem test_rdbyte : answer 0x2100000000000000 (wired selected (store [(0, 0xD9)] 8 0x81)) (fun s =>
    s.trace.length == 41 && s.rw == 0xD9#64 && s.io.mode == .inp && s.clk == ⟨.out, false⟩) = true := by
  decide +kernel

/-- V22, V23: RDBYTE with the peripheral giving the samples of the row. -/
theorem test_rdbyte_scripted :
    [([true, false, false, true, true, false, true, true], 0xD9#64), (List.replicate 8 false, 0#64),
      (List.replicate 8 true, 0xFF#64), ([true, false, false, false, false, false, false, false], 1#64),
      ([false, false, false, false, false, false, false, true], 0x80#64),
      ([true, false, true, false, false, true, false, true], 0xA5#64),
      ([false, false, true, false, false, true, false, false], 0x24#64),
      ([true, false, false, true, true, false, true, false], 0x59#64)].all (fun q =>
        answer 0x2100000000000000 (scripted selected q.1) fun s =>
          s.rw == q.2 && s.trace.length == 41 && s.periph == .oracle ⟨[], []⟩) = true := by
  decide +kernel

/-- R71: an oracle sees the events in order; this one answers 1 exactly when it has seen an even number of them. -/
theorem test_rdlvl_oracle :
    [[], [Event.delay 1], [.delay 1, .delay 2]].map (fun es =>
      nextHas (exec (.rdlvl .io) { selected with
          io := ⟨.inp, false⟩, trace := es
          periph := .oracle (.ofFunction (fun t => t.length % 2 == 0) [[.delay 1, .delay 2], [], [.delay 1]]) })
        fun s => s.rw == 1) = [true, false, true] := by
  decide +kernel

/-- V26. -/
theorem test_rdbyte_refused : refusedBy (exec .rdbyte idle) .transportNotReady = true := by decide +kernel

/-- V42. -/
theorem test_bcd2dec : answer 0x30000000000000FF State.reset (fun s => s.rw == 165#64 && s.trace == []) = true := by
  decide +kernel

/-- V42. -/
theorem test_dec2bcd :
    answer 0x31000000000000FF State.reset (fun s => s.rw == 0x95#64) = true ∧
    answer 0x310000000000002D State.reset (fun s => s.rw == 0x45#64) = true := by
  decide +kernel

/-- V10, row 8. -/
theorem test_cfgline : answer 0x4000000000000101 State.reset (fun s =>
    s.io.mode == .inp && s.trace == [.cfg .io .inp]) = true := by decide +kernel

/-- V11. -/
theorem test_cfgline_refused : refusedBy (exec (.cfgline .clk .inp) idle) .directionNotAllowed = true := by decide +kernel

/-- V3. -/
theorem test_sethi_refused : refusedBy (exec (.sethi .io) State.reset) .lineNotOutput = true := by decide +kernel

theorem test_sethi : answer 0x4100000000000100 idle (fun s =>
    s.io == ⟨.out, true⟩ && s.trace == [.set .io true]) = true := by decide +kernel

/-- V10, row 3: the event is appended although the level does not change. -/
theorem test_setlo : answer 0x4200000000000000 idle (fun s =>
    s.clk == ⟨.out, false⟩ && s.trace == [.set .clk false]) = true := by decide +kernel

/-- R73: the first read cell answers bit 0. -/
theorem test_rdlvl :
    answer 0x4300000000000100 (wired { selected with io := ⟨.inp, false⟩ } (store [(0, 0xD9)] 9 0x81))
      (fun s => s.rw == 1 && s.trace == [.sample .io true]) = true := by
  decide +kernel

/-- V11. -/
theorem test_rdlvl_refused : refusedBy (exec (.rdlvl .clk) idle) .lineNotInput = true := by decide +kernel

/-- V10, row 5. -/
theorem test_sleep : answer 0x4400000000000001 State.reset (fun s => s.trace == [.delay 1]) = true := by decide +kernel

/-- V33: the levels of the literal bytes 0x8C and 0x8D, as the address part of a frame (log entry 3). -/
theorem test_wire :
    nextHas (step (selected.withFetchWord 8 0x8C)) (fun s =>
      ioLevels s.trace == [false, false, true, true, false, false, false, true]) = true ∧
    nextHas (step ((wired selected (store [] 0 0)).withFetchWord 8 0x8D)) (fun s =>
      ioLevels s.trace == [true, false, true, true, false, false, false, true] &&
        s.periph == .store ⟨[], 8, 0x8D, 0⟩) = true := by
  decide +kernel

/-- V60: the third primitive of a WRREG's data byte faults. -/
theorem test_lineFault :
    nextHas (exec (.wrreg 0x80 0x59) (wired { idle with lineFaults := [44] } (store [] 0 0))) (fun s =>
      s.trace.length == 44 && s.rw == 0x4000000000000000#64 && s.stat == 3#2 && s.ce == ⟨.out, true⟩ &&
        s.faultInfo == some ⟨some .clk, .setHigh, 44⟩ && s.txn == .data && s.ph == .wRise) = true := by
  decide +kernel

/-- V61: the fault between two transactions of SETTIME; the write-protect byte is cleared and left so. -/
theorem test_lineFault_settime :
    nextHas (exec (.settime ⟨2024, 8, 5, 21, 0, 0⟩) (wired { idle with lineFaults := [84] } (store [] 0 0))) (fun s =>
      s.trace.length == 84 && s.rw == 0x4000000000000000#64 && s.stat == 3#2 && s.seq == 1 && s.io == ⟨.out, false⟩ &&
        s.faultInfo == some ⟨some .ce, .setHigh, 84⟩ && s.periph == .store ⟨[(7, 0)], 16, 0x8E, 0⟩) = true := by
  decide +kernel

/-- R280, D8: a reset in place of primitive 44 of a WRREG; `P_store` has the command byte and no data bit. -/
theorem test_resetDuring :
    nextHas (step { wired idle (store [] 0 0) with pending := [.resetDuring (.word 0x1000000000008059#64) 44] })
      (fun s => s.stat == 0#2 && s.trace == [] && s.ce.mode == .unconf && s.lineFaults == [] &&
        s.periph == .store ⟨[], 8, 0x80, 0⟩) = true := by
  decide +kernel

/-- S7: the null backend. -/
theorem test_null :
    nextHas (exec .readtime nullBlock) (fun s => s.rw == 0 && s.trace == []) = true := by
  decide +kernel

/-- A write keeps the canonical form, and writing again replaces. -/
theorem test_memory :
    Memory.write (Memory.write (Memory.write [] 5 1) 2 7) 5 9 = [(2, 7), (5, 9)] ∧
    Memory.wf [(2, 7), (5, 9)] = true ∧ Memory.wf [(5, 9), (2, 7)] = false ∧ Memory.wf [(8, 0)] = false := by
  decide +kernel

/-! ### Witnesses: states and operands that meet the hypotheses of the obligations, one for each clause -/

/-- A block whose fault has been entered. -/
def faulted : State := { selected with busy := true, fault := true, rw := 0x4000000000000000#64 }

/-- A read frame of `P_store` after `n` rising edges, `IO` an input. -/
def readFrameAt (n : Nat) (m : Memory) (cmd : Byte) : State :=
  wired { selected with io := ⟨.inp, false⟩ } (store m n cmd)

/-- For EncodeOfDecode. -/
theorem witness_decodes : decode (.word 0x0100000000000000#64) = .ok .init ∧ decode (.wire 0x80) = .ok .secW := by
  decide +kernel

theorem witness_StepRunsDecoded : ∃ e rest i, (idle.withFetchWord 64 0x0100000000000000).pending = .present e :: rest ∧
    (idle.withFetchWord 64 0x0100000000000000).busy = false ∧ (idle.withFetchWord 64 0x0100000000000000).fault = false ∧
    decode e = .ok i :=
  ⟨_, _, .init, rfl, rfl, rfl, by decide +kernel⟩

theorem witness_IllegalWordAnswered : (State.reset.withFetchWord 64 0x4100000000000101).pending =
      .present (.word 0x4100000000000101#64) :: [] ∧
    ¬ legalWord 0x4100000000000101#64 ∧ ¬ legalWord 0#64 ∧ ¬ legalWord 0x4000000000000300#64 ∧
    legalWord 0x4000000000000200#64 := by
  unfold legalWord
  decide +kernel

theorem witness_PresentedWhileBusyRefused :
    ({ idle with busy := true, pending := [.present (.word 0)] } : State).busy = true ∧
    ({ faulted with pending := [.resetDuring (.word 0) 0] } : State).fault = true := ⟨rfl, rfl⟩

theorem witness_FaultClearedByResetOnly :
    nextHas (step { faulted with pending := [.reset] }) (fun t => !t.fault) = true := by decide +kernel

theorem witness_NothingPresented :
    idle.pending = [] ∧ idle.busy = false ∧ idle.fault = false ∧ faulted.pending = [] ∧ faulted.fault = true := by
  decide

theorem witness_ResetInputReleases : ({ faulted with pending := [.reset] } : State).pending = .reset :: [] ∧
    idle.busy = false ∧ idle.fault = false ∧ decode (.word 0x1000000000008059#64) = .ok (.wrreg 0x80 0x59) ∧
    nextHas (exec (.wrreg 0x80 0x59) (acceptInput (.word 0x1000000000008059#64) (idle.cutAt (idle.prims + 0))))
      (fun t => t.fault && t.trace == []) = true ∧
    refusedBy (exec (.wrreg 0x80 0x59) (State.reset.cutAt (State.reset.prims + 0))) .notIdle = true := by
  decide +kernel

/-- For ResetValues. -/
theorem witness_ResetValues : Config.defaultParams.backend = .real := rfl

/-- For CfglineResult (both clauses) and SleepResult. -/
theorem witness_onePrimitive : onNull idle = false ∧ faultFree idle 1 ∧ cfgPairOk .ce .out = true ∧
    cfgPairOk .io .inp = true := ⟨rfl, faultFree_none rfl _, rfl, rfl⟩

theorem witness_SetLevelResult :
    (idle.line .clk).mode = .out ∧ Periph.observe (.set .clk true) idle.io idle.ce idle.periph = .ok .unbound ∧
    Periph.observe (.set .clk true) idle.io idle.ce (.store (store [] 0 0)) = .error .periphNotSelected := by
  decide +kernel

theorem witness_RdlvlResult :
    ({ idle with io := ⟨.inp, false⟩ } : State).periph = .unbound ∧
    (∀ o ∈ [Oracle.mk [] [true], .mk [([], true)] [], .ofFunction (fun _ => true) [[]]], (o.answer idle.trace).isSome = true) ∧
    (Oracle.mk [] []).answer idle.trace = none ∧ idle.trace ∈ [([] : List Event)] ∧
    (∀ n ∈ [9, 16], (readFrameAt n [(0, 0xD9)] 0x81).io.mode = .inp ∧ (readFrameAt n [(0, 0xD9)] 0x81).ce.level = true ∧
      (store [(0, 0xD9)] n 0x81).cmd.getLsbD 0 = true ∧ rowOf (store [(0, 0xD9)] n 0x81).cmd = some 0) ∧
    Memory.read [(0, 0xD9)] 0 = some 0xD9 ∧ Memory.read [] 0 = none ∧
    ((store [] 8 0x81).n < 9 ∧ 16 < (store [] 17 0x81).n ∧ (store [] 9 0x80).cmd.getLsbD 0 = false) := by
  decide +kernel

theorem witness_ClockEdgeStore :
    selected.clk.mode = .out ∧ selected.ce.level = true ∧ selected.io.mode = .out ∧ idle.ce.level = false ∧
    (readFrameAt 7 [] 0x80).io.mode ≠ .out ∧ (0x80#8).getLsbD 0 = false ∧ rowOf 0x80 = some 0 ∧ rowOf 0x90 = none ∧
    (0x90#8).getLsbD 0 = false ∧ (0x81#8).getLsbD 0 = true ∧
    [0, 7, 8, 14, 15, 16].all (fun n => (store [] n 0x80).n == n) = true := by
  decide +kernel

theorem witness_RefusedOutsidePreconditions :
    onNull State.reset = false ∧ cfgPairOk .clk .inp = false ∧ (State.reset.line .io).mode ≠ .out ∧
    (idle.line .io).mode ≠ .inp ∧ transportReady idle = false ∧ gateReady State.reset = false := by
  decide

/-- For the clauses with an oracle of RdbyteUnbound, RdregUnbound and ReadtimeUnbound. -/
theorem witness_oracle :
    (scripted selected []).periph.refusesNothing = true ∧ State.reset.periph.refusesNothing = true ∧
    ((Oracle.mk [] (bitsOf 0xD9)).follows [] (readByteEvents 0xD9)).isSome = true ∧
    ((Oracle.mk [] (bitsOf 0xD9)).follows [] (readFrame 0x81 0xD9)).isSome = true ∧
    ((Oracle.mk [] ([0xD9, 1, 2, 3, 4, 5].flatMap bitsOf)).follows []
      (readFrames [(0x81, 0xD9), (0x83, 1), (0x85, 2), (0x87, 3), (0x89, 4), (0x8D, 5)])).isSome = true := by
  decide +kernel

/-- For WrbyteUnbound, RdbyteUnbound and the four clauses of WrbyteStore. -/
theorem witness_Wrbyte :
    transportReady selected = true ∧ selected.periph = .unbound ∧ faultFree selected 41 ∧
    (store [] 0 0).n = 0 ∧ (store [] 8 0x80).n = 8 ∧ (store [] 8 0x80).cmd.getLsbD 0 = false ∧
    rowOf (store [] 8 0x80).cmd = some 0 ∧ (store [] 8 0x81).cmd.getLsbD 0 = true ∧ 16 ≤ (store [] 16 0x80).n :=
  ⟨rfl, rfl, faultFree_none rfl _, rfl, rfl, rfl, rfl, rfl, Nat.le_refl _⟩

theorem witness_RdbyteStore :
    (wired selected (store [(7, 0x80)] 8 0x8F)).periph = .store (store [(7, 0x80)] 8 0x8F) ∧
    (store [(7, 0x80)] 8 0x8F).cmd.getLsbD 0 = true ∧ rowOf (store [(7, 0x80)] 8 0x8F).cmd = some 7 ∧
    Memory.read (store [(7, 0x80)] 8 0x8F).store 7 = some 0x80 := by
  decide +kernel

theorem witness_WriteShiftRegister : selected.periph = .unbound ∧ faultFree selected (5 * 8) ∧
    (match writeCells ((bitsOf 0xA5).take 8) (selected.loadWrite 0xA5) with
      | .done _ t => t.sr == 0
      | .halted _ => false
      | .refused _ => false) = true := ⟨rfl, faultFree_none rfl _, by decide +kernel⟩

theorem witness_PhaseMachineEquivalence :
    nextHas (exec .rdbyte (wired selected (store [(0, 0xD9)] 8 0x81))) (fun t => !t.fault) = true := by decide +kernel

theorem witness_GateResult : gateReady idle = true ∧ gateReady selected = true ∧ betweenFrames (.store (store [] 16 0)) = true ∧
    betweenFrames (.store (store [] 1 0)) = false ∧ betweenFrames (.store (store [] 0 0)) = true := by decide

theorem witness_WireCommandSent : (Instr.secW, 0x80#8, 0) ∈ wireRows ∧ (Instr.wpR, 0x8F#8, 7) ∈ wireRows ∧
    transportReady selected = true ∧ selected.txn = .none := by decide

/-- For WrregUnbound and WrregStore. -/
theorem witness_Wrreg : isWriteAddr 0x80 = true ∧ isWriteAddr 0x8E = true ∧ idleState idle = true ∧ idle.periph = .unbound ∧
    faultFree idle 84 ∧ idleState (wired idle (store [] 0 0)) = true :=
  ⟨rfl, rfl, rfl, rfl, faultFree_none rfl _, rfl⟩

/-- For RdregUnbound and the two clauses of RdregStore, with the state of witness_Wrreg. -/
theorem witness_Rdreg : isReadAddr 0x81 = true ∧ isReadAddr 0x8F = true ∧ rowOf 0x8F = some 7 ∧
    Memory.read [(7, 0x80)] 7 = some 0x80 ∧ Memory.read [] 7 = none := by decide +kernel

/-- For TransactionGuarantees, TransactionIsItsParts. -/
theorem witness_Transaction :
    nextHas (exec (.wrreg 0x80 0x59) idle) (fun t => !t.fault) = true ∧
    nextHas (exec (.rdreg 0x81) (wired idle (store [(0, 0xD9)] 0 0))) (fun t => !t.fault) = true := by
  decide +kernel

theorem witness_TransactionsRefused :
    isWriteAddr 0x81 = false ∧ isReadAddr 0x80 = false ∧ (1999#16).toNat < 2000 ∧ 2099 < (2100#16).toNat ∧
    idleState State.reset = false ∧ idleState selected = false ∧ yearOk 2000 = true ∧ yearOk 2099 = true := by
  decide +kernel

/-- For InitResult and InitIdempotent. -/
theorem witness_Init : faultFree State.reset 6 ∧ betweenFrames State.reset.periph = true ∧
    nextHas (exec .init idle) (fun t => !t.fault && t.lineFaults == []) = true ∧
    nextHas (exec .init faulted) (fun t => t.fault) = true :=
  ⟨faultFree_none rfl _, rfl, by decide +kernel, by decide +kernel⟩

/-- For SettimeUnbound and SettimeStore. -/
theorem witness_Settime : yearOk 2000 = true ∧ yearOk 2099 = true ∧ idleState idle = true ∧ faultFree idle 672 ∧
    idleState (wired idle (store [] 16 0x8E)) = true :=
  ⟨by decide +kernel, by decide +kernel, rfl, faultFree_none rfl _, rfl⟩

theorem witness_SettimeIsEightWrites :
    nextHas (exec (.settime ⟨2000, 1, 1, 0, 0, 0⟩) idle) (fun t => !t.fault) = true := by decide +kernel

/-- For ReadtimeUnbound, the two clauses of ReadtimeStore, and ReadtimeRanges, with the state of witness_Settime. -/
theorem witness_Readtime : faultFree idle 504 ∧
    Memory.read [(0, 1), (1, 2), (2, 3), (3, 4), (4, 5), (6, 6)] 6 = some 6 ∧ Memory.read [(1, 2)] 0 = none ∧
    nextHas (exec .readtime (wired idle (store [(0, 1), (1, 2), (2, 3), (3, 4), (4, 5), (6, 6)] 0 0)))
      (fun t => !t.fault) = true ∧
    (∀ k ∈ [0, 1, 2, 3, 4, 6],
      (Memory.read [(0, 0xFF), (1, 0xFF), (2, 0xFF), (3, 0xFF), (4, 0xFF), (6, 0xFF)] k).isSome = true) :=
  ⟨faultFree_none rfl _, rfl, rfl, by decide +kernel, by decide⟩

theorem witness_SetThenReadTime :
    let s : State := { wired idle (store [] 0 0) with
      pending := [.present (encode (.settime ⟨2099, 12, 31, 159, 159, 99⟩)), .present (encode .readtime)] }
    s.busy = false ∧ s.fault = false ∧ onNull s = false ∧ idleState s = true ∧ faultFree s 1176 ∧ yearOk 2099 = true ∧
    (159#8).toNat ≤ 159 ∧ (79#8).toNat ≤ 79 ∧ 80 ≤ (80#8).toNat ∧ (99#8).toNat ≤ 99 :=
  ⟨rfl, rfl, rfl, rfl, faultFree_none rfl _, by decide +kernel, by decide, by decide, by decide, by decide⟩

theorem witness_NullBackend : onNull nullBlock = true ∧ Instr.sleep 0 ≠ .init := by decide

theorem witness_LineFaultEntry : ({ idle with lineFaults := [0] } : State).fault = false ∧
    nextHas (exec .cehi { idle with lineFaults := [0] }) (fun t => t.fault) = true := by decide +kernel

/-- The events an operation appends when no primitive faults. -/
def appends (i : Instr) (s : State) (es : List Event) : Bool := nextHas (exec i s) fun t => !t.fault && t.trace == s.trace ++ es

/-- V60 (WRREG), V62 (INIT), and a single primitive. -/
theorem witness_LineFaultPrecise :
    idle.ph = .idle ∧ appends (.wrreg 0x80 0x59) (wired idle (store [] 0 0)) (writeFrame 0x80 0x59) = true ∧
    (writeFrame 0x80 0x59)[44]? = some (.set .clk true) ∧ faultsFirstAt (wired { idle with lineFaults := [44] } (store [] 0 0)) 44 ∧
    appends .init State.reset initEvents = true ∧ initEvents[0]? = some (.cfg .clk .out) ∧
    faultsFirstAt { State.reset with lineFaults := [0] } 0 ∧ appends .cehi idle [.set .ce true] = true := by
  refine ⟨rfl, by decide +kernel, by decide +kernel, ⟨fun i hi => ?_, by decide⟩, by decide +kernel, rfl,
    ⟨fun i hi => absurd hi (Nat.not_lt_zero i), by decide⟩, by decide +kernel⟩
  simp [wired, idle, State.reset, State.construct]
  omega

/-- V61 (SETTIME). -/
theorem witness_LineFaultPrecise_settime :
    (∃ u, exec (.settime ⟨2024, 8, 5, 21, 0, 0⟩) (wired idle (store [] 0 0)) = .next u ∧
      u.trace = (wired idle (store [] 0 0)).trace ++ writeFrames (setTimePairs ⟨2024, 8, 5, 21, 0, 0⟩)) ∧
    (writeFrames (setTimePairs ⟨2024, 8, 5, 21, 0, 0⟩))[84]? = some (.set .ce true) ∧
    faultsFirstAt (wired { idle with lineFaults := [84] } (store [] 0 0)) 84 := by
  refine ⟨?_, by decide +kernel, ⟨fun i hi => ?_, by decide⟩⟩
  · have h := writeSteps_plays (setTimePairs_write ⟨2024, 8, 5, 21, 0, 0⟩) 0 (wired idle (store [] 0 0))
    rw [exec_settime rfl (by decide +kernel) rfl, h.runs (faultFree_none rfl _)]
    exact ⟨_, rfl, h.trace⟩
  · simp [wired, idle, State.reset, State.construct]
    omega

theorem witness_NeverFaults : nextHas (exec (.bcd2dec 0xFF) idle) (fun t => !t.fault) = true ∧
    nextHas (exec .init nullBlock) (fun t => !t.fault) = true := by decide +kernel

theorem witness_StepKeepsInv : BlockInv idle ∧ nextHas (step (idle.withFetchWord 64 0x1200000000000000)) (fun _ => true) = true :=
  ⟨⟨by decide, by decide, by decide, rfl, fun h => (by cases h), fun _ => ⟨rfl, rfl, rfl⟩, trivial⟩, by decide +kernel⟩

theorem witness_StepKeepsTraceExplanation : TraceExplainsLines { idle with trace := initEvents } ∧
    nextHas (step (({ idle with trace := initEvents } : State).withFetchWord 64 0x1200000000000000)) (fun _ => true) = true := by
  refine ⟨fun l => ?_, by decide +kernel⟩
  cases l <;> exact ⟨rfl, by decide⟩

theorem witness_StepAppends : nextHas (step (idle.withFetchWord 64 0x1200000000000000)) (fun t => t.trace == [.set .ce true]) = true :=
  by decide +kernel

/-- The clauses of WRREG and RDREG are met by witness_Transaction, those of SETTIME and READTIME by
witness_SettimeIsEightWrites and witness_Readtime. -/
theorem witness_DelayLowerBounds :
    appends (.sleep 65535) State.reset [.delay 65535] = true ∧ appends (.wrbyte 0x8E) selected (writeByteEvents 0x8E) = true ∧
    appends .rdbyte (scripted selected (bitsOf 0xD9)) (readByteEvents 0xD9) = true ∧
    appends .yearR selected (writeByteEvents 0x8D) = true := by decide +kernel

/-- The instructions of R303's row with no delay. -/
theorem witness_DelayLowerBounds_zero :
    [(Instr.init, initEvents), (.cehi, [.set .ce true]), (.celo, [.set .ce false]), (.cfgline .io .inp, [.cfg .io .inp]),
      (.sethi .io, [.set .io true]), (.setlo .io, [.set .io false]), (.bcd2dec 0x59, []), (.dec2bcd 59, [])].all
        (fun q => appends q.1 idle q.2) = true ∧
    appends (.rdlvl .io) (scripted { idle with io := ⟨.inp, false⟩ } [true]) [.sample .io true] = true := by decide +kernel

theorem witness_IoDirectionNotInherited : onNull idle = false ∧ idle.io.mode ≠ .unconf ∧
    (⟨.inp, true⟩ : LineState).mode ≠ .unconf ∧ (Instr.yearR, 0x8D#8, 6) ∈ wireRows := by decide

theorem witness_RegisterSpaceLaws : Memory.wf [(0, 1), (7, 2)] = true ∧ (7 : Nat) < 8 := by decide

end Sys2Proof.Tests
end

section
/-! PROOFS. What every step does: the trace explains the lines, a step only appends; the reset values. -/

namespace Sys2Proof.Machine

/-! ### What a step can do -/

/-- The ways a step is answered with a next state, each with what the host has presented and the checks it has passed. -/
inductive StepsTo (s : State) : State → Prop
  | idles (hp : s.pending = []) (hf : s.fault = false) (hb : s.busy = false) : StepsTo s s
  | resets {rest : List HostInput} (hp : s.pending = .reset :: rest) : StepsTo s (powerOn { s with pending := rest })
  | answers {e : Encoded} {rest : List HostInput} {i : Instr} {u : State} (hp : s.pending = .present e :: rest)
      (hb : s.busy = false) (hf : s.fault = false) (hd : decode e = .ok i)
      (hx : exec i (acceptInput e { s with pending := rest }) = .next u) (hu : u.fault = true ∨ u.prims = s.prims) :
      StepsTo s u
  | settles {e : Encoded} {rest : List HostInput} {i : Instr} {u : State} (hp : s.pending = .present e :: rest)
      (hb : s.busy = false) (hf : s.fault = false) (hd : decode e = .ok i)
      (hx : exec i (acceptInput e { s with pending := rest }) = .next u) (huf : u.fault = false)
      (hup : u.prims ≠ s.prims) : StepsTo s (settle u)
  | rejects {w : Word} {rest : List HostInput} (hp : s.pending = .present (.word w) :: rest) (hb : s.busy = false)
      (hf : s.fault = false) (hd : ∀ i, decode (.word w) ≠ .ok i) : StepsTo s (answerIllegal w { s with pending := rest })
  | abandons {e : Encoded} {k : Nat} {rest : List HostInput} {i : Instr} {u : State}
      (hp : s.pending = .resetDuring e k :: rest) (hb : s.busy = false) (hf : s.fault = false) (hd : decode e = .ok i)
      (hx : exec i (acceptInput e (State.cutAt { s with pending := rest } (s.prims + k))) = .next u) :
      StepsTo s (powerOn { u with lineFaults := s.lineFaults })
  | abandonsRejected {w : Word} {k : Nat} {rest : List HostInput} (hp : s.pending = .resetDuring (.word w) k :: rest)
      (hb : s.busy = false) (hf : s.fault = false) (hd : ∀ i, decode (.word w) ≠ .ok i) :
      StepsTo s (powerOn (answerIllegal w { s with pending := rest }))

/-- Inversion of `settleAfter`. -/
theorem settleAfter_next {n : Nat} {o : Host.Outcome State Fault Refusal} {t : State} (h : settleAfter n o = .next t) :
    ∃ u, o = .next u ∧ ((t = u ∧ (u.fault = true ∨ u.prims = n)) ∨ (t = settle u ∧ u.fault = false ∧ u.prims ≠ n)) := by
  cases o with
  | next u =>
    refine ⟨u, rfl, ?_⟩
    simp only [settleAfter] at h
    split at h
    · rename_i hc
      exact .inl ⟨(Host.Outcome.next.inj h).symm, by simpa using hc⟩
    · rename_i hc
      exact .inr ⟨(Host.Outcome.next.inj h).symm, by simpa using hc⟩
  | fault f => cases h
  | refused r => cases h

/-- Inversion of `rejectInput`: only a command word is answered. -/
theorem rejectInput_next {e : Encoded} {s t : State} (h : rejectInput e s = .next t) :
    ∃ w, e = .word w ∧ t = answerIllegal w s := by
  cases e with
  | word w => exact ⟨w, rfl, (Host.Outcome.next.inj h).symm⟩
  | wire b => cases h

/-- Inversion of `step`. -/
theorem step_next {s t : State} (h : step s = .next t) : StepsTo s t := by
  unfold step at h
  split at h
  · rename_i hp
    split at h
    · cases h
    split at h
    · cases h
    rename_i hf hb
    obtain rfl := Host.Outcome.next.inj h
    exact .idles hp (by simpa using hf) (by simpa using hb)
  · rename_i rest hp
    obtain rfl := Host.Outcome.next.inj h
    exact .resets hp
  · rename_i e rest hp
    split at h
    · cases h
    rename_i hstat
    obtain ⟨hb, hf⟩ : s.busy = false ∧ s.fault = false := by simpa using hstat
    split at h
    · rename_i i hd
      obtain ⟨u, hx, ⟨rfl, hu⟩ | ⟨rfl, huf, hup⟩⟩ := settleAfter_next h
      · exact .answers hp hb hf hd hx hu
      · exact .settles hp hb hf hd hx huf hup
    · rename_i hd
      obtain ⟨w, rfl, rfl⟩ := rejectInput_next h
      exact .rejects hp hb hf fun i hi => by cases hd.symm.trans hi
  · rename_i e k rest hp
    split at h
    · cases h
    rename_i hstat
    obtain ⟨hb, hf⟩ : s.busy = false ∧ s.fault = false := by simpa using hstat
    split at h
    · rename_i i hd
      obtain ⟨u, hx, rfl⟩ := resetAfter_next h
      exact .abandons hp hb hf hd hx
    · rename_i hd
      obtain ⟨u, hx, rfl⟩ := resetAfter_next h
      obtain ⟨w, rfl, rfl⟩ := rejectInput_next hx
      exact .abandonsRejected hp hb hf fun i hi => by cases hd.symm.trans hi

/-- A property that the primitives, the fault's entry and the response all keep is kept by `exec`. -/
theorem Kept.exec_next {P : State → Prop} (h : Kept P P) (hr : ∀ p s, P s → P (respond p s)) {i : Instr} {s t : State}
    (hs : P s) (he : Machine.exec i s = .next t) : P t := by
  rcases h.exec hs he with ⟨p, u, hu, rfl⟩ | ht
  · exact hr p u hu
  · exact ht

/-! ### The lines after a primitive -/

@[simp] theorem State.cfgOut_line (s : State) (l k : Line) :
    (s.cfgOut l).line k = if l = k then ⟨.out, Config.freeLevel s.draws s.trace⟩ else s.line k := by
  cases l <;> cases k <;> rfl

@[simp] theorem State.cfgIn_line (s : State) (l k : Line) :
    (s.cfgIn l).line k = if l = k then ⟨.inp, (s.line l).level⟩ else s.line k := by
  cases l <;> cases k <;> rfl

@[simp] theorem State.setTo_line (s : State) (l k : Line) (b : Level) (p : Periph) :
    (s.setTo l b p).line k = if l = k then ⟨(s.line l).mode, b⟩ else s.line k := by
  cases l <;> cases k <;> rfl

theorem State.line_congr {s t : State} (hclk : t.clk = s.clk) (hio : t.io = s.io) (hce : t.ce = s.ce) (l : Line) :
    t.line l = s.line l := by
  cases l with
  | clk => exact hclk
  | io => exact hio
  | ce => exact hce

/-! ### The trace explains the lines -/

theorem lineOfTrace_concat (l : Line) (es : List Event) (e : Event) :
    lineOfTrace l (es ++ [e]) = lineAfter l (lineOfTrace l es) e := by
  simp [lineOfTrace]

/-- The explanation looks at the trace and the three lines only. -/
theorem TraceExplainsLines.congr {s t : State} (h : TraceExplainsLines s) (ht : t.trace = s.trace) (hclk : t.clk = s.clk)
    (hio : t.io = s.io) (hce : t.ce = s.ce) : TraceExplainsLines t := by
  intro l
  rw [ht, State.line_congr hclk hio hce]
  exact h l

/-- After one more event it is enough that the event explains each line. -/
theorem TraceExplainsLines.of_event {s t : State} {e : Event} (ht : t.trace = s.trace ++ [e])
    (h : ∀ l, (t.line l).mode = (lineAfter l (lineOfTrace l s.trace) e).1 ∧
      ∀ b, (lineAfter l (lineOfTrace l s.trace) e).2 = some b → (t.line l).level = b) : TraceExplainsLines t := by
  intro l
  rw [ht, lineOfTrace_concat]
  exact h l

theorem traceExplainsLines_powerOn (s : State) : TraceExplainsLines (powerOn s) := by
  intro l
  refine ⟨?_, fun b hb => by cases hb⟩
  cases l <;> rfl

theorem keptTraceExplainsLines : Kept TraceExplainsLines TraceExplainsLines where
  cfgOut l s h := by
    refine .of_event (e := .cfg l .out) rfl fun k => ?_
    by_cases hk : l = k
    · simp [lineAfter, hk]
    · simpa [lineAfter, hk] using h k
  cfgIn s h := by
    refine .of_event (e := .cfg .io .inp) rfl fun k => ?_
    by_cases hk : .io = k
    · simp [lineAfter, hk]
    · simpa [lineAfter, hk] using h k
  setTo l b p s h _ := by
    refine .of_event (e := .set l b) rfl fun k => ?_
    by_cases hk : l = k
    · subst hk
      simpa [lineAfter] using (h l).1
    · simpa [lineAfter, hk] using h k
  slept d s h := .of_event (e := .delay d) rfl (h.congr rfl rfl rfl rfl)
  sampled l b p n s h _ := .of_event (e := .sample l b) rfl (h.congr rfl rfl rfl rfl)
  engine _ _ _ _ _ _ h := h.congr rfl rfl rfl rfl
  count _ _ h _ := h.congr rfl rfl rfl rfl
  faulted _ _ _ h := h.congr rfl rfl rfl rfl

/-- Every operation keeps the explanation, a faulting one too. -/
theorem traceExplainsLines_exec {i : Instr} {s t : State} (h : TraceExplainsLines s) (hx : exec i s = .next t) :
    TraceExplainsLines t :=
  keptTraceExplainsLines.exec_next (fun _ _ hu => hu.congr rfl rfl rfl rfl) h hx

/-- An accepted input moves no line and appends no event. -/
theorem traceExplainsLines_accepted {e : Encoded} {rest : List HostInput} {s : State} (h : TraceExplainsLines s) :
    TraceExplainsLines (acceptInput e { s with pending := rest }) :=
  h.congr (by simp) (by simp) (by simp) (by simp)

/-- Settles O55: the primitives keep the explanation, so every operation does; a reset empties the trace and releases the
lines. -/
theorem stepKeepsTraceExplanation : Obligations.StepKeepsTraceExplanation := by
  intro s t h hstep
  cases step_next hstep with
  | idles => exact h
  | resets | abandons | abandonsRejected => exact traceExplainsLines_powerOn _
  | answers _ _ _ _ hx => exact traceExplainsLines_exec (traceExplainsLines_accepted h) hx
  | settles _ _ _ _ hx => exact (traceExplainsLines_exec (traceExplainsLines_accepted h) hx).congr rfl rfl rfl rfl
  | rejects => exact h.congr rfl rfl rfl rfl

/-! ### A step only appends -/

/-- `u` is `s` further on in one operation: events are appended, and what no operation touches is as it was. -/
structure State.ExtendedTo (s u : State) : Prop where
  cfg : u.cfg = s.cfg
  lineFaults : u.lineFaults = s.lineFaults
  pending : u.pending = s.pending
  trace : s.trace <+: u.trace

theorem State.ExtendedTo.refl (s : State) : s.ExtendedTo s := ⟨rfl, rfl, rfl, List.prefix_rfl⟩

theorem State.ExtendedTo.trans {s u v : State} (h : s.ExtendedTo u) (h' : u.ExtendedTo v) : s.ExtendedTo v :=
  ⟨h'.cfg.trans h.cfg, h'.lineFaults.trans h.lineFaults, h'.pending.trans h.pending, h.trace.trans h'.trace⟩

theorem State.extendedTo_cfgOut (s : State) (l : Line) : s.ExtendedTo (s.cfgOut l) :=
  ⟨by simp [State.cfgOut], by simp [State.cfgOut], by simp [State.cfgOut], List.prefix_append _ _⟩

theorem State.extendedTo_setTo (s : State) (l : Line) (b : Level) (p : Periph) : s.ExtendedTo (s.setTo l b p) :=
  ⟨by simp [State.setTo], by simp [State.setTo], by simp [State.setTo], List.prefix_append _ _⟩

theorem keptExtendedTo (s : State) : Kept s.ExtendedTo s.ExtendedTo where
  cfgOut l u h := h.trans (u.extendedTo_cfgOut l)
  cfgIn _ h := h.trans ⟨rfl, rfl, rfl, List.prefix_append _ _⟩
  setTo l b p u h _ := h.trans (u.extendedTo_setTo l b p)
  slept _ _ h := h.trans ⟨rfl, rfl, rfl, List.prefix_append _ _⟩
  sampled _ _ _ _ _ h _ := h.trans ⟨rfl, rfl, rfl, List.prefix_append _ _⟩
  engine _ _ _ _ _ _ h := ⟨h.cfg, h.lineFaults, h.pending, h.trace⟩
  count _ _ h _ := ⟨h.cfg, h.lineFaults, h.pending, h.trace⟩
  faulted _ _ _ h := ⟨h.cfg, h.lineFaults, h.pending, h.trace⟩

/-- Every operation only appends to the trace. -/
theorem exec_extends {i : Instr} {s t : State} (hx : exec i s = .next t) : s.ExtendedTo t :=
  (keptExtendedTo s).exec_next (fun _ _ h => ⟨h.cfg, h.lineFaults, h.pending, h.trace⟩) (.refl s) hx

/-- The same from the state before the input was accepted. -/
theorem exec_accepted_extends {i : Instr} {e : Encoded} {s t : State} (hx : exec i (acceptInput e s) = .next t) :
    s.ExtendedTo t :=
  State.ExtendedTo.trans ⟨by simp, by simp, by simp, by simp⟩ (exec_extends hx)

/-- Settles O56: every operation only appends, and a reset keeps the parameters and the faults. -/
theorem stepAppends : Obligations.StepAppends := by
  intro s t hstep
  cases step_next hstep with
  | idles hp => exact ⟨rfl, rfl, by rw [hp]; rfl, .inr (.inr List.prefix_rfl)⟩
  | resets hp => exact ⟨rfl, rfl, by rw [hp]; rfl, .inl ⟨_, hp⟩⟩
  | answers hp _ _ _ hx | settles hp _ _ _ hx =>
    obtain ⟨hcfg, hfaults, hpending, htrace⟩ := exec_accepted_extends hx
    exact ⟨hcfg, hfaults, by rw [hp]; exact hpending, .inr (.inr htrace)⟩
  | rejects hp => exact ⟨rfl, rfl, by rw [hp]; rfl, .inr (.inr List.prefix_rfl)⟩
  | abandons hp _ _ _ hx =>
    obtain ⟨hcfg, -, hpending, -⟩ := exec_accepted_extends hx
    exact ⟨hcfg, rfl, by rw [hp]; exact hpending, .inr (.inl ⟨_, _, _, hp⟩)⟩
  | abandonsRejected hp => exact ⟨rfl, rfl, by rw [hp]; rfl, .inr (.inl ⟨_, _, _, hp⟩)⟩

/-! ### The reset values -/

/-- The constraints of R6 as propositions. -/
theorem paramValues_ok_iff (c : ParamValues) :
    c.ok = true ↔ (c.backend = .real → c.pinClk ≠ c.pinIo ∧ c.pinClk ≠ c.pinCe ∧ c.pinIo ≠ c.pinCe) ∧
      0 < c.delayTicks ∧ 0 < c.tickNs ∧ 1000 ≤ c.delayTicks * c.tickNs := by
  cases hb : c.backend <;> simp [ParamValues.ok, hb, and_assoc]

theorem construct_stat (c : Params) : (State.construct c).stat = 0#2 := by
  simp [State.stat, State.construct]

/-- Settles O13: the state after construction field by field, and the constraints that the parameters carry. -/
theorem resetValues : Obligations.ResetValues := by
  intro c
  obtain ⟨hpins, hticks, hns, hhold⟩ := (paramValues_ok_iff _).1 c.contract
  exact ⟨rfl, rfl, rfl, rfl, rfl, rfl, construct_stat c, rfl, rfl, rfl, hpins, hns, hticks, hhold⟩

end Sys2Proof.Machine
end

section
/-! PROOFS. The state: what a step does with each input, the block's invariant, and what no operation takes over from an
earlier one (R21, R23, R27). -/

namespace Sys2Proof.Machine

/-! ### The step, input by input -/

theorem step_reset {s : State} {rest : List HostInput} (hp : s.pending = .reset :: rest) :
    step s = .next (powerOn { s with pending := rest }) := by
  simp [step, hp]

theorem step_present {s : State} {e : Encoded} {rest : List HostInput} {i : Instr} (hp : s.pending = .present e :: rest)
    (hb : s.busy = false) (hf : s.fault = false) (hd : decode e = .ok i) :
    step s = settleAfter s.prims (exec i (acceptInput e { s with pending := rest })) := by
  simp [step, hp, hb, hf, hd]

theorem step_resetDuring {s : State} {e : Encoded} {k : Nat} {rest : List HostInput} {i : Instr}
    (hp : s.pending = .resetDuring e k :: rest) (hb : s.busy = false) (hf : s.fault = false) (hd : decode e = .ok i) :
    step s = resetAfter s.lineFaults (exec i (acceptInput e (State.cutAt { s with pending := rest } (s.prims + k)))) := by
  simp [step, hp, hb, hf, hd]

/-- Settles O7: the step on a presented input. -/
theorem stepRunsDecoded : Obligations.StepRunsDecoded :=
  fun _ _ _ _ hp hb hf hd => step_present hp hb hf hd

/-- Settles O11: with nothing presented the step looks at `STAT` only. -/
theorem nothingPresented : Obligations.NothingPresented := by
  intro s hp
  constructor
  · intro hb hf
    simp [step, hp, hb, hf]
  · intro hf
    simp [step, hp, hf]

/-! ### Reset -/

/-- A reset releases the block; it keeps the parameters and the faults to come. -/
theorem released_powerOn {s u : State} {rest : List HostInput} (hc : u.cfg = s.cfg) (hl : u.lineFaults = s.lineFaults)
    (hp : u.pending = rest) : Released s (powerOn u) rest where
  clk_mode := rfl
  io_mode := rfl
  ce_mode := rfl
  ph := rfl
  txn := rfl
  seq := rfl
  stat := (by decide : BitVec.ofBool false ++ BitVec.ofBool false = 0#2)
  trace := rfl
  cfg := hc
  lineFaults := hl
  pending := hp

/-- Settles O12: a reset between operations, and one in place of a primitive, which leaves of the abandoned operation
what it has done to the peripheral. -/
theorem resetInputReleases : Obligations.ResetInputReleases := by
  intro s rest
  refine ⟨fun hp => ⟨_, step_reset hp, released_powerOn rfl rfl rfl, rfl, rfl⟩, fun e k i hp hb hf hd => ⟨?_, ?_⟩⟩
  · intro u hx
    obtain ⟨hcfg, -, hpending, -⟩ := exec_accepted_extends hx
    refine ⟨powerOn { u with lineFaults := s.lineFaults }, ?_, released_powerOn hcfg rfl hpending, rfl, rfl⟩
    rw [step_resetDuring hp hb hf hd, hx]
    rfl
  · intro r hx
    rw [step_resetDuring hp hb hf hd, hx]
    rfl

/-! ### The block's invariant -/

/-- A `P_store` that has seen an edge keeps its canonical form, and counts no further than 16 (R72, R73). -/
theorem PStore.wf_clock {io : LineState} {p q : PStore} (h : periphWf (.store p))
    (hc : PStore.clock io p = .ok q) : periphWf (.store q) := by
  obtain ⟨hm, hn⟩ := h
  unfold PStore.clock at hc
  split at hc
  · split at hc
    · obtain rfl := Except.ok.inj hc
      exact ⟨hm, Nat.le_of_lt_succ (by omega : p.n + 1 < 17)⟩
    · cases hc
  split at hc
  · have hn' : p.n + 1 ≤ 16 := by omega
    split at hc
    · obtain rfl := Except.ok.inj hc
      exact ⟨hm, hn'⟩
    split at hc
    · split at hc
      · split at hc
        · rename_i k hk
          obtain rfl := Except.ok.inj hc
          exact ⟨Memory.wf_write _ hm (rowOf_lt hk), hn'⟩
        · cases hc
      · obtain rfl := Except.ok.inj hc
        exact ⟨hm, hn'⟩
    · cases hc
  · cases hc

theorem PStore.wf_observe {e : Event} {io ce : LineState} {p q : PStore} (h : periphWf (.store p))
    (ho : PStore.observe e io ce p = .ok q) : periphWf (.store q) := by
  match e with
  | .set .ce true =>
    obtain rfl := Except.ok.inj ho
    exact ⟨h.1, Nat.zero_le 16⟩
  | .set .ce false =>
    simp only [PStore.observe] at ho
    split at ho
    · obtain rfl := Except.ok.inj ho
      exact h
    · cases ho
  | .set .clk true =>
    simp only [PStore.observe] at ho
    split at ho
    · exact PStore.wf_clock h ho
    · cases ho
  | .set .clk false | .set .io _ | .cfg _ _ | .sample _ _ | .delay _ =>
    obtain rfl := Except.ok.inj ho
    exact h

/-- The peripheral stays well formed at every event. -/
theorem periphWf_observe {e : Event} {io ce : LineState} {p q : Periph} (h : periphWf p)
    (ho : Periph.observe e io ce p = .ok q) : periphWf q := by
  cases p with
  | unbound => obtain rfl := Except.ok.inj ho; exact h
  | oracle o => obtain rfl := Except.ok.inj ho; exact h
  | store p =>
    simp only [Periph.observe] at ho
    split at ho
    · rename_i p' hp'
      obtain rfl := Except.ok.inj ho
      exact PStore.wf_observe h hp'
    · cases ho

/-- The peripheral stays well formed at every sample. -/
theorem periphWf_sampleNow {s : State} {b : Level} {p : Periph} {n : Nat} (h : periphWf s.periph)
    (hs : s.sampleNow = .ok (b, p, n)) : periphWf p := by
  cases hp : s.periph with
  | unbound =>
    rw [State.sampleNow_unbound hp] at hs
    cases hs
    trivial
  | store q =>
    rw [State.sampleNow_store hp] at hs
    split at hs
    · cases hs
      rwa [hp] at h
    · cases hs
  | oracle o =>
    rw [State.sampleNow_oracle hp] at hs
    split at hs <;> cases hs <;> trivial

/-- The part of the invariant that does not speak of `STAT`, `RW` or the engine's position: every primitive keeps it. -/
structure BodyInv (s : State) : Prop where
  clk_mode : s.clk.mode ≠ .inp
  ce_mode : s.ce.mode ≠ .inp
  bc_le : s.bc.toNat ≤ 8
  periph_wf : periphWf s.periph

theorem BodyInv.congr {s t : State} (h : BodyInv s) (hclk : t.clk = s.clk) (hce : t.ce = s.ce) (hbc : t.bc = s.bc)
    (hp : t.periph = s.periph) : BodyInv t :=
  ⟨hclk ▸ h.clk_mode, hce ▸ h.ce_mode, hbc ▸ h.bc_le, hp ▸ h.periph_wf⟩

/-- What a fault's entry leaves in the flags and the response word (R253). -/
structure FaultFlags (s : State) : Prop where
  busy : s.busy = true
  fault : s.fault = true
  rw_word : s.rw = 0x4000000000000000#64
  info : s.faultInfo.isSome = true

theorem responseWord_lineFault : responseWord statusLineFault 0 = 0x4000000000000000#64 := by decide

theorem keptBodyInv : Kept (fun s => BodyInv s ∧ s.fault = false) (fun s => BodyInv s ∧ FaultFlags s) where
  cfgOut l s := fun ⟨⟨hclk, hce, hbc, hp⟩, hf⟩ => by
    cases l with
    | clk => exact ⟨⟨nofun, hce, hbc, hp⟩, hf⟩
    | io => exact ⟨⟨hclk, hce, hbc, hp⟩, hf⟩
    | ce => exact ⟨⟨hclk, nofun, hbc, hp⟩, hf⟩
  cfgIn _ := fun ⟨h, hf⟩ => ⟨h.congr rfl rfl rfl rfl, hf⟩
  setTo l b p s := fun ⟨⟨hclk, hce, hbc, hp⟩, hf⟩ ho => by
    have hp' := periphWf_observe hp ho
    cases l <;> exact ⟨⟨hclk, hce, hbc, hp'⟩, hf⟩
  slept _ _ := fun ⟨h, hf⟩ => ⟨h.congr rfl rfl rfl rfl, hf⟩
  sampled _ _ _ _ _ := fun ⟨⟨hclk, hce, hbc, hp⟩, hf⟩ hs => ⟨⟨hclk, hce, hbc, periphWf_sampleNow hp hs⟩, hf⟩
  engine _ _ _ _ _ _ := fun ⟨h, hf⟩ => ⟨h.congr rfl rfl rfl rfl, hf⟩
  count _ _ := fun ⟨⟨hclk, hce, _, hp⟩, hf⟩ hx => ⟨⟨hclk, hce, hx, hp⟩, hf⟩
  faulted _ _ _ := fun ⟨h, _⟩ => ⟨h.congr rfl rfl rfl rfl, rfl, rfl, responseWord_lineFault, rfl⟩

/-- Between operations the engine stands at (0, NONE, IDLE) (R28). -/
def State.atRest (s : State) : Prop := s.ph = .idle ∧ s.txn = .none ∧ s.seq = 0

theorem State.atRest_setTo {s : State} (h : s.atRest) (l : Line) (b : Level) (p : Periph) : (s.setTo l b p).atRest := by
  cases l <;> exact h

theorem State.atRest_cfgOut {s : State} (h : s.atRest) (l : Line) : (s.cfgOut l).atRest := by
  cases l <;> exact h

theorem State.atRest_cfgIn {s : State} (h : s.atRest) (l : Line) : (s.cfgIn l).atRest := by
  cases l <;> exact h

theorem State.stepsWritten_idle {ps : List (Byte × Byte)} {k : BitVec 4} {s : State} (hph : s.ph = .idle)
    (htxn : s.txn = .none) : (State.stepsWritten k ps s).ph = .idle ∧ (State.stepsWritten k ps s).txn = .none := by
  induction ps generalizing k s with
  | nil => exact ⟨hph, htxn⟩
  | cons q ps ih => exact ih rfl rfl

theorem wireCommand_atRest {b : Byte} {s t : State} (h : s.atRest) (hx : wireCommand b s = .next t)
    (hf : t.fault = false) : t.atRest := by
  obtain ⟨-, -, hseq⟩ := h
  obtain ⟨-, p, rfl⟩ := wireCommand_done hx hf
  exact ⟨rfl, rfl, hseq⟩

/-- The null backend does nothing but answer (R231). -/
theorem exec_next_onNull {i : Instr} {s t : State} (hn : onNull s = true) (hx : exec i s = .next t) :
    ∃ p, t = respond p s := by
  cases i with
  | init | settime _ | readtime =>
    simp only [exec, execInit, execSettime, execReadtime, hn, if_true] at hx
    exact ⟨_, (Host.Outcome.next.inj hx).symm⟩
  | bcd2dec _ | dec2bcd _ => exact ⟨_, (Host.Outcome.next.inj hx).symm⟩
  | wrreg _ _ => simp [exec, execWrreg, hn] at hx
  | rdreg _ => simp [exec, execRdreg, hn] at hx
  | cehi => simp [exec, execCehi, hn] at hx
  | celo => simp [exec, execCelo, hn] at hx
  | wrbyte _ => simp [exec, execWrbyte, hn] at hx
  | rdbyte => simp [exec, execRdbyte, hn] at hx
  | cfgline _ _ => simp [exec, execCfgline, hn] at hx
  | sethi _ => simp [exec, execSethi, hn] at hx
  | setlo _ => simp [exec, execSetlo, hn] at hx
  | rdlvl _ => simp [exec, execRdlvl, hn] at hx
  | sleep _ => simp [exec, execSleep, hn] at hx
  | secW | secR | minW | minR | hourW | hourR | dateW | dateR
  | monthW | monthR | dayW | dayR | yearW | yearR | wpW | wpR =>
    have hw : wireCommand _ s = .next t := hx
    simp [wireCommand, hn] at hw

/-- Every operation that is answered without a fault brings the engine back to rest. -/
theorem exec_atRest {i : Instr} {s t : State} (h : s.atRest) (hx : exec i s = .next t) (hf : t.fault = false) :
    t.atRest := by
  have ⟨hph, htxn, hseq⟩ := h
  cases hn : onNull s with
  | true =>
    obtain ⟨p, rfl⟩ := exec_next_onNull hn hx
    exact h
  | false =>
    cases i with
    | init =>
      obtain ⟨-, rfl⟩ := init_done hn hx hf
      exact h
    | settime x =>
      obtain ⟨-, -, rfl⟩ := settime_done hn hx hf
      obtain ⟨hph', htxn'⟩ := State.stepsWritten_idle (ps := setTimePairs x) (k := 0) hph htxn
      exact ⟨hph', htxn', rfl⟩
    | readtime =>
      obtain ⟨-, rs, u, hu, rfl⟩ := readtime_done hn hx hf
      obtain ⟨hph', htxn', -⟩ := readSteps_ends (by decide) hu
      exact ⟨hph', htxn', rfl⟩
    | wrreg a v =>
      obtain ⟨-, -, -, rfl⟩ := wrreg_done hx hf
      exact ⟨rfl, rfl, hseq⟩
    | rdreg a =>
      obtain ⟨-, -, -, r, p, n, -, rfl⟩ := rdreg_done hx hf
      exact ⟨rfl, rfl, hseq⟩
    | cehi =>
      obtain ⟨-, rfl⟩ := cehi_done hx hf
      exact h
    | celo =>
      obtain ⟨-, -, rfl⟩ := celo_done hx hf
      exact h
    | wrbyte v =>
      obtain ⟨-, p, -, rfl⟩ := wrbyte_done hx hf
      exact ⟨rfl, htxn, hseq⟩
    | rdbyte =>
      obtain ⟨-, r, p, n, rfl⟩ := rdbyte_done hx hf
      exact ⟨rfl, htxn, hseq⟩
    | bcd2dec _ | dec2bcd _ =>
      obtain rfl := Host.Outcome.next.inj hx
      exact h
    | cfgline l d =>
      obtain ⟨-, rfl⟩ := cfgline_done hx hf
      cases d with
      | out => exact State.atRest_cfgOut h l
      | inp => exact State.atRest_cfgIn h l
    | sethi l =>
      obtain ⟨-, p, -, rfl⟩ := sethi_done hx hf
      exact State.atRest_setTo h l _ p
    | setlo l =>
      obtain ⟨-, p, -, rfl⟩ := setlo_done hx hf
      exact State.atRest_setTo h l _ p
    | rdlvl l =>
      obtain ⟨-, b, p, n, -, rfl⟩ := rdlvl_done hx hf
      exact h
    | sleep d =>
      obtain rfl := sleep_exec_done hx hf
      exact h
    | secW | secR | minW | minR | hourW | hourR | dateW | dateR
    | monthW | monthR | dayW | dayR | yearW | yearR | wpW | wpR => exact wireCommand_atRest h hx hf

/-- Every operation keeps the body of the invariant; it ends in its response with the engine at rest, or in the fault. -/
theorem blockInv_exec {i : Instr} {s t : State} (h : BodyInv s) (hf : s.fault = false) (hr : s.atRest)
    (hx : exec i s = .next t) : BlockInv t := by
  rcases keptBodyInv.exec ⟨h, hf⟩ hx with ⟨p, u, ⟨hu, huf⟩, rfl⟩ | ⟨ht, htf⟩
  · exact ⟨hu.clk_mode, hu.ce_mode, hu.bc_le, huf.symm, fun hc => absurd (huf.symm.trans hc) (by decide),
      fun _ => exec_atRest hr hx huf, hu.periph_wf⟩
  · exact ⟨ht.clk_mode, ht.ce_mode, ht.bc_le, htf.busy.trans htf.fault.symm, fun _ => ⟨htf.rw_word, htf.info⟩,
      fun hc => absurd (htf.fault.symm.trans hc) (by decide), ht.periph_wf⟩

/-- The free value `BC` takes between operations is one of 0..8 (R20, U23). -/
theorem freeBc_toNat_le (n : Nat) : (BitVec.ofNat 4 (Config.freeBc n).val).toNat ≤ 8 := by
  rw [BitVec.toNat_ofNat]
  omega

theorem blockInv_powerOn {s : State} (h : periphWf s.periph) : BlockInv (powerOn s) where
  clk_mode := nofun
  ce_mode := nofun
  bc_le := freeBc_toNat_le _
  busy_iff := rfl
  fault_rw := nofun
  idle_position _ := ⟨rfl, rfl, rfl⟩
  periph_wf := h

/-- From a state that meets the invariant and has taken no fault, an accepted operation ends in one that meets it. -/
theorem blockInv_accepted {i : Instr} {e : Encoded} {rest : List HostInput} {s t : State} (h : BlockInv s)
    (hf : s.fault = false) {fs : List Nat}
    (hx : exec i (acceptInput e { s with pending := rest, lineFaults := fs }) = .next t) : BlockInv t := by
  refine blockInv_exec ⟨?_, ?_, ?_, ?_⟩ (by simpa using hf) ?_ hx
  · simpa using h.clk_mode
  · simpa using h.ce_mode
  · simpa using h.bc_le
  · simpa using h.periph_wf
  · simpa [State.atRest] using h.idle_position hf

theorem blockInv_settle {s : State} (h : BlockInv s) : BlockInv (settle s) :=
  ⟨h.clk_mode, h.ce_mode, freeBc_toNat_le _, h.busy_iff, h.fault_rw, h.idle_position, h.periph_wf⟩

theorem blockInv_answerIllegal {w : Word} {s : State} (h : BlockInv s) (hf : s.fault = false) :
    BlockInv (answerIllegal w s) :=
  ⟨h.clk_mode, h.ce_mode, h.bc_le, h.busy_iff, fun hc => absurd (hf.symm.trans hc) (by decide), h.idle_position,
    h.periph_wf⟩

/-- The invariant does not look at the host's inputs. -/
theorem BlockInv.withPending {s : State} (h : BlockInv s) (rest : List HostInput) : BlockInv { s with pending := rest } :=
  ⟨h.clk_mode, h.ce_mode, h.bc_le, h.busy_iff, h.fault_rw, h.idle_position, h.periph_wf⟩

/-- Settles O54: an operation keeps the body of the invariant and ends at rest or in the fault; a reset restores it all. -/
theorem stepKeepsInv : Obligations.StepKeepsInv := by
  intro s t h hstep
  cases step_next hstep with
  | idles => exact h
  | resets => exact blockInv_powerOn h.periph_wf
  | answers _ _ hf _ hx => exact blockInv_accepted h hf hx
  | settles _ _ hf _ hx => exact blockInv_settle (blockInv_accepted h hf hx)
  | rejects _ _ hf => exact blockInv_answerIllegal (h.withPending _) hf
  | abandons _ _ hf _ hx => exact blockInv_powerOn (blockInv_accepted h hf hx).periph_wf
  | abandonsRejected => exact blockInv_powerOn h.periph_wf

/-- Settles O53: after construction every line is released, the trace is empty and nothing is wired. -/
theorem invariantsAtReset : Obligations.InvariantsAtReset := by
  refine fun c => ⟨⟨nofun, nofun, Nat.zero_le 8, rfl, nofun, fun _ => ⟨rfl, rfl, rfl⟩, trivial⟩, fun l => ⟨?_, nofun⟩⟩
  cases l <;> rfl

/-! ### The engine's registers carry nothing -/

/-- The same state with other contents of `SR`, `BC`, `TMR`, `CW` and `RW`. -/
def State.withRegs (s : State) (sr : Byte) (bc : BitVec 4) (tmr : Nat) (cw rw : Word) : State :=
  { s with sr := sr, bc := bc, tmr := tmr, cw := cw, rw := rw }

/-- `t` is `s` but for `SR`, `BC`, `TMR`, `CW` and `RW`. -/
def SameButRegs (s t : State) : Prop := ∃ sr bc tmr cw rw, t = s.withRegs sr bc tmr cw rw

/-- A primitive and a move of the engine write at most registers that may differ, and read none of them. -/
theorem keptSameButRegs : KeptRel SameButRegs (fun s t => s.scrub = t.scrub) where
  cfgOut | l, _, _, ⟨sr, bc, tmr, cw, rw, rfl⟩ => ⟨sr, bc, tmr, cw, rw, by cases l <;> rfl⟩
  cfgIn | l, _, _, ⟨sr, bc, tmr, cw, rw, rfl⟩ => ⟨sr, bc, tmr, cw, rw, by cases l <;> rfl⟩
  setTo | l, _, _, _, _, ⟨sr, bc, tmr, cw, rw, rfl⟩ => ⟨sr, bc, tmr, cw, rw, by cases l <;> rfl⟩
  slept | _, _, _, ⟨sr, bc, _, cw, rw, rfl⟩ => ⟨sr, bc, 0, cw, rw, rfl⟩
  sampled | _, _, _, _, _, _, ⟨sr, bc, tmr, cw, rw, rfl⟩ => ⟨sr, bc, tmr, cw, rw, rfl⟩
  phase | _, _, _, ⟨sr, bc, tmr, cw, rw, rfl⟩ => ⟨sr, bc, tmr, cw, rw, rfl⟩
  txn | _, _, _, ⟨sr, bc, tmr, cw, rw, rfl⟩ => ⟨sr, bc, tmr, cw, rw, rfl⟩
  seq | _, _, _, ⟨sr, bc, tmr, cw, rw, rfl⟩ => ⟨sr, bc, tmr, cw, rw, rfl⟩
  regs | _, _, _, sr, bc, tmr, _, _, ⟨_, _, _, cw, rw, rfl⟩ => ⟨sr, bc, tmr, cw, rw, rfl⟩
  faulted | _, _, _, _, ⟨_, _, _, _, _, rfl⟩ => rfl
  faults | _, _, ⟨_, _, _, _, _, rfl⟩ => rfl
  observes | _, _, _, _, ⟨_, _, _, _, _, rfl⟩ => rfl
  samples | _, _, ⟨_, _, _, _, _, rfl⟩ => rfl

/-- The response word is written over, so nothing that may differ is left once the rest is scrubbed. -/
theorem SameButRegs.scrub_respond {s t : State} (h : SameButRegs s t) (p : BitVec 56) :
    (respond p s).scrub = (respond p t).scrub := by
  obtain ⟨sr, bc, tmr, cw, rw, rfl⟩ := h
  rfl

/-- Settles O58: two runs from states that differ in these registers only differ in `SR`, `BC`, `TMR` and `CW` only. -/
theorem engineRegistersCarryNothing : Obligations.EngineRegistersCarryNothing := by
  intro i s sr bc tmr cw rw
  have h := keptSameButRegs.exec i (s := s) (t := s.withRegs sr bc tmr cw rw) ⟨sr, bc, tmr, cw, rw, rfl⟩ rfl rfl rfl rfl
  show scrubOutcome (exec i (s.withRegs sr bc tmr cw rw)) = scrubOutcome (exec i s)
  rcases h with ⟨p, u, v, huv, hs, ht⟩ | ⟨u, v, huv, hs, ht⟩ | ⟨r, hs, ht⟩
  · rw [hs, ht]
    exact congrArg Host.Outcome.next (huv.scrub_respond p).symm
  · rw [hs, ht]
    exact congrArg Host.Outcome.next huv.symm
  · rw [hs, ht]

/-! ### The direction of `IO` is not inherited -/

/-- The same state with another record of `IO`. -/
def State.withIo (s : State) (x : LineState) : State := { s with io := x }

/-- `t` is `s` but for the record of `IO`. -/
def SameButIo (s t : State) : Prop := ∃ x, t = s.withIo x

/-- `t` is `s` but for the level of `IO` while it is not an output, which nothing reads (log entry 23), and for the
registers that no operation depends on. -/
def SameDrive (s t : State) : Prop :=
  ∃ x : LineState, SameButRegs (s.withIo x) t ∧ x.mode = s.io.mode ∧ (s.io.mode = .out → x = s.io)

/-- Both states show the same. -/
def SameShown (s t : State) : Prop := s.observation = t.observation

/-- Whoever looks at `IO` on an event looks at its level only while it is an output. -/
theorem PStore.observe_io_congr {e : Event} {io io' ce : LineState} {p : PStore} (hm : io'.mode = io.mode)
    (hl : io.mode = .out → io' = io) : PStore.observe e io ce p = PStore.observe e io' ce p := by
  by_cases ho : io.mode = .out
  · rw [hl ho]
  · have ho' : io'.mode ≠ .out := by rwa [hm]
    simp only [PStore.observe, PStore.clock, ho, ho', if_false]

theorem Periph.observe_io_congr {e : Event} {io io' ce : LineState} {p : Periph} (hm : io'.mode = io.mode)
    (hl : io.mode = .out → io' = io) : Periph.observe e io ce p = Periph.observe e io' ce p := by
  cases p with
  | unbound => rfl
  | store q => simp only [Periph.observe, PStore.observe_io_congr hm hl]
  | oracle o => rfl

/-- A sample looks at the mode of `IO` only. -/
theorem State.sampleNow_withIo {s : State} {x : LineState} (hm : x.mode = s.io.mode) :
    s.sampleNow = (s.withIo x).sampleNow := by
  cases hp : s.periph with
  | unbound => rw [State.sampleNow_unbound hp, State.sampleNow_unbound (s := s.withIo x) hp]; rfl
  | oracle o => rw [State.sampleNow_oracle hp, State.sampleNow_oracle (s := s.withIo x) hp]; rfl
  | store q =>
    rw [State.sampleNow_store hp, State.sampleNow_store (s := s.withIo x) hp]
    simp only [PStore.answer, State.withIo, hm]

/-- `Cfg` and `Set` on `IO` make of it the same on both sides, up to the level of an input; the rest is
`keptSameButRegs`. -/
theorem keptSameDrive : KeptRel SameDrive SameShown where
  cfgOut l s t := fun ⟨x, h, hm, hl⟩ => by
    have h' := keptSameButRegs.cfgOut l _ _ h
    cases l with
    | io => exact ⟨_, h', rfl, fun _ => rfl⟩
    | clk | ce => exact ⟨x, h', hm, hl⟩
  cfgIn l s t := fun ⟨x, h, hm, hl⟩ => by
    have h' := keptSameButRegs.cfgIn l _ _ h
    cases l with
    | io => exact ⟨⟨.inp, x.level⟩, h', rfl, nofun⟩
    | clk | ce => exact ⟨x, h', hm, hl⟩
  setTo l b p s t := fun ⟨x, h, hm, hl⟩ => by
    have h' := keptSameButRegs.setTo l b p _ _ h
    cases l with
    | io => exact ⟨⟨x.mode, b⟩, h', hm, fun _ => congrArg (LineState.mk · b) hm⟩
    | clk | ce => exact ⟨x, h', hm, hl⟩
  slept d _ _ := fun ⟨x, h, hx⟩ => ⟨x, keptSameButRegs.slept d _ _ h, hx⟩
  sampled l b p n _ _ := fun ⟨x, h, hx⟩ => ⟨x, keptSameButRegs.sampled l b p n _ _ h, hx⟩
  phase p _ _ := fun ⟨x, h, hx⟩ => ⟨x, keptSameButRegs.phase p _ _ h, hx⟩
  txn y _ _ := fun ⟨x, h, hx⟩ => ⟨x, keptSameButRegs.txn y _ _ h, hx⟩
  seq k _ _ := fun ⟨x, h, hx⟩ => ⟨x, keptSameButRegs.seq k _ _ h, hx⟩
  regs r y m r' y' m' _ _ := fun ⟨x, h, hx⟩ => ⟨x, keptSameButRegs.regs r y m r' y' m' _ _ h, hx⟩
  faulted l p _ _ := fun ⟨_, h, _⟩ => (congrArg State.observation (keptSameButRegs.faulted l p _ _ h) :)
  faults _ _ := fun ⟨_, h, _⟩ => (keptSameButRegs.faults _ _ h :)
  observes l b _ _ := fun ⟨_, h, hm, hl⟩ =>
    (Periph.observe_io_congr hm hl).trans (keptSameButRegs.observes l b _ _ h)
  samples _ _ := fun ⟨_, h, hm, _⟩ => (State.sampleNow_withIo hm).trans (keptSameButRegs.samples _ _ h)

/-- After the response both show the same. -/
theorem SameDrive.observation_respond {s t : State} (h : SameDrive s t) (p : BitVec 56) :
    (respond p s).observation = (respond p t).observation := by
  obtain ⟨x, ⟨sr, bc, tmr, cw, rw, rfl⟩, hm, -⟩ := h
  exact congrArg (fun m => { (respond p s).observation with ioMode := if s.fault then none else some m }) hm.symm

theorem observeOutcome_congr {o o' : Host.Outcome State Fault Refusal} (h : KeptRel.OutSame SameDrive SameShown o o') :
    observeOutcome o = observeOutcome o' := by
  rcases h with ⟨p, u, v, huv, rfl, rfl⟩ | ⟨u, v, huv, rfl, rfl⟩ | ⟨r, rfl, rfl⟩
  · exact congrArg Host.Outcome.next (huv.observation_respond p)
  · exact congrArg Host.Outcome.next huv
  · rfl

/-- Whether a primitive faults does not depend on `IO`, nor does what the fault shows. -/
theorem attempt_withIo {α : Type} {R : State → State → Prop} {l : Option Line} {p : Primitive} {s : State} {x : LineState}
    {f g : State → Run α}
    (hb : (f { s with prims := s.prims + 1 }).Same R SameShown (g { s.withIo x with prims := s.prims + 1 })) :
    (attempt l p s f).Same R SameShown (attempt l p (s.withIo x) g) := by
  unfold attempt
  rw [show faultsNow (s.withIo x) = faultsNow s from rfl]
  split
  · exact rfl
  · exact hb

/-- From `Cfg(IO, d)` on the direction of before is forgotten (R23). -/
theorem cfgLine_io_withIo (d : Dir) (s : State) (x : LineState) :
    (cfgLine .io d s).Same SameDrive SameShown (cfgLine .io d (s.withIo x)) := by
  cases d with
  | out =>
    rw [cfgLine_out, cfgLine_out]
    exact attempt_withIo ⟨rfl, _, ⟨s.sr, s.bc, s.tmr, s.cw, s.rw, rfl⟩, rfl, fun _ => rfl⟩
  | inp =>
    rw [cfgLine_in, cfgLine_in]
    exact attempt_withIo ⟨rfl, ⟨.inp, x.level⟩, ⟨s.sr, s.bc, s.tmr, s.cw, s.rw, rfl⟩, rfl, nofun⟩

/-- `Set(CE, b)` does not look at `IO`, and no peripheral does on it. -/
theorem setLine_ce_withIo (b : Level) (s : State) (x : LineState) :
    (setLine .ce b s).Same SameButIo SameShown (setLine .ce b (s.withIo x)) := by
  have ho : Periph.observe (.set .ce b) (s.withIo x).io (s.withIo x).ce (s.withIo x).periph =
      Periph.observe (.set .ce b) s.io s.ce s.periph := by
    show Periph.observe _ x s.ce s.periph = _
    cases s.periph <;> cases b <;> rfl
  rw [setLine_eq, setLine_eq]
  refine attempt_withIo ?_
  rw [ho]
  cases Periph.observe (.set .ce b) s.io s.ce s.periph with
  | ok p => exact ⟨rfl, x, rfl⟩
  | error r => exact rfl

theorem writeByte_withIo (v : Byte) (s : State) (x : LineState) :
    (writeByte v s).Same SameDrive SameShown (writeByte v (s.withIo x)) :=
  keptSameDrive.writeByteFrom (cfgLine_io_withIo .out (s.loadWrite v) x)

theorem readByte_withIo (s : State) (x : LineState) :
    (readByte s).Same SameDrive SameShown (readByte (s.withIo x)) :=
  keptSameDrive.readByteFrom (cfgLine_io_withIo .inp s.loadRead x)

theorem writeRegister_withIo (a v : Byte) (s : State) (x : LineState) :
    (writeRegister a v s).Same SameDrive SameShown (writeRegister a v (s.withIo x)) := by
  unfold writeRegister
  refine (setLine_ce_withIo true (s.atTxn .ceHi) x).andThen fun _ s1 _ ⟨y, h1⟩ => h1 ▸ ?_
  refine (writeByte_withIo a (s1.atTxn .addr) y).andThen fun _ _ _ h2 => ?_
  refine (keptSameDrive.writeByte (keptSameDrive.txn _ _ _ h2)).andThen fun _ _ _ h3 => ?_
  exact (keptSameDrive.setLine (keptSameDrive.txn _ _ _ h3)).andThen fun _ _ _ h4 => ⟨rfl, keptSameDrive.txn _ _ _ h4⟩

theorem readRegister_withIo (a : Byte) (s : State) (x : LineState) :
    (readRegister a s).Same SameDrive SameShown (readRegister a (s.withIo x)) := by
  unfold readRegister
  refine (setLine_ce_withIo true (s.atTxn .ceHi) x).andThen fun _ s1 _ ⟨y, h1⟩ => h1 ▸ ?_
  refine (writeByte_withIo a (s1.atTxn .addr) y).andThen fun _ _ _ h2 => ?_
  refine (keptSameDrive.readByte (keptSameDrive.txn _ _ _ h2)).andThen fun _ _ _ h3 => ?_
  exact (keptSameDrive.setLine (keptSameDrive.txn _ _ _ h3)).andThen fun _ _ _ h4 => ⟨rfl, keptSameDrive.txn _ _ _ h4⟩

/-- The first frame of a sequence forgets the direction of `IO`, so the others start alike. -/
theorem writeSteps_withIo (q : Byte × Byte) (ps : List (Byte × Byte)) (k : BitVec 4) (s : State) (x : LineState) :
    (writeSteps k (q :: ps) s).Same SameDrive SameShown (writeSteps k (q :: ps) (s.withIo x)) :=
  (writeRegister_withIo q.1 q.2 (s.atSeq k) x).andThen fun _ _ _ h => keptSameDrive.writeSteps h

theorem readSteps_withIo (a : Byte) (as : List Byte) (k : BitVec 4) (s : State) (x : LineState) :
    (readSteps k (a :: as) s).Same SameDrive SameShown (readSteps k (a :: as) (s.withIo x)) :=
  (readRegister_withIo a (s.atSeq k) x).andThen fun _ _ _ h =>
    (keptSameDrive.readSteps h).andThen fun _ _ _ h' => ⟨rfl, h'⟩

/-! Each operation as a whole: its checks do not look at what may differ, and the rest is its part above. -/

theorem wrbyte_withIo (v : Byte) (s : State) (x : LineState) :
    KeptRel.OutSame SameDrive SameShown (exec (.wrbyte v) s) (exec (.wrbyte v) (s.withIo x)) :=
  KeptRel.guard rfl fun _ => KeptRel.guard rfl fun _ =>
    KeptRel.finish ((writeByte_withIo v s x).andThen fun _ _ _ h => ⟨rfl, h⟩)

theorem rdbyte_withIo (s : State) (x : LineState) :
    KeptRel.OutSame SameDrive SameShown (exec .rdbyte s) (exec .rdbyte (s.withIo x)) :=
  KeptRel.guard rfl fun _ => KeptRel.guard rfl fun _ =>
    KeptRel.finish ((readByte_withIo s x).andThen fun _ _ _ h => ⟨rfl, h⟩)

theorem wireCommand_withIo (b : Byte) (s : State) (x : LineState) :
    KeptRel.OutSame SameDrive SameShown (wireCommand b s) (wireCommand b (s.withIo x)) :=
  KeptRel.guard rfl fun _ => KeptRel.guard rfl fun _ =>
    KeptRel.finish ((writeByte_withIo b (s.atTxn .addr) x).andThen fun _ _ _ h => ⟨rfl, keptSameDrive.txn _ _ _ h⟩)

section Configured

/-! The transactions need `IO` configured (R180): both directions are then idle alike. -/

variable {s : State} {x : LineState} (hs : s.io.mode ≠ .unconf) (hx : x.mode ≠ .unconf)
include hs hx

theorem notIdle_withIo : (!idleState s) = !idleState (s.withIo x) := by
  simp only [idleState, State.withIo, bne_iff_ne.2 hs, bne_iff_ne.2 hx]

theorem wrreg_withIo (a v : Byte) :
    KeptRel.OutSame SameDrive SameShown (exec (.wrreg a v) s) (exec (.wrreg a v) (s.withIo x)) :=
  KeptRel.guard rfl fun _ => KeptRel.guard rfl fun _ => KeptRel.guard (notIdle_withIo hs hx) fun _ =>
    KeptRel.finish ((writeRegister_withIo a v s x).andThen fun _ _ _ h => ⟨rfl, h⟩)

theorem rdreg_withIo (a : Byte) :
    KeptRel.OutSame SameDrive SameShown (exec (.rdreg a) s) (exec (.rdreg a) (s.withIo x)) :=
  KeptRel.guard rfl fun _ => KeptRel.guard rfl fun _ => KeptRel.guard (notIdle_withIo hs hx) fun _ =>
    KeptRel.finish ((readRegister_withIo a s x).andThen fun _ _ _ h => ⟨rfl, h⟩)

theorem settime_withIo (hn : onNull s = false) (t : TimeValue) :
    KeptRel.OutSame SameDrive SameShown (exec (.settime t) s) (exec (.settime t) (s.withIo x)) := by
  simp only [exec, execSettime, hn, show onNull (s.withIo x) = false from hn]
  exact KeptRel.guard rfl fun _ => KeptRel.guard (notIdle_withIo hs hx) fun _ =>
    KeptRel.finish ((writeSteps_withIo _ _ 0 s x).andThen fun _ _ _ h => ⟨rfl, keptSameDrive.seq _ _ _ h⟩)

theorem readtime_withIo (hn : onNull s = false) :
    KeptRel.OutSame SameDrive SameShown (exec .readtime s) (exec .readtime (s.withIo x)) := by
  simp only [exec, execReadtime, hn, show onNull (s.withIo x) = false from hn]
  exact KeptRel.guard (notIdle_withIo hs hx) fun _ =>
    KeptRel.finish ((readSteps_withIo _ _ 0 s x).andThen fun _ _ _ h => ⟨rfl, keptSameDrive.seq _ _ _ h⟩)

end Configured

/-- Settles O59: every one of these operations executes `Cfg(IO, d)` before it uses `IO`, and the fault's entry does not
show the direction. -/
theorem ioDirectionNotInherited : Obligations.IoDirectionNotInherited := by
  intro s x hn
  refine ⟨fun v => ?_, ?_, fun r hr => ?_, fun hs hx => ⟨fun a v => ?_, fun a => ?_, fun t => ?_, ?_⟩⟩
  · exact (observeOutcome_congr (wrbyte_withIo v s x)).symm
  · exact (observeOutcome_congr (rdbyte_withIo s x)).symm
  · rw [exec_wire hr, exec_wire hr]
    exact (observeOutcome_congr (wireCommand_withIo r.2.1 s x)).symm
  · exact (observeOutcome_congr (wrreg_withIo hs hx a v)).symm
  · exact (observeOutcome_congr (rdreg_withIo hs hx a)).symm
  · exact (observeOutcome_congr (settime_withIo hs hx hn t)).symm
  · exact (observeOutcome_congr (readtime_withIo hs hx hn)).symm

end Sys2Proof.Machine
end

section
/-! PROOFS. The wired peripheral: its register space (R60, R72), what one rising edge does to `P_store` (R73), the wire
command bytes (R93, R94), and what the events of a byte and of a frame are made of (R152, R154, R185). -/

namespace Sys2Proof.Machine

/-! ### The register space -/

/-- Settles O60: the two laws of the register space. -/
theorem registerSpaceLaws : Obligations.RegisterSpaceLaws :=
  fun m k v => ⟨fun j => Memory.read_write m k j v, Memory.wf_write v⟩

/-! ### One rising edge, in every position of a frame -/

/-- What an edge that `P_store` accepts makes of it (R73): one edge more, the level on `IO` in its place of the command or of
the data byte of a write frame, and after the sixteenth edge of a write frame the data byte in the command's row. -/
structure PStore.Clocked (io : LineState) (p q : PStore) : Prop where
  n : q.n = p.n + 1
  cmd : ∀ j, j < 8 → q.cmd.getLsbD j = if j = p.n then io.level else p.cmd.getLsbD j
  dat : ∀ j, j < 8 → q.dat.getLsbD j =
    if j + 8 = p.n ∧ p.cmd.getLsbD 0 = false then io.level else p.dat.getLsbD j
  store : ∀ j, Memory.read q.store j =
    if p.n = 15 ∧ p.cmd.getLsbD 0 = false ∧ rowOf p.cmd = some j then some q.dat else Memory.read p.store j

/-- While `CE` is low `P_store` takes no edge; while it is high an edge is the frame's next. -/
theorem PStore.observe_rise (io ce : LineState) (p : PStore) :
    PStore.observe (.set .clk true) io ce p = if ce.level then PStore.clock io p else .error .periphNotSelected := rfl

section Edge

variable {io : LineState} {p : PStore}

theorem PStore.clock_full (hn : 16 ≤ p.n) : PStore.clock io p = .error .periphSeventeenthPulse := by
  rw [PStore.clock, if_neg (by omega), if_neg (by omega)]

/-- An edge that takes a level off `IO` needs `IO` driven: in the command byte, and in the data byte of a write frame. -/
theorem PStore.clock_notDriven (hn : p.n < 8 ∨ (p.n < 16 ∧ p.cmd.getLsbD 0 = false)) (hm : io.mode ≠ .out) :
    PStore.clock io p = .error .periphIoNotDriven := by
  by_cases h8 : p.n < 8
  · rw [PStore.clock, if_pos h8, if_neg hm]
  · obtain ⟨h16, hd⟩ := hn.resolve_left h8
    rw [PStore.clock, if_neg h8, if_pos h16, hd, if_neg Bool.false_ne_true, if_neg hm]

theorem PStore.clock_unknownCommand (hn : p.n = 15) (hd : p.cmd.getLsbD 0 = false) (hm : io.mode = .out)
    (hk : rowOf p.cmd = none) : PStore.clock io p = .error .periphUnknownCommand := by
  rw [PStore.clock, if_neg (by omega), if_pos (by omega), hd, if_neg Bool.false_ne_true, if_pos hm, if_pos (by omega), hk]

/-- Edges one to eight: a bit of the command. -/
theorem PStore.clock_command (hn : p.n < 8) (hm : io.mode = .out) : ∃ q, PStore.clock io p = .ok q ∧ p.Clocked io q := by
  refine ⟨_, by rw [PStore.clock, if_pos hn, if_pos hm], rfl, fun j hj => getLsbD_putBit _ _ _ _ hn hj, fun j _ => ?_,
    fun j => ?_⟩
  · rw [if_neg (by omega)]
  · rw [if_neg (by omega)]

/-- Edges nine to sixteen of a read frame: counted only. -/
theorem PStore.clock_read (hn : 8 ≤ p.n) (h16 : p.n < 16) (hd : p.cmd.getLsbD 0 = true) :
    ∃ q, PStore.clock io p = .ok q ∧ p.Clocked io q := by
  refine ⟨_, by rw [PStore.clock, if_neg (by omega), if_pos h16, if_pos hd], rfl, fun j _ => ?_, fun j _ => ?_, fun j => ?_⟩
  · rw [if_neg (by omega)]
  · simp only [hd, Bool.true_eq_false, and_false, if_false]
  · simp only [hd, Bool.true_eq_false, false_and, and_false, if_false]

/-- The bit that an edge of a write frame puts into the data byte. -/
theorem getLsbD_putData (hn : 8 ≤ p.n) (h16 : p.n < 16) (hd : p.cmd.getLsbD 0 = false) (b : Level) {j : Nat} (hj : j < 8) :
    (putBit p.dat (p.n - 8) b).getLsbD j = if j + 8 = p.n ∧ p.cmd.getLsbD 0 = false then b else p.dat.getLsbD j := by
  rw [getLsbD_putBit _ _ _ _ (by omega) hj]
  exact if_congr ⟨fun h => ⟨by omega, hd⟩, fun h => by omega⟩ rfl rfl

/-- Edges nine to fifteen of a write frame: a bit of the data byte. -/
theorem PStore.clock_data (hn : 8 ≤ p.n) (h15 : p.n < 15) (hd : p.cmd.getLsbD 0 = false) (hm : io.mode = .out) :
    ∃ q, PStore.clock io p = .ok q ∧ p.Clocked io q := by
  refine ⟨{ p with dat := putBit p.dat (p.n - 8) io.level, n := p.n + 1 }, ?_, rfl, fun j _ => ?_,
    fun j => getLsbD_putData hn (by omega) hd io.level, fun j => ?_⟩
  · rw [PStore.clock, if_neg (by omega), if_pos (by omega), hd, if_neg Bool.false_ne_true, if_pos hm, if_neg (by omega)]
  · rw [if_neg (by omega)]
  · rw [if_neg (by omega)]

/-- The sixteenth edge of a write frame: the last bit of the data byte, and the byte is stored. -/
theorem PStore.clock_store {k : Nat} (hn : p.n = 15) (hd : p.cmd.getLsbD 0 = false) (hm : io.mode = .out)
    (hk : rowOf p.cmd = some k) : ∃ q, PStore.clock io p = .ok q ∧ p.Clocked io q := by
  refine ⟨{ p with dat := putBit p.dat (p.n - 8) io.level, n := p.n + 1
                   store := Memory.write p.store k (putBit p.dat (p.n - 8) io.level) }, ?_, rfl, fun j _ => ?_,
    fun j => getLsbD_putData (by omega) (by omega) hd io.level, fun j => ?_⟩
  · rw [PStore.clock, if_neg (by omega), if_pos (by omega), hd, if_neg Bool.false_ne_true, if_pos hm, if_pos (by omega), hk]
  · rw [if_neg (by omega)]
  · rw [Memory.read_write]
    exact if_congr ⟨fun h => ⟨hn, hd, h ▸ hk⟩, fun ⟨_, _, h⟩ => Option.some.inj (h.symm.trans hk)⟩ rfl rfl

/-- Every edge of a frame that has `IO` driven where it takes a level off it, and a row to store its byte in, is accepted. -/
theorem PStore.clock_accepted (h16 : p.n < 16) (hc : p.n < 8 → io.mode = .out)
    (hw : 8 ≤ p.n → p.cmd.getLsbD 0 = false → io.mode = .out ∧ (p.n = 15 → (rowOf p.cmd).isSome = true)) :
    ∃ q, PStore.clock io p = .ok q ∧ p.Clocked io q := by
  by_cases h8 : p.n < 8
  · exact PStore.clock_command h8 (hc h8)
  cases hd : p.cmd.getLsbD 0 with
  | true => exact PStore.clock_read (by omega) h16 hd
  | false =>
    obtain ⟨hm, hrow⟩ := hw (by omega) hd
    by_cases h15 : p.n = 15
    · obtain ⟨k, hk⟩ := Option.isSome_iff_exists.1 (hrow h15)
      exact PStore.clock_store h15 hd hm hk
    · exact PStore.clock_data (by omega) (by omega) hd hm

end Edge

section Sethi

variable {s : State} {p : PStore} (hn : onNull s = false) (hm : s.clk.mode = .out) (hp : s.periph = .store p)
  (hf : faultFree s 1)
include hn hm hp hf

/-- SETHI of `CLK` where `P_store` accepts the edge. -/
theorem exec_sethi_clk_store {q : PStore} (ho : PStore.observe (.set .clk true) s.io s.ce p = .ok q) :
    exec (.sethi .clk) s = .next
      { s with clk := ⟨.out, true⟩, trace := s.trace ++ [.set .clk true], rw := 0, busy := false,
               prims := s.prims + 1, periph := .store q } := by
  have hq : Periph.observe (.set .clk true) s.io s.ce s.periph = .ok (.store q) := by simp only [hp, Periph.observe, ho]
  rw [exec_sethi (l := .clk) hn hm, (setLine_plays hq).runs hf, Run.andThen_done, finish_done]
  simp only [respond, State.setTo, State.withLine, State.line, hm, okResponse_zero]

/-- SETHI of `CLK` where `P_store` refuses the edge. -/
theorem exec_sethi_clk_store_refused {r : Refusal} (ho : PStore.observe (.set .clk true) s.io s.ce p = .error r) :
    exec (.sethi .clk) s = .refused r := by
  have hr : Periph.observe (.set .clk true) s.io s.ce s.periph = .error r := by simp only [hp, Periph.observe, ho]
  rw [exec_sethi (l := .clk) hn hm, setLine_refused hf hr, Run.andThen_refused, finish_refused]

end Sethi

/-- Settles O21: SETHI of `CLK` does what `P_store` does with the edge, position by position. -/
theorem clockEdgeStore : Obligations.ClockEdgeStore := by
  intro s p hn hm hp hf
  have rise (hc : s.ce.level = true) : PStore.observe (.set .clk true) s.io s.ce p = PStore.clock s.io p := by
    rw [PStore.observe_rise, if_pos hc]
  have refused {r : Refusal} := exec_sethi_clk_store_refused (r := r) hn hm hp hf
  refine ⟨fun hc => refused ?_, fun hc h16 => refused ?_, fun hc h hio => refused ?_,
    fun hc h15 hd hio hk => refused ?_, fun hc h16 hcmd hdat => ?_⟩
  · rw [PStore.observe_rise, hc, if_neg Bool.false_ne_true]
  · rw [rise hc, PStore.clock_full h16]
  · rw [rise hc, PStore.clock_notDriven h hio]
  · rw [rise hc, PStore.clock_unknownCommand h15 hd hio hk]
  · obtain ⟨q, hq, hqn, hqc, hqd, hqs⟩ := PStore.clock_accepted h16 hcmd hdat
    exact ⟨q, exec_sethi_clk_store hn hm hp hf ((rise hc).trans hq), hqn, hqc, hqd, hqs⟩

/-! ### Wire command bytes -/

/-- Each row of the table decodes to its instruction. -/
theorem decode_wireRows : ∀ r ∈ wireRows, decode (.wire r.2.1) = .ok r.1 := by decide +kernel

/-- Each row of the table selects its row of the register map (R61). -/
theorem rowOf_wireRows : ∀ r ∈ wireRows, rowOf r.2.1 = some r.2.2 := by decide +kernel

/-- R94: bit 7 set and bits 6:4 clear. -/
theorem highBits_wireRows : ∀ r ∈ wireRows, r.2.1.extractLsb' 4 4 = 8#4 := by decide +kernel

/-- R94: bit 0 is the direction, set for a read. -/
theorem direction_wireRows :
    ∀ r ∈ wireRows, isReadAddr r.2.1 = r.2.1.getLsbD 0 ∧ isWriteAddr r.2.1 = !r.2.1.getLsbD 0 := by decide +kernel

/-- A byte that the table does not list is no command byte; checked byte by byte. -/
theorem decodeWire_listed_or_error :
    ∀ b : Byte, (∃ r ∈ wireRows, r.2.1 = b) ∨ decodeWire b = .error .notACommandByte := by decide +kernel

/-- Settles O5: the decoder and the table list the same sixteen bytes. -/
theorem wireBytesDecode : Obligations.WireBytesDecode := by
  refine ⟨fun b => ⟨fun ⟨i, hi⟩ => (decodeWire_listed_or_error b).resolve_right fun he => ?_, ?_⟩, fun r hr => ?_⟩
  · exact nomatch (show decodeWire b = .ok i from hi).symm.trans he
  · rintro ⟨r, hr, rfl⟩
    exact ⟨r.1, decode_wireRows r hr⟩
  · exact ⟨decode_wireRows r hr, rowOf_wireRows r hr, highBits_wireRows r hr, direction_wireRows r hr⟩

/-! ### The events of a frame -/

theorem risingEdges_writeFrame (a v : Byte) : risingEdges (writeFrame a v) = 16 := by
  simp only [writeFrame, risingEdges_append, risingEdges_writeByte]
  rfl

theorem risingEdges_readFrame (a r : Byte) : risingEdges (readFrame a r) = 16 := by
  simp only [readFrame, risingEdges_append, risingEdges_writeByte, risingEdges_readByte]
  rfl

theorem fallingEdges_writeFrame (a v : Byte) : fallingEdges (writeFrame a v) = 16 := by
  simp only [writeFrame, fallingEdges_append, fallingEdges_writeByte]
  rfl

theorem fallingEdges_readFrame (a r : Byte) : fallingEdges (readFrame a r) = 16 := by
  simp only [readFrame, fallingEdges_append, fallingEdges_writeByte, fallingEdges_readByte]
  rfl

theorem ioLevels_readFrame (a r : Byte) : ioLevels (readFrame a r) = bitsOf a := by
  simp only [readFrame, ioLevels_append, ioLevels_writeByte, ioLevels_readByte]
  rfl

/-- The edges of a write frame take the address, then the data (R63, R64). -/
theorem levelsAtRising_writeFrame (b : Level) (a v : Byte) :
    levelsAtRising b (writeFrame a v) = bitsOf a ++ bitsOf v := by
  simp only [writeFrame, List.append_assoc, List.cons_append, List.nil_append, levelsAtRising, levelsAtRising_writeByte,
    List.append_nil]

/-- The first eight edges of a read frame take the address. -/
theorem levelsAtRising_readFrame_take (b : Level) (a r : Byte) :
    (levelsAtRising b (readFrame a r)).take 8 = bitsOf a := by
  simp only [readFrame, List.append_assoc, List.cons_append, List.nil_append, levelsAtRising, levelsAtRising_writeByte]
  exact List.take_left' rfl

/-- Settles O28: the counts of a byte, then those of a frame, then the bits at the rising edges. -/
theorem wireEventCounts : Obligations.WireEventCounts := fun a v =>
  ⟨writeByteEvents_length v, readByteEvents_length v, risingEdges_writeByte v, risingEdges_readByte v,
    fallingEdges_writeByte v, fallingEdges_readByte v, delayMicros_writeByte v, delayMicros_readByte v,
    ioLevels_writeByte v, ioLevels_readByte v, writeFrame_length a v, readFrame_length a v,
    risingEdges_writeFrame a v, risingEdges_readFrame a v, fallingEdges_writeFrame a v, fallingEdges_readFrame a v,
    delayMicros_writeFrame a v, delayMicros_readFrame a v, fun b => levelsAtRising_writeFrame b a v,
    fun b => levelsAtRising_readFrame_take b a v, ioLevels_readFrame a v⟩

end Sys2Proof.Machine
end

section
/-! PROOFS. The encoding: a word is the concatenation of its fields, the decoder and the encoder are inverse to each other
(R93, R100 to R103), and the table's masks and matches select the encoded words (R102, R105). -/

namespace Sys2Proof

/-! ### A word is the concatenation of its fields -/

/-- Adjacent fields read together. -/
theorem fieldOf_append (w : Word) (lo k n : Nat) : fieldOf w (lo + k) n ++ fieldOf w lo k = fieldOf w lo (n + k) :=
  BitVec.extractLsb'_append_extractLsb'_eq_extractLsb' rfl

theorem fieldOf_all (w : Word) : fieldOf w 0 64 = w := BitVec.extractLsb'_eq_self

section Fields

variable {w : Word}

theorem encodeN_fields (h : fieldOf w 0 56 = 0#56) : encodeN (fieldOf w 56 8) = w := by
  rw [encodeN, ← h]
  exact (fieldOf_append w 0 56 8).trans (fieldOf_all w)

theorem encodeT_fields (w : Word) : encodeT (fieldOf w 56 8) (Machine.unpackTime (fieldOf w 0 56)) = w := by
  rw [encodeT, packTime_unpackTime]
  exact (fieldOf_append w 0 56 8).trans (fieldOf_all w)

theorem encodeB_fields (h : fieldOf w 8 48 = 0#48) : encodeB (fieldOf w 56 8) (fieldOf w 0 8) = w := by
  rw [encodeB, ← h, show fieldOf w 56 8 ++ fieldOf w 8 48 = fieldOf w 8 56 from fieldOf_append w 8 48 8]
  exact (fieldOf_append w 0 8 56).trans (fieldOf_all w)

theorem encodeW_fields (h : fieldOf w 16 40 = 0#40) : encodeW (fieldOf w 56 8) (fieldOf w 0 16) = w := by
  rw [encodeW, ← h, show fieldOf w 56 8 ++ fieldOf w 16 40 = fieldOf w 16 48 from fieldOf_append w 16 40 8]
  exact (fieldOf_append w 0 16 48).trans (fieldOf_all w)

theorem encodeAB_fields (h : fieldOf w 16 40 = 0#40) :
    encodeAB (fieldOf w 56 8) (fieldOf w 8 8) (fieldOf w 0 8) = w := by
  rw [encodeAB, ← h, show fieldOf w 56 8 ++ fieldOf w 16 40 = fieldOf w 16 48 from fieldOf_append w 16 40 8,
    show fieldOf w 16 48 ++ fieldOf w 8 8 = fieldOf w 8 56 from fieldOf_append w 8 8 48]
  exact (fieldOf_append w 0 8 56).trans (fieldOf_all w)

theorem encodeL_fields {l : Line} (h : fieldOf w 10 46 = 0#46) (h' : fieldOf w 1 7 = 0#7)
    (hl : encodeLine l = fieldOf w 8 2) : encodeL (fieldOf w 56 8) l (fieldOf w 0 1) = w := by
  rw [encodeL, ← h, ← h', hl, show fieldOf w 56 8 ++ fieldOf w 10 46 = fieldOf w 10 54 from fieldOf_append w 10 46 8,
    show fieldOf w 10 54 ++ fieldOf w 8 2 = fieldOf w 8 56 from fieldOf_append w 8 2 54,
    show fieldOf w 8 56 ++ fieldOf w 1 7 = fieldOf w 1 63 from fieldOf_append w 1 7 56]
  exact (fieldOf_append w 0 1 63).trans (fieldOf_all w)

end Fields

/-! ### What a format's decoder accepts, the format's encoder gives back -/

/-- The line field 3 is the only one without a line (R100). -/
theorem encodeLine_decodeLine {x : BitVec 2} {l : Line} (h : decodeLine x = some l) : encodeLine l = x := by
  revert x
  cases l <;> decide

/-- Inversion: a guarded decoder accepts only what passes the guard. -/
theorem guarded_ok {c : Prop} [Decidable c] {x : Except DecodeReject Instr} {r : DecodeReject} {i : Instr}
    (h : (if c then x else .error r) = .ok i) : c ∧ x = .ok i := by
  split at h
  · exact ⟨‹c›, h⟩
  · cases h

section Formats

variable {w : Word} {op : BitVec 8} {i : Instr}

theorem decodeN_ok {j : Instr} (hop : fieldOf w 56 8 = op) (h : decodeN w j = .ok i) : i = j ∧ w = encodeN op := by
  obtain ⟨h0, hi⟩ := guarded_ok h
  exact ⟨(Except.ok.inj hi).symm, by rw [← hop, encodeN_fields h0]⟩

theorem decodeT_ok (hop : fieldOf w 56 8 = op) (h : decodeT w = .ok i) : ∃ t, i = .settime t ∧ w = encodeT op t :=
  ⟨_, (Except.ok.inj h).symm, by rw [← hop, encodeT_fields]⟩

theorem decodeB_ok {f : Byte → Instr} (hop : fieldOf w 56 8 = op) (h : decodeB w f = .ok i) :
    ∃ b, i = f b ∧ w = encodeB op b := by
  obtain ⟨h0, hi⟩ := guarded_ok h
  exact ⟨_, (Except.ok.inj hi).symm, by rw [← hop, encodeB_fields h0]⟩

theorem decodeAB_ok {f : Byte → Byte → Instr} (hop : fieldOf w 56 8 = op) (h : decodeAB w f = .ok i) :
    ∃ a v, i = f a v ∧ w = encodeAB op a v := by
  obtain ⟨h0, hi⟩ := guarded_ok h
  exact ⟨_, _, (Except.ok.inj hi).symm, by rw [← hop, encodeAB_fields h0]⟩

theorem decodeW_ok {f : BitVec 16 → Instr} (hop : fieldOf w 56 8 = op) (h : decodeW w f = .ok i) :
    ∃ d, i = f d ∧ w = encodeW op d := by
  obtain ⟨h0, hi⟩ := guarded_ok h
  exact ⟨_, (Except.ok.inj hi).symm, by rw [← hop, encodeW_fields h0]⟩

theorem decodeL_ok {f : Line → Bool → Except DecodeReject Instr} (hop : fieldOf w 56 8 = op)
    (h : decodeL w f = .ok i) : ∃ l d, f l (d = 1#1) = .ok i ∧ w = encodeL op l d := by
  obtain ⟨⟨h0, h0'⟩, hi⟩ := guarded_ok h
  cases hl : decodeLine (fieldOf w 8 2) with
  | some l => exact ⟨l, _, by rwa [hl] at hi, by rw [← hop, encodeL_fields h0 h0' (encodeLine_decodeLine hl)]⟩
  | none => rw [hl] at hi; cases hi

/-- The direction bit 1 is `in` (R100). -/
theorem encodeDir_of_bit (d : BitVec 1) : encodeDir (if d = 1#1 then .inp else .out) = d := by
  revert d
  decide

theorem decodeL_withDir_ok (hop : fieldOf w 56 8 = op) (h : decodeL w withDir = .ok i) :
    ∃ l d, i = .cfgline l d ∧ w = encodeL op l (encodeDir d) := by
  obtain ⟨l, d, hi, hw⟩ := decodeL_ok hop h
  exact ⟨l, _, by simpa [withDir] using hi.symm, by rw [encodeDir_of_bit, hw]⟩

/-- Without a direction the direction bit must be 0 (R105). -/
theorem decodeL_noDir_ok {f : Line → Instr} (hop : fieldOf w 56 8 = op) (h : decodeL w (noDir f) = .ok i) :
    ∃ l, i = f l ∧ w = encodeL op l 0#1 := by
  obtain ⟨l, d, hi, hw⟩ := decodeL_ok hop h
  unfold noDir at hi
  split at hi
  · cases hi
  · rename_i hd
    obtain rfl : d = 0#1 := (BitVec.eq_zero_or_eq_one d).resolve_right (by simpa using hd)
    exact ⟨l, (Except.ok.inj hi).symm, hw⟩

end Formats

/-- A command word that decodes is the word of its instruction, opcode by opcode of R101. -/
theorem encode_of_decodeWord {w : Word} {i : Instr} (h : decodeWord w = .ok i) : encode i = .word w := by
  have opcode {n : Nat} (hop : (fieldOf w 56 8).toNat = n) : fieldOf w 56 8 = BitVec.ofNat 8 n := by
    rw [← hop, BitVec.ofNat_toNat, BitVec.setWidth_eq]
  unfold decodeWord at h
  split at h <;> rename_i hop
  case h_1 => obtain ⟨rfl, rfl⟩ := decodeN_ok (opcode hop) h; rfl
  case h_2 => obtain ⟨t, rfl, rfl⟩ := decodeT_ok (opcode hop) h; rfl
  case h_3 => obtain ⟨rfl, rfl⟩ := decodeN_ok (opcode hop) h; rfl
  case h_4 => obtain ⟨a, v, rfl, rfl⟩ := decodeAB_ok (opcode hop) h; rfl
  case h_5 => obtain ⟨a, rfl, rfl⟩ := decodeB_ok (opcode hop) h; rfl
  case h_6 => obtain ⟨rfl, rfl⟩ := decodeN_ok (opcode hop) h; rfl
  case h_7 => obtain ⟨rfl, rfl⟩ := decodeN_ok (opcode hop) h; rfl
  case h_8 => obtain ⟨v, rfl, rfl⟩ := decodeB_ok (opcode hop) h; rfl
  case h_9 => obtain ⟨rfl, rfl⟩ := decodeN_ok (opcode hop) h; rfl
  case h_10 => obtain ⟨b, rfl, rfl⟩ := decodeB_ok (opcode hop) h; rfl
  case h_11 => obtain ⟨d, rfl, rfl⟩ := decodeB_ok (opcode hop) h; rfl
  case h_12 => obtain ⟨l, d, rfl, rfl⟩ := decodeL_withDir_ok (opcode hop) h; rfl
  case h_13 => obtain ⟨l, rfl, rfl⟩ := decodeL_noDir_ok (opcode hop) h; rfl
  case h_14 => obtain ⟨l, rfl, rfl⟩ := decodeL_noDir_ok (opcode hop) h; rfl
  case h_15 => obtain ⟨l, rfl, rfl⟩ := decodeL_noDir_ok (opcode hop) h; rfl
  case h_16 => obtain ⟨d, rfl, rfl⟩ := decodeW_ok (opcode hop) h; rfl
  case h_17 => cases h

/-- The encoder and the table of the wire bytes agree. -/
theorem encode_wireRows : ∀ r ∈ Machine.wireRows, encode r.1 = .wire r.2.1 := by decide +kernel

/-- A wire byte that decodes is the byte of its instruction: the table lists every byte that decodes. -/
theorem encode_of_decodeWire {b : Byte} {i : Instr} (h : decodeWire b = .ok i) : encode i = .wire b := by
  obtain ⟨r, hr, rfl⟩ | he := Machine.decodeWire_listed_or_error b
  · obtain rfl : r.1 = i := Except.ok.inj ((Machine.decode_wireRows r hr).symm.trans h)
    exact encode_wireRows r hr
  · exact nomatch he.symm.trans h

/-! ### The round trips -/

/-- Settles O2: the round trip of each constructor. -/
theorem decodeOfEncode : Obligations.DecodeOfEncode
  | .init => Laws.RoundTrip.init
  | .settime t => Laws.RoundTrip.settime t
  | .readtime => Laws.RoundTrip.readtime
  | .wrreg a v => Laws.RoundTrip.wrreg a v
  | .rdreg a => Laws.RoundTrip.rdreg a
  | .cehi => Laws.RoundTrip.cehi
  | .celo => Laws.RoundTrip.celo
  | .wrbyte v => Laws.RoundTrip.wrbyte v
  | .rdbyte => Laws.RoundTrip.rdbyte
  | .bcd2dec b => Laws.RoundTrip.bcd2dec b
  | .dec2bcd d => Laws.RoundTrip.dec2bcd d
  | .cfgline l d => Laws.RoundTrip.cfgline l d
  | .sethi l => Laws.RoundTrip.sethi l
  | .setlo l => Laws.RoundTrip.setlo l
  | .rdlvl l => Laws.RoundTrip.rdlvl l
  | .sleep d => Laws.RoundTrip.sleep d
  | .secW => Laws.RoundTrip.secW
  | .secR => Laws.RoundTrip.secR
  | .minW => Laws.RoundTrip.minW
  | .minR => Laws.RoundTrip.minR
  | .hourW => Laws.RoundTrip.hourW
  | .hourR => Laws.RoundTrip.hourR
  | .dateW => Laws.RoundTrip.dateW
  | .dateR => Laws.RoundTrip.dateR
  | .monthW => Laws.RoundTrip.monthW
  | .monthR => Laws.RoundTrip.monthR
  | .dayW => Laws.RoundTrip.dayW
  | .dayR => Laws.RoundTrip.dayR
  | .yearW => Laws.RoundTrip.yearW
  | .yearR => Laws.RoundTrip.yearR
  | .wpW => Laws.RoundTrip.wpW
  | .wpR => Laws.RoundTrip.wpR

/-- Settles O3: a command word by its opcode and fields, a wire byte by the table. -/
theorem encodeOfDecode : Obligations.EncodeOfDecode
  | .word _, _, h => encode_of_decodeWord h
  | .wire _, _, h => encode_of_decodeWire h

/-- The two round trips together. -/
theorem decode_eq_ok_iff {e : Encoded} {i : Instr} : decode e = .ok i ↔ encode i = e :=
  ⟨encodeOfDecode e i, fun h => h ▸ decodeOfEncode i⟩

/-- Settles O1: each word is the encoding of its instruction. -/
theorem specWordsDecode : Obligations.SpecWordsDecode := by
  refine ⟨?_, ?_, ?_, ?_, ?_, ?_, ?_, ?_, ?_⟩ <;> exact decode_eq_ok_iff.2 rfl

end Sys2Proof
end

section
/-! PROOFS. The table's masks and matches select the encoded words (R102, R105); an illegal word (R255). -/

namespace Sys2Proof

/-! ### Masks over concatenations -/

/-- Equal concatenations have equal parts. -/
theorem append_eq_append_iff {m n : Nat} {a c : BitVec m} {b d : BitVec n} : a ++ b = c ++ d ↔ a = c ∧ b = d := by
  refine ⟨fun h => ⟨?_, ?_⟩, fun ⟨h, h'⟩ => h ▸ h' ▸ rfl⟩
  · rw [← BitVec.extractLsb'_append_eq_left (a := a) (b := b), h, BitVec.extractLsb'_append_eq_left]
  · rw [← BitVec.extractLsb'_append_eq_right (a := a) (b := b), h, BitVec.extractLsb'_append_eq_right]

/-- A mask and a match in parts. -/
theorem append_and_eq_append_iff {m n : Nat} {a c p : BitVec m} {b d q : BitVec n} :
    a ++ b &&& c ++ d = p ++ q ↔ a &&& c = p ∧ b &&& d = q := by
  rw [BitVec.and_append, append_eq_append_iff]

theorem exists_eq_append {m n : Nat} (w : BitVec (m + n)) : ∃ (a : BitVec m) (b : BitVec n), w = a ++ b :=
  ⟨_, _, BitVec.extractLsb'_append_extractLsb'.symm⟩

/-- A mask of the upper bits selects the words with these bits, whatever the lower bits. -/
theorem upperMask_selects {m n : Nat} {w : BitVec (m + n)} {p : BitVec m} :
    w &&& BitVec.allOnes m ++ 0#n = p ++ 0#n ↔ ∃ x : BitVec n, w = p ++ x := by
  obtain ⟨a, b, rfl⟩ := exists_eq_append w
  simp only [append_and_eq_append_iff, BitVec.and_allOnes, BitVec.and_zero, and_true, append_eq_append_iff,
    exists_and_left, exists_eq', and_true]

/-- A mask that leaves two inner bits, and of the last one what `q` leaves. -/
theorem lineMask_selects {w : BitVec (54 + 2 + 7 + 1)} {p : BitVec 54} {q : BitVec 1} :
    w &&& BitVec.allOnes 54 ++ 0#2 ++ BitVec.allOnes 7 ++ q = p ++ 0#2 ++ 0#7 ++ 0#1 ↔
      ∃ (x : BitVec 2) (d : BitVec 1), d &&& q = 0#1 ∧ w = p ++ x ++ 0#7 ++ d := by
  obtain ⟨w, d, rfl⟩ := exists_eq_append w
  obtain ⟨w, z, rfl⟩ := exists_eq_append w
  obtain ⟨w, x, rfl⟩ := exists_eq_append w
  simp only [append_and_eq_append_iff, append_eq_append_iff, BitVec.and_allOnes, BitVec.and_zero, and_true]
  exact ⟨fun ⟨⟨hw, hz⟩, hd⟩ => ⟨x, d, hd, ⟨⟨hw, rfl⟩, hz⟩, rfl⟩, fun ⟨_, _, hd, ⟨⟨hw, _⟩, hz⟩, h⟩ => ⟨⟨hw, hz⟩, h ▸ hd⟩⟩

/-! ### Each format's mask -/

section Masks

variable {w : Word} {op : BitVec 8}

theorem maskN_selects : w &&& 0xFFFFFFFFFFFFFFFF#64 = encodeN op ↔ w = encodeN op := by
  rw [show 0xFFFFFFFFFFFFFFFF#64 = BitVec.allOnes 64 from rfl, BitVec.and_allOnes]

theorem maskT_selects : w &&& 0xFF00000000000000#64 = op ++ 0#56 ↔ ∃ t, w = encodeT op t :=
  (upperMask_selects (m := 8) (n := 56)).trans
    ⟨fun ⟨x, h⟩ => ⟨Machine.unpackTime x, by rw [h, encodeT, packTime_unpackTime]⟩, fun ⟨_, h⟩ => ⟨_, h⟩⟩

theorem maskB_selects : w &&& 0xFFFFFFFFFFFFFF00#64 = op ++ 0#48 ++ 0#8 ↔ ∃ b, w = encodeB op b :=
  upperMask_selects (m := 56) (n := 8)

theorem maskW_selects : w &&& 0xFFFFFFFFFFFF0000#64 = op ++ 0#40 ++ 0#16 ↔ ∃ d, w = encodeW op d :=
  upperMask_selects (m := 48) (n := 16)

theorem encodeW_append (op : BitVec 8) (a v : Byte) : encodeW op (a ++ v) = encodeAB op a v :=
  (BitVec.append_assoc (x₁ := op ++ 0#40) (x₂ := a) (x₃ := v)).symm

theorem maskAB_selects : w &&& 0xFFFFFFFFFFFF0000#64 = op ++ 0#40 ++ 0#16 ↔ ∃ a v, w = encodeAB op a v := by
  refine maskW_selects.trans ⟨fun ⟨d, h⟩ => ?_, fun ⟨a, v, h⟩ => ⟨a ++ v, by rw [h, encodeW_append]⟩⟩
  obtain ⟨a, v, rfl⟩ := exists_eq_append (m := 8) (n := 8) d
  exact ⟨a, v, by rw [h, encodeW_append]⟩

/-- The line is read where it is written. -/
theorem lineField_append (x : BitVec 2) (d : BitVec 1) :
    BitVec.extractLsb' 8 2 (op ++ 0#46 ++ x ++ 0#7 ++ d) = x := by
  apply BitVec.eq_of_toNat_eq
  have hx := x.isLt
  have hd := d.isLt
  simp only [BitVec.extractLsb'_toNat, Nat.shiftRight_eq_div_pow, toNat_append_add, BitVec.toNat_ofNat]
  omega

/-- Every line field but 3 names a line (R100). -/
theorem lineField_ne_three_iff {x : BitVec 2} : x ≠ 3#2 ↔ ∃ l, encodeLine l = x := by
  have key : ∀ x : BitVec 2, x ≠ 3#2 → ∃ l ∈ [Line.clk, .io, .ce], encodeLine l = x := by decide
  constructor
  · intro hx
    obtain ⟨l, -, h⟩ := key x hx
    exact ⟨l, h⟩
  · rintro ⟨l, rfl⟩
    cases l <;> decide

/-- A line format's mask, with `q` at the direction bit, and the line field selects the words of the lines. -/
theorem maskL_selects {q : BitVec 1} :
    w &&& BitVec.allOnes 54 ++ 0#2 ++ BitVec.allOnes 7 ++ q = op ++ 0#46 ++ 0#2 ++ 0#7 ++ 0#1 ∧
        BitVec.extractLsb' 8 2 w ≠ 3#2 ↔
      ∃ l d, d &&& q = 0#1 ∧ w = encodeL op l d := by
  constructor
  · rintro ⟨h, hl⟩
    obtain ⟨x, d, hd, rfl⟩ := lineMask_selects.1 h
    rw [lineField_append] at hl
    obtain ⟨l, rfl⟩ := lineField_ne_three_iff.1 hl
    exact ⟨l, d, hd, rfl⟩
  · rintro ⟨l, d, hd, rfl⟩
    exact ⟨lineMask_selects.2 ⟨_, d, hd, rfl⟩, by
      rw [encodeL, lineField_append]; exact lineField_ne_three_iff.2 ⟨l, rfl⟩⟩

theorem maskL_dir_selects :
    w &&& 0xFFFFFFFFFFFFFCFE#64 = op ++ 0#46 ++ 0#2 ++ 0#7 ++ 0#1 ∧ BitVec.extractLsb' 8 2 w ≠ 3#2 ↔
      ∃ l d, w = encodeL op l (encodeDir d) :=
  (maskL_selects (q := 0#1)).trans
    ⟨fun ⟨l, d, _, h⟩ => ⟨l, _, by rw [encodeDir_of_bit, h]⟩, fun ⟨l, _, h⟩ => ⟨l, _, BitVec.and_zero, h⟩⟩

theorem maskL_noDir_selects :
    w &&& 0xFFFFFFFFFFFFFCFF#64 = op ++ 0#46 ++ 0#2 ++ 0#7 ++ 0#1 ∧ BitVec.extractLsb' 8 2 w ≠ 3#2 ↔
      ∃ l, w = encodeL op l 0#1 :=
  (maskL_selects (q := BitVec.allOnes 1)).trans
    ⟨fun ⟨l, d, hd, h⟩ => ⟨l, by rw [h, ← hd, BitVec.and_allOnes]⟩, fun ⟨l, h⟩ => ⟨l, _, BitVec.zero_and, h⟩⟩

end Masks

/-! ### Legal words -/

/-- A row of the table makes the words that its mask and its line field select legal. -/
theorem legalWord_of_row {w : Word} {r : Machine.CommandRow} (n : Nat) (hr : Machine.commandRows[n]? = some r)
    (hm : w &&& r.mask = r.pattern) (hl : r.lineFormat = true → w.extractLsb' 8 2 ≠ 3#2) : Machine.legalWord w :=
  ⟨r, List.mem_of_getElem? hr, hm, hl⟩

/-- What a row of the table selects is encoded. -/
theorem encoded_of_legalWord {w : Word} (h : Machine.legalWord w) : ∃ i, encode i = .word w := by
  obtain ⟨r, hr, hm, hl⟩ := h
  simp only [Machine.commandRows, List.mem_cons, List.not_mem_nil, or_false] at hr
  rcases hr with rfl | rfl | rfl | rfl | rfl | rfl | rfl | rfl | rfl | rfl | rfl | rfl | rfl | rfl | rfl | rfl
  · obtain rfl := (maskN_selects (op := 0x01)).1 hm; exact ⟨.init, rfl⟩
  · obtain ⟨t, rfl⟩ := (maskT_selects (op := 0x02)).1 hm; exact ⟨.settime t, rfl⟩
  · obtain rfl := (maskN_selects (op := 0x03)).1 hm; exact ⟨.readtime, rfl⟩
  · obtain ⟨a, v, rfl⟩ := (maskAB_selects (op := 0x10)).1 hm; exact ⟨.wrreg a v, rfl⟩
  · obtain ⟨a, rfl⟩ := (maskB_selects (op := 0x11)).1 hm; exact ⟨.rdreg a, rfl⟩
  · obtain rfl := (maskN_selects (op := 0x12)).1 hm; exact ⟨.cehi, rfl⟩
  · obtain rfl := (maskN_selects (op := 0x13)).1 hm; exact ⟨.celo, rfl⟩
  · obtain ⟨v, rfl⟩ := (maskB_selects (op := 0x20)).1 hm; exact ⟨.wrbyte v, rfl⟩
  · obtain rfl := (maskN_selects (op := 0x21)).1 hm; exact ⟨.rdbyte, rfl⟩
  · obtain ⟨b, rfl⟩ := (maskB_selects (op := 0x30)).1 hm; exact ⟨.bcd2dec b, rfl⟩
  · obtain ⟨d, rfl⟩ := (maskB_selects (op := 0x31)).1 hm; exact ⟨.dec2bcd d, rfl⟩
  · obtain ⟨l, d, rfl⟩ := (maskL_dir_selects (op := 0x40)).1 ⟨hm, hl rfl⟩; exact ⟨.cfgline l d, rfl⟩
  · obtain ⟨l, rfl⟩ := (maskL_noDir_selects (op := 0x41)).1 ⟨hm, hl rfl⟩; exact ⟨.sethi l, rfl⟩
  · obtain ⟨l, rfl⟩ := (maskL_noDir_selects (op := 0x42)).1 ⟨hm, hl rfl⟩; exact ⟨.setlo l, rfl⟩
  · obtain ⟨l, rfl⟩ := (maskL_noDir_selects (op := 0x43)).1 ⟨hm, hl rfl⟩; exact ⟨.rdlvl l, rfl⟩
  · obtain ⟨d, rfl⟩ := (maskW_selects (op := 0x44)).1 hm; exact ⟨.sleep d, rfl⟩

/-- An encoded word is selected by its instruction's row; the rows are numbered in the order of the table. -/
theorem legalWord_of_encoded {w : Word} {i : Instr} (h : encode i = .word w) : Machine.legalWord w := by
  cases i <;> cases h
  case init => exact legalWord_of_row 0 rfl (maskN_selects.2 rfl) nofun
  case settime t => exact legalWord_of_row 1 rfl (maskT_selects.2 ⟨t, rfl⟩) nofun
  case readtime => exact legalWord_of_row 2 rfl (maskN_selects.2 rfl) nofun
  case wrreg a v => exact legalWord_of_row 3 rfl (maskAB_selects.2 ⟨a, v, rfl⟩) nofun
  case rdreg a => exact legalWord_of_row 4 rfl (maskB_selects.2 ⟨a, rfl⟩) nofun
  case cehi => exact legalWord_of_row 5 rfl (maskN_selects.2 rfl) nofun
  case celo => exact legalWord_of_row 6 rfl (maskN_selects.2 rfl) nofun
  case wrbyte v => exact legalWord_of_row 7 rfl (maskB_selects.2 ⟨v, rfl⟩) nofun
  case rdbyte => exact legalWord_of_row 8 rfl (maskN_selects.2 rfl) nofun
  case bcd2dec b => exact legalWord_of_row 9 rfl (maskB_selects.2 ⟨b, rfl⟩) nofun
  case dec2bcd d => exact legalWord_of_row 10 rfl (maskB_selects.2 ⟨d, rfl⟩) nofun
  case cfgline l d =>
    obtain ⟨hm, hl⟩ := (maskL_dir_selects (op := 0x40)).2 ⟨l, d, rfl⟩
    exact legalWord_of_row 11 rfl hm fun _ => hl
  case sethi l =>
    obtain ⟨hm, hl⟩ := (maskL_noDir_selects (op := 0x41)).2 ⟨l, rfl⟩
    exact legalWord_of_row 12 rfl hm fun _ => hl
  case setlo l =>
    obtain ⟨hm, hl⟩ := (maskL_noDir_selects (op := 0x42)).2 ⟨l, rfl⟩
    exact legalWord_of_row 13 rfl hm fun _ => hl
  case rdlvl l =>
    obtain ⟨hm, hl⟩ := (maskL_noDir_selects (op := 0x43)).2 ⟨l, rfl⟩
    exact legalWord_of_row 14 rfl hm fun _ => hl
  case sleep d => exact legalWord_of_row 15 rfl (maskW_selects.2 ⟨d, rfl⟩) nofun

/-- Settles O4: the words that decode are the encoded ones, and these are the ones the table selects. -/
theorem legalWordsDecode : Obligations.LegalWordsDecode := by
  refine fun w => ⟨fun ⟨i, h⟩ => legalWord_of_encoded (encodeOfDecode _ _ h), fun h => ?_⟩
  obtain ⟨i, hi⟩ := encoded_of_legalWord h
  exact ⟨i, decode_eq_ok_iff.2 hi⟩

end Sys2Proof
end

section
/-! PROOFS. What stands on the encoding: illegal words (R255), the pseudo-instructions (R112), DEC2BCD's result (R202),
the refusals of the register protocol and the facade (R180, R108, R223), and the wire command bytes as operations (R93). -/

namespace Sys2Proof.Machine

/-! ### Illegal words -/

theorem step_rejected {s : State} {e : Encoded} {rest : List HostInput} (hp : s.pending = .present e :: rest)
    (hb : s.busy = false) (hf : s.fault = false) (hd : ∀ i, decode e ≠ .ok i) :
    step s = rejectInput e { s with pending := rest } := by
  cases h : decode e with
  | ok i => exact absurd h (hd i)
  | error r => simp [step, hp, hb, hf, h]

theorem responseWord_illegal : responseWord statusIllegal 0 = 0x8000000000000000#64 := by decide

/-- Settles O8: an illegal word decodes to nothing, and the step's answer to it is that of R255. -/
theorem illegalWordAnswered : Obligations.IllegalWordAnswered := by
  intro s w rest hp hb hf hw
  rw [step_rejected hp hb hf fun i hi => hw ((legalWordsDecode w).1 ⟨i, hi⟩), rejectInput, answerIllegal,
    responseWord_illegal]

/-! ### Pseudo-instructions -/

/-- Every expansion is a register access with an address of its column (R108). -/
theorem expandPseudo_legal (p : Pseudo) :
    (∃ a v, expandPseudo p = .wrreg a v ∧ isWriteAddr a = true) ∨
      (∃ a, expandPseudo p = .rdreg a ∧ isReadAddr a = true) := by
  cases p
  case rdsec | rdmin | rdhour | rddate | rdmonth | rdday | rdyear | rdwp => exact .inr ⟨_, rfl, by decide⟩
  all_goals exact .inl ⟨_, _, rfl, by decide⟩

/-- Settles O6: each expansion is read off its definition, and its operands are in their column. -/
theorem pseudoExpansions : Obligations.PseudoExpansions := by
  refine ⟨⟨rfl, rfl⟩, ⟨rfl, rfl⟩, fun v => ?_, ?_, fun p => ⟨?_, expandPseudo_legal p⟩⟩
  · simp only [List.forall_mem_cons]
    exact ⟨⟨rfl, rfl⟩, ⟨rfl, rfl⟩, ⟨rfl, rfl⟩, ⟨rfl, rfl⟩, ⟨rfl, rfl⟩, ⟨rfl, rfl⟩, ⟨rfl, rfl⟩, nofun⟩
  · simp only [List.forall_mem_cons]
    exact ⟨⟨rfl, rfl⟩, ⟨rfl, rfl⟩, ⟨rfl, rfl⟩, ⟨rfl, rfl⟩, ⟨rfl, rfl⟩, ⟨rfl, rfl⟩, ⟨rfl, rfl⟩, ⟨rfl, rfl⟩, nofun⟩
  · obtain ⟨a, v, h, ha⟩ | ⟨a, h, ha⟩ := expandPseudo_legal p
    · rw [h]; exact ha
    · rw [h]; exact ha

/-! ### DEC2BCD -/

/-- Settles O15: the result byte in `RW[7:0]` is the formula's value modulo 256. -/
theorem dec2bcdResult : Obligations.Dec2bcdResult := by
  intro d s
  have hrw : okResponse (bytePayload (decimalToBcd d)) =
      BitVec.ofNat 64 ((((d.toNat / 10) <<< 4) ||| (d.toNat % 10)) % 256) := by
    rw [okResponse_byte, decimalToBcd, ← BitVec.ofNat_toNat, BitVec.toNat_ofNat]
  rw [← hrw]
  rfl

/-! ### Refusals of the register protocol and the facade -/

theorem yearOk_eq_false_iff {y : BitVec 16} : yearOk y = false ↔ y.toNat < 2000 ∨ 2099 < y.toNat := by
  rw [← Bool.not_eq_true, yearOk_iff]
  omega

section Refused

variable {s : State} (hn : onNull s = false)
include hn

theorem exec_wrreg_notAWriteAddress {a v : Byte} (ha : isWriteAddr a = false) :
    exec (.wrreg a v) s = .refused .notAWriteAddress := by
  simp [exec, execWrreg, hn, ha]

theorem exec_rdreg_notAReadAddress {a : Byte} (ha : isReadAddr a = false) :
    exec (.rdreg a) s = .refused .notAReadAddress := by
  simp [exec, execRdreg, hn, ha]

theorem exec_settime_yearOutsideWindow {t : TimeValue} (hy : yearOk t.year = false) :
    exec (.settime t) s = .refused .yearOutsideWindow := by
  simp [exec, execSettime, hn, hy]

variable (hi : idleState s = false)
include hi

theorem exec_wrreg_notIdle {a v : Byte} (ha : isWriteAddr a = true) : exec (.wrreg a v) s = .refused .notIdle := by
  simp [exec, execWrreg, hn, ha, hi]

theorem exec_rdreg_notIdle {a : Byte} (ha : isReadAddr a = true) : exec (.rdreg a) s = .refused .notIdle := by
  simp [exec, execRdreg, hn, ha, hi]

theorem exec_settime_notIdle {t : TimeValue} (hy : yearOk t.year = true) : exec (.settime t) s = .refused .notIdle := by
  simp [exec, execSettime, hn, hy, hi]

theorem exec_readtime_notIdle : exec .readtime s = .refused .notIdle := by
  simp [exec, execReadtime, hn, hi]

end Refused

/-- Settles O39: each operation's checks in turn. -/
theorem transactionsRefused : Obligations.TransactionsRefused := fun _ hn =>
  ⟨fun _ _ => exec_wrreg_notAWriteAddress hn, fun _ => exec_rdreg_notAReadAddress hn,
    fun _ hy => exec_settime_yearOutsideWindow hn (yearOk_eq_false_iff.2 hy), fun hi =>
    ⟨fun _ _ => exec_wrreg_notIdle hn hi, fun _ => exec_rdreg_notIdle hn hi, fun _ => exec_settime_notIdle hn hi,
      exec_readtime_notIdle hn hi⟩⟩

/-! ### The wire command bytes as operations -/

section Sent

variable {b : Byte} {s : State} (hn : onNull s = false) (ht : transportReady s = true) (hf : faultFree s 41)
include hn ht hf

/-- A command byte whose edges the peripheral takes is sent, and the engine ends outside a transaction. -/
theorem wireCommand_sent {p : Periph} (hp : clockBits (bitsOf b) s.ce s.periph = .ok p) :
    wireCommand b s = .next
      { s with io := ⟨.out, b.getLsbD 7⟩, sr := 0, bc := 8, tmr := 0, ph := .idle, txn := .none, rw := 0, busy := false,
               trace := s.trace ++ writeByteEvents b, prims := s.prims + 41, draws := s.draws + 1, periph := p } := by
  obtain ⟨hclk, -⟩ := transportReady_iff.1 ht
  rw [wireCommand_eq hn ht, (writeByte_plays (s := s.atTxn .addr) hp).runs hf, Run.andThen_done, finish_done]
  simp only [respond, State.byteWritten, State.atTxn, okResponse_zero, hclk]

/-- Where the engine is outside a transaction, a command byte is sent as WRBYTE sends it (R156). -/
theorem wireCommand_eq_wrbyte (hx : s.txn = .none) : wireCommand b s = exec (.wrbyte b) s := by
  rw [wireCommand_eq hn ht, exec_wrbyte hn ht]
  cases hp : clockBits (bitsOf b) s.ce s.periph with
  | ok p =>
    rw [(writeByte_plays (s := s.atTxn .addr) hp).runs hf, (writeByte_plays hp).runs hf]
    simp only [Run.andThen_done, State.byteWritten, State.atTxn, hx]
  | error r =>
    rw [writeByte_refused (s := s.atTxn .addr) hf hp, writeByte_refused hf hp, Run.andThen_refused, Run.andThen_refused]

end Sent

/-- Settles O32: what the peripheral makes of the eight edges decides. -/
theorem wireCommandSent : Obligations.WireCommandSent := by
  intro r hr s hn ht hf
  rw [exec_wire hr]
  refine ⟨fun h => wireCommand_sent hn ht hf (clockBits_of_refusesNothing h _ _),
    fun p hp h0 => ⟨rowOf_wireRows r hr, ?_⟩, wireCommand_eq_wrbyte hn ht hf⟩
  obtain ⟨-, hce⟩ := transportReady_iff.1 ht
  exact wireCommand_sent hn ht hf (by rw [hp, clockBits_command r.2.1 (by rw [hce]) h0])

end Sys2Proof.Machine
end

section
/-! PROOFS. The line primitives as operations (R130 to R136): what each answers and leaves, where they, the transport and
the gate are refused (spec/93 F2 to F6), and the one fault of every operation (R253). -/

namespace Sys2Proof.Machine

/-! ### The primitives as operations -/

/-- RDLVL's answer fills `RW[0]` (R104). -/
theorem okResponse_bit (b : Level) : okResponse (bitPayload b) = if b then 1 else 0 := by cases b <;> decide

/-- SETHI and SETLO are `Set` of the one level or the other. -/
theorem exec_setLevel {l : Line} {s : State} (b : Level) (hn : onNull s = false) (hm : (s.line l).mode = .out) :
    exec (if b then .sethi l else .setlo l) s = finish ((setLine l b s).andThen fun _ s => .done 0 s) := by
  cases b with
  | true => exact exec_sethi hn hm
  | false => exact exec_setlo hn hm

section Single

variable {s : State} (hn : onNull s = false) (hf : faultFree s 1)
include hn hf

theorem exec_cfgline_out {l : Line} (hc : cfgPairOk l .out = true) :
    exec (.cfgline l .out) s = .next (respond 0 (s.cfgOut l)) := by
  rw [exec_cfgline hn hc, (cfgOut_plays l s).runs hf, Run.andThen_done, finish_done]

theorem exec_cfgline_in {l : Line} (hc : cfgPairOk l .inp = true) :
    exec (.cfgline l .inp) s = .next (respond 0 (s.cfgIn l)) := by
  rw [exec_cfgline hn hc, (cfgIn_plays l s).runs hf, Run.andThen_done, finish_done]

/-- RDLVL where the peripheral answers the sample. -/
theorem exec_rdlvl_answered {l : Line} {b : Level} {p : Periph} {n : Nat} (hm : (s.line l).mode = .inp)
    (ha : s.sampleNow = .ok (b, p, n)) :
    exec (.rdlvl l) s = .next
      { s with trace := s.trace ++ [.sample l b], rw := if b then 1 else 0, busy := false, prims := s.prims + 1,
               periph := p, draws := s.draws + n } := by
  rw [exec_rdlvl hn hm, (sample_plays l ha).runs hf, Run.andThen_done, finish_done, respond, okResponse_bit]
  rfl

/-- RDLVL where the peripheral refuses the sample. -/
theorem exec_rdlvl_refused {l : Line} {r : Refusal} (hm : (s.line l).mode = .inp) (ha : s.sampleNow = .error r) :
    exec (.rdlvl l) s = .refused r := by
  rw [exec_rdlvl hn hm, sample_refused l hf ha, Run.andThen_refused, finish_refused]

end Single

/-- Settles O18: CFGLINE is `Cfg` and answers 0, in either direction. -/
theorem cfglineResult : Obligations.CfglineResult := by
  intro l d s hn hc hf
  constructor
  · rintro rfl
    exact ⟨_, by rw [exec_cfgline_out hn hf hc, respond, okResponse_zero]; rfl⟩
  · rintro rfl
    rw [exec_cfgline_in hn hf hc, respond, okResponse_zero]; rfl

/-- Settles O19: what the peripheral makes of the event decides. -/
theorem setLevelResult : Obligations.SetLevelResult := by
  intro l b s hn hm hf
  rw [exec_setLevel b hn hm]
  refine ⟨fun p hp => ?_, fun r hr => ?_⟩
  · rw [(setLine_plays hp).runs hf, Run.andThen_done, finish_done, respond, okResponse_zero, State.setTo, hm]
  · rw [setLine_refused hf hr, Run.andThen_refused, finish_refused]

/-- Settles O22: SLEEP is `Delay` and answers 0; it has no precondition on the lines. -/
theorem sleepResult : Obligations.SleepResult := by
  intro d s hn hf
  rw [exec_sleep hn, (sleep_plays d s).runs hf, Run.andThen_done, finish_done, respond, okResponse_zero]
  rfl

/-! ### RDLVL, by what is wired -/

/-- Outside the read cells of a selected read frame `P_store` answers nothing (R73). -/
theorem PStore.answer_outsideRead {io ce : LineState} {p : PStore}
    (h : ce.level = false ∨ p.cmd.getLsbD 0 = false ∨ p.n < 9 ∨ 16 < p.n) :
    PStore.answer io ce p = .error .periphSampleOutsideRead := by
  rw [PStore.answer, if_neg]
  rintro ⟨-, hc, hd, h9, h16⟩
  rcases h with h | h | h | h
  · exact Bool.false_ne_true (h.symm.trans hc)
  · exact Bool.false_ne_true (h.symm.trans hd)
  · omega
  · omega

section Wired

variable {s : State} {l : Line} (hn : onNull s = false) (hf : faultFree s 1) (hm : (s.line l).mode = .inp)
include hn hf hm

theorem exec_rdlvl_unbound (hp : s.periph = .unbound) : ∃ b, exec (.rdlvl l) s = .next
    { s with trace := s.trace ++ [.sample l b], rw := if b then 1 else 0, busy := false,
             prims := s.prims + 1, draws := s.draws + 1 } :=
  ⟨_, by rw [exec_rdlvl_answered hn hf hm (State.sampleNow_unbound hp), ← hp]⟩

theorem exec_rdlvl_oracle {o o' : Oracle} {b : Level} (hp : s.periph = .oracle o)
    (ha : o.answer s.trace = some (b, o')) : exec (.rdlvl l) s = .next
    { s with trace := s.trace ++ [.sample l b], rw := if b then 1 else 0, busy := false,
             prims := s.prims + 1, periph := .oracle o' } :=
  exec_rdlvl_answered hn hf hm (by rw [State.sampleNow_oracle hp, ha])

theorem exec_rdlvl_oracle_silent {o : Oracle} (hp : s.periph = .oracle o) (ha : o.answer s.trace = none) :
    ∃ b, exec (.rdlvl l) s = .next
      { s with trace := s.trace ++ [.sample l b], rw := if b then 1 else 0, busy := false,
               prims := s.prims + 1, draws := s.draws + 1 } := by
  have hs := State.sampleNow_oracle hp
  rw [ha] at hs
  exact ⟨_, by rw [exec_rdlvl_answered hn hf hm hs, ← hp]⟩

theorem exec_rdlvl_store {p : PStore} {b : Level} (hp : s.periph = .store p)
    (ha : PStore.answer s.io s.ce p = .ok b) : exec (.rdlvl l) s = .next
    { s with trace := s.trace ++ [.sample l b], rw := if b then 1 else 0, busy := false, prims := s.prims + 1 } := by
  have hs := State.sampleNow_store hp
  rw [ha] at hs
  rw [exec_rdlvl_answered hn hf hm hs, ← hp]
  rfl

theorem exec_rdlvl_store_refused {p : PStore} {r : Refusal} (hp : s.periph = .store p)
    (ha : PStore.answer s.io s.ce p = .error r) : exec (.rdlvl l) s = .refused r :=
  exec_rdlvl_refused hn hf hm (by rw [State.sampleNow_store hp, ha])

end Wired

/-- Settles O20: RDLVL gives what the wired peripheral answers, case by case. -/
theorem rdlvlResult : Obligations.RdlvlResult := by
  intro s hn hf
  refine ⟨fun l hm hp => exec_rdlvl_unbound hn hf hm hp, fun l o hm hp => ⟨fun b o' ha => ?_, ?_, fun ha => ?_⟩,
    fun p k hm hc hp hd hk h9 h16 => ?_, fun p hm hp h => ?_⟩
  · exact exec_rdlvl_oracle hn hf hm hp ha
  · rintro f ts rfl ht
    rw [exec_rdlvl_oracle hn hf hm hp (Oracle.answer_ofFunction ht), ← hp]
  · exact exec_rdlvl_oracle_silent hn hf hm hp ha
  · have ha := PStore.answer_readCell (io := s.io) hm hc hd hk h9 h16
    refine ⟨fun v hv => exec_rdlvl_store (l := .io) hn hf hm hp ?_,
      fun hv => exec_rdlvl_store_refused (l := .io) hn hf hm hp ?_⟩
    · rw [ha, hv]
    · rw [ha, hv]
  · exact exec_rdlvl_store_refused (l := .io) hn hf hm hp (PStore.answer_outsideRead h)

/-! ### Refusals -/

section Refused

variable {s : State} (hn : onNull s = false)
include hn

theorem exec_cfgline_refused {l : Line} {d : Dir} (h : cfgPairOk l d = false) :
    exec (.cfgline l d) s = .refused .directionNotAllowed := by
  simp [exec, execCfgline, hn, h]

theorem exec_sethi_refused {l : Line} (h : (s.line l).mode ≠ .out) : exec (.sethi l) s = .refused .lineNotOutput := by
  simp [exec, execSethi, hn, h]

theorem exec_setlo_refused {l : Line} (h : (s.line l).mode ≠ .out) : exec (.setlo l) s = .refused .lineNotOutput := by
  simp [exec, execSetlo, hn, h]

theorem exec_rdlvl_notInput {l : Line} (h : (s.line l).mode ≠ .inp) : exec (.rdlvl l) s = .refused .lineNotInput := by
  simp [exec, execRdlvl, hn, h]

theorem exec_wrbyte_refused (h : transportReady s = false) (v : Byte) :
    exec (.wrbyte v) s = .refused .transportNotReady := by
  simp [exec, execWrbyte, hn, h]

theorem exec_rdbyte_refused (h : transportReady s = false) : exec .rdbyte s = .refused .transportNotReady := by
  simp [exec, execRdbyte, hn, h]

theorem wireCommand_refused (h : transportReady s = false) (b : Byte) :
    wireCommand b s = .refused .transportNotReady := by
  simp [wireCommand, hn, h]

theorem exec_cehi_refused (h : gateReady s = false) : exec .cehi s = .refused .gateNotReady := by
  simp [exec, execCehi, hn, h]

theorem exec_celo_refused (h : gateReady s = false) : exec .celo s = .refused .gateNotReady := by
  simp [exec, execCelo, hn, h]

end Refused

/-- Settles O23: each operation's check in turn. -/
theorem refusedOutsidePreconditions : Obligations.RefusedOutsidePreconditions := fun s hn =>
  ⟨fun _ _ => exec_cfgline_refused hn, fun _ h => ⟨exec_sethi_refused hn h, exec_setlo_refused hn h⟩,
    fun _ => exec_rdlvl_notInput hn, fun h => ⟨exec_wrbyte_refused hn h, exec_rdbyte_refused hn h, fun r hr =>
      (exec_wire hr s).trans (wireCommand_refused hn h r.2.1)⟩,
    fun h => ⟨exec_cehi_refused hn h, exec_celo_refused hn h⟩⟩

/-! ### The fault is precise, operation by operation -/

/-- R253 of an operation with the meaning `x`, started with `PH = IDLE` where the engine stands at `ps s` at its primitives:
if it would append `es` and its `j`-th primitive is the first that faults, it enters the fault in place of the `j`-th event,
and the engine stays where that primitive stands. -/
def FaultsPrecisely (x : State → Host.Outcome State Fault Refusal) (ps : State → List Position) : Prop :=
  ∀ (s u : State) es j e, s.ph = .idle → x s.spared = .next u → u.trace = s.trace ++ es → faultsFirstAt s j →
    es[j]? = some e → ∃ t, x s = .next t ∧ FaultedAt s es j e t ∧ (ps s)[j]? = some t.position

namespace FaultsPrecisely

variable {x y : State → Host.Outcome State Fault Refusal} {ps : State → List Position}

/-- An operation that appends no event has no primitive that could fault. -/
theorem silent {f : State → State} (hf : ∀ s, (f s).trace = s.trace) : FaultsPrecisely (fun s => .next (f s)) ps := by
  intro s u es j e _ hx ht _ he
  obtain rfl := Host.Outcome.next.inj hx
  obtain rfl : es = [] := List.append_cancel_left (ht.symm.trans ((hf _).trans (List.append_nil _).symm))
  cases he

/-- A case distinction that does not look at the faults to come. -/
theorem ite {c : State → Bool} (hc : ∀ s, c s.spared = c s) (hx : FaultsPrecisely x ps) (hy : FaultsPrecisely y ps) :
    FaultsPrecisely (fun s => if c s then x s else y s) ps := by
  intro s
  simp only [hc]
  cases c s with
  | true => exact hx s
  | false => exact hy s

/-- A check that refuses. -/
theorem checked {c : State → Bool} {r : Refusal} (hc : ∀ s, c s.spared = c s) (hy : FaultsPrecisely y ps) :
    FaultsPrecisely (fun s => if c s then .refused r else y s) ps :=
  ite hc (fun _ _ _ _ _ _ hx => nomatch hx) hy

/-- A precise part, after which the engine moves by `g` and the operation answers `f a`. -/
theorem answering {α : Type} {m : State → Run α} {qs : Position → List Position} {q : Position → Position}
    (h : Precise m qs q) (f : α → BitVec 56) (g : State → State) (c : Position → Position)
    (hl : ∀ s l, g (State.withFaults s l) = (g s).withFaults l) (hp : ∀ s, (g s).position = c s.position)
    (hn : ∀ s, (g s).prims = s.prims) (ht : ∀ s, (g s).trace = s.trace)
    (hq : ∀ s, s.ph = .idle → qs s.position = ps s) :
    FaultsPrecisely (fun s => finish ((m s).andThen fun a s => .done (f a) (g s))) ps := by
  intro s u es j e hs hx hes hj he
  obtain ⟨t, hx, hfault, hps⟩ := (h.andThen fun a => Precise.done (f a) g c hl hp hn ht).finish hx hes hj he
  rw [List.append_nil, hq s hs] at hps
  exact ⟨t, hx, hfault, hps⟩

/-- A precise part, after which the operation answers `f a`. -/
theorem answered {α : Type} {m : State → Run α} {qs : Position → List Position} {q : Position → Position}
    (h : Precise m qs q) (f : α → BitVec 56) (hq : ∀ s, s.ph = .idle → qs s.position = ps s) :
    FaultsPrecisely (fun s => finish ((m s).andThen fun a s => .done (f a) s)) ps :=
  answering h f id id (fun _ _ => rfl) (fun _ => rfl) (fun _ => rfl) (fun _ => rfl) hq

end FaultsPrecisely

/-- A wire command byte is the address part of a transaction (R186). -/
theorem faultsPrecisely_wireCommand (b : Byte) : FaultsPrecisely (wireCommand b) (fun s => writeByteAt .addr s.seq) :=
  .checked (fun _ => rfl) <| .checked (fun _ => rfl) <|
    .answering ((precise_writeByte b).atTxn .addr) (fun _ => 0) (·.atTxn .none) (fun p => { p with txn := .none })
      (fun _ _ => rfl) (fun _ => rfl) (fun _ => rfl) (fun _ => rfl) fun _ _ => rfl

/-- The transactions of SETTIME are numbered by `SEQ` (R232), which the end clears. -/
theorem faultsPrecisely_settime (t : TimeValue) : FaultsPrecisely (execSettime t) (positionsOf · (.settime t)) :=
  .ite (fun _ => rfl) (.silent fun _ => rfl) <| .checked (fun _ => rfl) <| .checked (fun _ => rfl) <|
    .answering (precise_writeSteps (setTimePairs t) 0) (fun _ => 0) (·.atSeq 0) (fun p => { p with seq := 0 })
      (fun _ _ => rfl) (fun _ => rfl) (fun _ => rfl) (fun _ => rfl)
      fun _ hs => congrArg (framesAt writeFrameAt 0 8) hs

/-- The transactions of READTIME are numbered by `SEQ` (R232), which the end clears. -/
theorem faultsPrecisely_readtime : FaultsPrecisely execReadtime (positionsOf · .readtime) :=
  .ite (fun _ => rfl) (.silent fun _ => rfl) <| .checked (fun _ => rfl) <|
    .answering (precise_readSteps readTimeAddrs 0) (fun rs => packTime (decodeTimeBytes rs)) (·.atSeq 0)
      (fun p => { p with seq := 0 }) (fun _ _ => rfl) (fun _ => rfl) (fun _ => rfl) (fun _ => rfl)
      fun _ hs => congrArg (framesAt readFrameAt 0 6) hs

theorem faultsPrecisely_wrreg (a v : Byte) : FaultsPrecisely (execWrreg a v) (positionsOf · (.wrreg a v)) :=
  .checked (fun _ => rfl) <| .checked (fun _ => rfl) <| .checked (fun _ => rfl) <|
    .answered (precise_writeRegister a v) (fun _ => 0)
      fun s hs => congrArg (framesAt writeFrameAt s.seq 1) hs

theorem faultsPrecisely_rdreg (a : Byte) : FaultsPrecisely (execRdreg a) (positionsOf · (.rdreg a)) :=
  .checked (fun _ => rfl) <| .checked (fun _ => rfl) <| .checked (fun _ => rfl) <|
    .answered (precise_readRegister a) bytePayload
      fun s hs => congrArg (framesAt readFrameAt s.seq 1) hs

/-- A single primitive does not move the engine; the rest is each part's own positions. -/
theorem faultsPrecisely_exec (i : Instr) : FaultsPrecisely (exec i) (positionsOf · i) := by
  cases i with
  | init => exact .ite (fun _ => rfl) (.silent fun _ => rfl) (.answered precise_initLines (fun _ => 0) fun _ _ => rfl)
  | settime t => exact faultsPrecisely_settime t
  | readtime => exact faultsPrecisely_readtime
  | wrreg a v => exact faultsPrecisely_wrreg a v
  | rdreg a => exact faultsPrecisely_rdreg a
  | cehi =>
    exact .checked (fun _ => rfl) <| .checked (fun _ => rfl) <|
      .answered (precise_setLine .ce true) (fun _ => 0) fun _ _ => rfl
  | celo =>
    exact .checked (fun _ => rfl) <| .checked (fun _ => rfl) <|
      .answered (precise_setLine .ce false) (fun _ => 0) fun _ _ => rfl
  | wrbyte v =>
    exact .checked (fun _ => rfl) <| .checked (fun _ => rfl) <|
      .answered (precise_writeByte v) (fun _ => 0) fun _ _ => rfl
  | rdbyte =>
    exact .checked (fun _ => rfl) <| .checked (fun _ => rfl) <|
      .answered precise_readByte bytePayload fun _ _ => rfl
  | bcd2dec | dec2bcd => exact .silent fun _ => rfl
  | cfgline l d =>
    exact .checked (fun _ => rfl) <| .checked (fun _ => rfl) <|
      .answered (precise_cfgLine l d) (fun _ => 0) fun _ _ => rfl
  | sethi l =>
    exact .checked (fun _ => rfl) <| .checked (fun _ => by cases l <;> rfl) <|
      .answered (precise_setLine l true) (fun _ => 0) fun _ _ => rfl
  | setlo l =>
    exact .checked (fun _ => rfl) <| .checked (fun _ => by cases l <;> rfl) <|
      .answered (precise_setLine l false) (fun _ => 0) fun _ _ => rfl
  | rdlvl l =>
    exact .checked (fun _ => rfl) <| .checked (fun _ => by cases l <;> rfl) <|
      .answered (precise_sample l) bitPayload fun _ _ => rfl
  | sleep d => exact .checked (fun _ => rfl) <| .answered (precise_sleep d) (fun _ => 0) fun _ _ => rfl
  | secW | secR | minW | minR | hourW | hourR | dateW | dateR
  | monthW | monthR | dayW | dayR | yearW | yearR | wpW | wpR => exact faultsPrecisely_wireCommand _

/-- Settles O51: every instruction is precise; the fault's flags and response word are `STAT` = 3 and LINE_FAULT. -/
theorem lineFaultPrecise : Obligations.LineFaultPrecise := by
  intro i s u es j e hs hx ht hj he
  obtain ⟨t, hx, hfault, hps⟩ := faultsPrecisely_exec i s u es j e hs hx ht hj he
  exact ⟨t, hx, by rw [State.stat, hfault.fault, hfault.busy]; rfl, hfault.rw_word.trans responseWord_lineFault,
    hfault.trace, hfault.info, hps⟩

end Sys2Proof.Machine
end

section
/-! PROOFS. The transport as operations (R150 to R159): WRBYTE and RDBYTE with full frame, whatever is wired, and the
shift register on a write, cell by cell (R158). -/

namespace Sys2Proof.Machine

/-! ### WRBYTE and RDBYTE as operations -/

section Transport

variable {s : State} (hn : onNull s = false) (ht : transportReady s = true) (hf : faultFree s 41)
include hn ht hf

/-- WRBYTE of a byte whose edges the peripheral takes. -/
theorem exec_wrbyte_sent {v : Byte} {p : Periph} (hp : clockBits (bitsOf v) s.ce s.periph = .ok p) :
    exec (.wrbyte v) s = .next
      { s with io := ⟨.out, v.getLsbD 7⟩, sr := 0, bc := 8, tmr := 0, ph := .idle, rw := 0, busy := false,
               trace := s.trace ++ writeByteEvents v, prims := s.prims + 41, draws := s.draws + 1, periph := p } := by
  obtain ⟨hclk, -⟩ := transportReady_iff.1 ht
  rw [exec_wrbyte hn ht, (writeByte_plays hp).runs hf, Run.andThen_done, finish_done]
  simp only [respond, State.byteWritten, okResponse_zero, hclk]

/-- WRBYTE of a byte one of whose edges the peripheral refuses. -/
theorem exec_wrbyte_edgeRefused {v : Byte} {r : Refusal} (hr : clockBits (bitsOf v) s.ce s.periph = .error r) :
    exec (.wrbyte v) s = .refused r := by
  rw [exec_wrbyte hn ht, writeByte_refused hf hr, Run.andThen_refused, finish_refused]

/-- RDBYTE answers the byte that its cells play (R153, R159). -/
theorem exec_rdbyte_read {r : Byte} {p : Periph} {n : Nat}
    (h : Plays s (readByte s) (readByteEvents r) r (s.byteRead r p n)) :
    exec .rdbyte s = .next
      { s with io := ⟨.inp, s.io.level⟩, sr := r, bc := 8, tmr := 0, ph := .idle, rw := r.setWidth 64, busy := false,
               trace := s.trace ++ readByteEvents r, prims := s.prims + 41, draws := s.draws + n, periph := p } := by
  obtain ⟨hclk, -⟩ := transportReady_iff.1 ht
  rw [exec_rdbyte hn ht, h.runs hf, Run.andThen_done, finish_done]
  simp only [respond, State.byteRead, okResponse_byte, hclk]

end Transport

/-- Settles O24: a peripheral that refuses nothing takes the eight edges and is as before. -/
theorem wrbyteUnbound : Obligations.WrbyteUnbound :=
  fun _ _ hn ht hp hf => exec_wrbyte_sent hn ht hf (clockBits_of_refusesNothing hp _ _)

/-- Settles O25: what `P_store` makes of eight edges, by the position in the frame. -/
theorem wrbyteStore : Obligations.WrbyteStore := by
  intro v s p hn ht hp hf
  have hc : s.ce.level = true := by rw [(transportReady_iff.1 ht).2]
  refine ⟨fun h0 => ?_, fun k h8 hd hk => ?_, fun h8 hd => ?_, fun h16 => ?_⟩
  · exact exec_wrbyte_sent hn ht hf (by rw [hp, clockBits_command v hc h0])
  · exact exec_wrbyte_sent hn ht hf (by rw [hp, clockBits_data v hc h8 hd hk])
  · exact exec_wrbyte_sent hn ht hf (by rw [hp, clockBits_readFrame v hc h8 hd])
  · exact exec_wrbyte_edgeRefused hn ht hf (by rw [hp, clockBits_full v hc h16])

/-- Settles O26: a peripheral that refuses nothing answers some byte; an oracle that follows a byte's events answers it. -/
theorem rdbyteUnbound : Obligations.RdbyteUnbound := by
  intro s hn ht hf
  refine ⟨fun hp => ?_, fun o o' r hp ho => exec_rdbyte_read hn ht hf (readByte_plays_oracle hp ho)⟩
  obtain ⟨r, p, n, hplays, hafter⟩ := readByte_plays_free hp
  exact ⟨r, p, n, exec_rdbyte_read hn ht hf hplays, hafter⟩

/-- Settles O27: each read cell of the frame is answered by its bit of the stored byte. -/
theorem rdbyteStore : Obligations.RdbyteStore := by
  intro s p k r hn ht hp hf h8 hd hk hr
  have hc : s.ce.level = true := by rw [(transportReady_iff.1 ht).2]
  exact exec_rdbyte_read hn ht hf (readByte_plays_store hp h8 hc hd hk hr)

/-! ### The shift register on a write -/

/-- Write cells that are done have shifted `SR` once each and counted themselves in `BC` (R157, R158). -/
theorem writeCells_shift {bs : List Level} {s t : State} {u : Unit} (h : writeCells bs s = .done u t) :
    t.sr = s.sr >>> bs.length ∧ t.bc = s.bc + BitVec.ofNat 4 bs.length := by
  induction bs generalizing s with
  | nil =>
    obtain ⟨-, rfl⟩ := Run.done.inj h
    exact ⟨rfl, (BitVec.add_zero _).symm⟩
  | cons b bs ih =>
    obtain ⟨_, s1, h1, h2⟩ := Run.andThen_eq_done h
    obtain ⟨p, -, rfl⟩ := writeCell_done h1
    obtain ⟨hsr, hbc⟩ := ih h2
    refine ⟨?_, ?_⟩
    · rw [hsr, List.length_cons, Nat.add_comm, BitVec.shiftRight_add]
      rfl
    · rw [hbc, List.length_cons, Nat.add_comm, BitVec.ofNat_add, ← BitVec.add_assoc]
      rfl

/-- Where the peripheral refuses nothing and no primitive faults, every write cell is done, in whatever mode `IO` is. -/
theorem writeCells_progress (bs : List Level) {s : State} (hp : s.periph.refusesNothing = true)
    (hf : faultFree s (5 * bs.length)) : ∃ t, writeCells bs s = .done () t := by
  induction bs generalizing s with
  | nil => exact ⟨s, rfl⟩
  | cons b bs ih =>
    rw [List.length_cons, Nat.mul_succ, Nat.add_comm] at hf
    have h1 := writeCell_plays (b := b) (Periph.observe_of_refusesNothing hp (.set .clk true) ⟨s.io.mode, b⟩ s.ce)
    obtain ⟨t, ht⟩ := ih (s := s.cellWritten b s.periph) hp (faultFree_append hf rfl rfl)
    exact ⟨t, by rw [writeCells, h1.runs (faultFree_mono hf (Nat.le_add_right 5 _)), Run.andThen_done, ht]⟩

/-- Bit `i` of a byte in the order of the wire (R63). -/
theorem bitsOf_getElem? (v : Byte) (i : Nat) : (bitsOf v)[i]? = if i < 8 then some (v.getLsbD i) else none := by
  match i with
  | 0 | 1 | 2 | 3 | 4 | 5 | 6 | 7 => rfl
  | i + 8 => rw [if_neg (by omega)]; rfl

/-- Settles O29: after `i` cells `SR` has been shifted `i` times. -/
theorem writeShiftRegister : Obligations.WriteShiftRegister := by
  intro v s i hi
  have hlen : ((bitsOf v).take i).length = i := List.length_take_of_le hi
  refine ⟨fun t h => ?_, fun hp hf => writeCells_progress _ hp (by rw [hlen]; exact hf)⟩
  obtain ⟨hsr, hbc⟩ := writeCells_shift h
  rw [hlen] at hsr hbc
  have hbit : t.sr.getLsbD 0 = v.getLsbD i := by
    rw [hsr, BitVec.getLsbD_ushiftRight]
    rfl
  refine ⟨hsr, hbit, by rw [hbit, bitsOf_getElem?], ?_, ?_⟩
  · rw [hbc, show (s.loadWrite v).bc = 0#4 from rfl, BitVec.zero_add, BitVec.toNat_ofNat]
    omega
  · rintro rfl
    rw [hsr]
    exact BitVec.ushiftRight_eq_zero (Nat.le_refl 8)

end Sys2Proof.Machine
end

section
/-! PROOFS. The phase machine of R157 against the pseudocode of WRBYTE and RDBYTE (R151, R153, R160): `TicksTo` says what the
machine comes to, and is proved phase by phase, then cell by cell, then for the byte. -/

namespace Sys2Proof.Machine

/-! ### One tick -/

/-- `Delay` with no fault. -/
theorem sleepMicros_of_not_faultsNow (d : BitVec 16) {s : State} (hf : faultsNow s = false) :
    sleepMicros d s = .done () (s.slept d) := by
  rw [sleepMicros_eq, attempt, hf, if_neg Bool.false_ne_true]

/-! A tick of a `Delay` phase (R29, R157): the primitive faults, or the tick is the last, or `TMR` counts. -/

theorem tickDelay_faults {s : State} {g : State → State} (hf : faultsNow s = true) :
    tickDelay s g = .halted (enterLineFault none .sleepMicros { s with prims := s.prims + 1 }) := if_pos hf

theorem tickDelay_last {s : State} {g : State → State} (hf : faultsNow s = false) (h : s.tmr ≤ 1) :
    tickDelay s g = .done () (g (s.slept Config.delayUs)) := by
  rw [tickDelay, hf, if_neg Bool.false_ne_true, if_pos h,
    sleepMicros_of_not_faultsNow (s := { s with tmr := 0 }) _ hf, Run.andThen_done]
  rfl

theorem tickDelay_counts {s : State} {g : State → State} (hf : faultsNow s = false) (h : 1 < s.tmr) :
    tickDelay s g = .done () { s with tmr := s.tmr - 1 } := by
  rw [tickDelay, hf, if_neg Bool.false_ne_true, if_neg (Nat.not_le_of_lt h)]

/-! The end of a cell (R157, rows W_LO and R_LO). -/

theorem nextCell_again (p : Phase) {s : State} (h : s.bc.toNat < 8) : nextCell p s = s.atPhase p :=
  congrArg s.atPhase (if_pos h)

theorem nextCell_last (p : Phase) {s : State} (h : s.bc.toNat = 8) : nextCell p s = s.atPhase .idle :=
  congrArg s.atPhase (if_neg (Nat.not_lt_of_le h.ge))

/-! ### Phases -/

/-- From `s` the phase machine comes to `r`, and stays there. -/
def TicksTo (s : State) (r : Run Unit) : Prop := ∃ n, ∀ m, n ≤ m → ticks m s = r

/-- In IDLE the machine stays (R157). -/
theorem TicksTo.idle {s : State} (h : s.ph = .idle) : TicksTo s (.done () s) := by
  refine ⟨0, fun m _ => ?_⟩
  induction m with
  | zero => rfl
  | succ m ih => rw [ticks, tick, h, Run.andThen_done, ih (Nat.zero_le m)]

/-- A tick after which the machine goes on. -/
theorem TicksTo.of_tick {s t : State} {r : Run Unit} (h : tick s = .done () t) (ht : TicksTo t r) : TicksTo s r := by
  obtain ⟨n, hn⟩ := ht
  exact ⟨n + 1, fun
    | m + 1, hm => by rw [ticks, h, Run.andThen_done, hn m (Nat.le_of_succ_le_succ hm)]⟩

/-- A tick after which nothing more runs: a fault or a refusal. -/
theorem TicksTo.of_stop {s : State} {r : Run Unit} (h : tick s = r)
    (hr : ∀ f : Unit → State → Run Unit, r.andThen f = r) : TicksTo s r :=
  ⟨1, fun | m + 1, _ => by rw [ticks, h, hr]⟩

/-- A phase of one tick: the tick is the primitive `x` and the move `g` to the next phase. -/
theorem TicksTo.prim {α : Type} {s : State} {x : Run α} {g : α → State → State} {f : α → State → Run Unit}
    (hx : tick s = x.andThen fun a t => .done () (g a t)) (h : ∀ a t, x = .done a t → TicksTo (g a t) (f a t)) :
    TicksTo s (x.andThen f) := by
  cases x with
  | done a t => exact (h a t rfl).of_tick hx
  | halted t => exact .of_stop hx fun _ => rfl
  | refused r => exact .of_stop hx fun _ => rfl

/-- A `Delay` phase `p` with no fault counts `TMR` down, whatever it was loaded with, and ends where `Delay` does. -/
theorem TicksTo.countdown {p : Phase} {g : State → State} {r : Run Unit}
    (hp : ∀ s, s.ph = p → tick s = tickDelay s g) {s : State} (hs : s.ph = p) (hf : faultsNow s = false)
    (h : TicksTo (g (s.slept Config.delayUs)) r) : TicksTo s r := by
  induction hn : s.tmr using Nat.strongRecOn generalizing s with
  | ind n ih =>
    by_cases h1 : s.tmr ≤ 1
    · exact h.of_tick ((hp s hs).trans (tickDelay_last hf h1))
    · have rest : TicksTo { s with tmr := s.tmr - 1 } r := ih (s.tmr - 1) (by omega) hs hf h rfl
      exact rest.of_tick ((hp s hs).trans (tickDelay_counts hf (Nat.lt_of_not_le h1)))

/-- A `Delay` phase `p`: it faults on its first tick (log entry 19), or counts down to the event (R157). -/
theorem TicksTo.delay {p : Phase} {g : State → State} {f : Unit → State → Run Unit}
    (hp : ∀ s, s.ph = p → tick s = tickDelay s g) {s : State} (hs : s.ph = p)
    (h : ∀ t, sleepMicros Config.delayUs s = .done () t → TicksTo (g t) (f () t)) :
    TicksTo s ((sleepMicros Config.delayUs s).andThen f) := by
  cases hf : faultsNow s with
  | true =>
    rw [sleepMicros, attempt, if_pos hf, Run.andThen_halted]
    exact .of_stop ((hp s hs).trans (tickDelay_faults hf)) fun _ => rfl
  | false =>
    have hd : sleepMicros Config.delayUs s = .done () (s.slept Config.delayUs) := sleepMicros_of_not_faultsNow _ hf
    rw [hd]
    exact .countdown hp hs hf (h _ hd)

/-! ### Cells and bytes -/

/-- The five phases of a write cell whose bit stands in `SR[0]`. -/
theorem TicksTo.writeCell {s : State} {f : Unit → State → Run Unit}
    (h : ∀ t, writeCell (s.sr.getLsbD 0) s = .done () t → TicksTo (nextCell .wData t) (f () t)) :
    TicksTo (s.atPhase .wData) ((writeCell (s.sr.getLsbD 0) s).andThen f) := by
  simp only [Machine.writeCell, Run.andThen_assoc] at h ⊢
  refine .prim (g := fun _ t => t.atPhase .wRise) rfl fun _ s1 h1 => ?_
  refine .prim (g := fun _ t => t.loadTimer.atPhase .wHi) rfl fun _ s2 h2 => ?_
  refine .delay (p := .wHi) (g := (·.atPhase .wFall)) (fun s hs => by rw [tick, hs]) rfl fun s3 h3 => ?_
  refine .prim (g := fun _ t => t.loadTimer.atPhase .wLo) rfl fun _ s4 h4 => ?_
  refine .delay (p := .wLo) (g := fun t => nextCell .wData t.endWriteCell) (fun s hs => by rw [tick, hs]) rfl
    fun s5 h5 => ?_
  exact h _ (by simp only [h1, h2, h3, h4, h5, Run.andThen_done])

/-- The five phases of a read cell. -/
theorem TicksTo.readCell {s : State} {f : Level → State → Run Unit}
    (h : ∀ b t, readCell s = .done b t → TicksTo (nextCell .rRise t) (f b t)) :
    TicksTo (s.atPhase .rRise) ((readCell s).andThen f) := by
  simp only [Machine.readCell, Run.andThen_assoc] at h ⊢
  refine .prim (g := fun _ t => t.loadTimer.atPhase .rHi) rfl fun _ s1 h1 => ?_
  refine .delay (p := .rHi) (g := (·.atPhase .rSamp)) (fun s hs => by rw [tick, hs]) rfl fun s2 h2 => ?_
  refine .prim (g := fun b t => (t.shiftSample b).atPhase .rFall) rfl fun b s3 h3 => ?_
  refine .prim (g := fun _ t => t.loadTimer.atPhase .rLo) rfl fun _ s4 h4 => ?_
  refine .delay (p := .rLo) (g := fun t => nextCell .rRise t.endReadCell) (fun s hs => by rw [tick, hs]) rfl
    fun s5 h5 => ?_
  exact h b _ (by simp only [h1, h2, h3, h4, h5, Run.andThen_done])

/-- `BC` counts one cell more. -/
theorem toNat_add_one_add_of_eq_eight {x : BitVec 4} {n : Nat} (h : x.toNat + (n + 1) = 8) : (x + 1).toNat + n = 8 := by
  rw [BitVec.toNat_add]
  change (x.toNat + 1) % 16 + n = 8
  omega

/-- The write cells still to come, whose bits stand in `SR` (R158), and the end of the byte. -/
theorem TicksTo.writeCells {bs : List Level} {s : State} (hbc : s.bc.toNat + bs.length = 8)
    (hsr : ∀ i b, bs[i]? = some b → s.sr.getLsbD i = b) :
    TicksTo (nextCell .wData s) ((writeCells bs s).andThen fun _ t => .done () (t.atPhase .idle)) := by
  induction bs generalizing s with
  | nil =>
    rw [nextCell_last _ hbc]
    exact .idle rfl
  | cons b bs ih =>
    rw [List.length_cons] at hbc
    obtain rfl := hsr 0 b rfl
    rw [nextCell_again _ (by omega), Machine.writeCells, Run.andThen_assoc]
    refine .writeCell fun t ht => ?_
    obtain ⟨p, -, rfl⟩ := writeCell_done ht
    refine ih (toNat_add_one_add_of_eq_eight hbc) fun i b hi => ?_
    rw [← hsr (i + 1) b hi, Nat.add_comm]
    exact BitVec.getLsbD_ushiftRight _ _ _

/-- The read cells still to come, and the end of the byte. -/
theorem TicksTo.readCells {is : List Nat} {r : Byte} {s : State} (hbc : s.bc.toNat + is.length = 8) :
    TicksTo (nextCell .rRise s) ((readCells is r s).andThen fun _ t => .done () (t.atPhase .idle)) := by
  induction is generalizing r s with
  | nil =>
    rw [nextCell_last _ hbc]
    exact .idle rfl
  | cons i is ih =>
    rw [List.length_cons] at hbc
    rw [nextCell_again _ (by omega), Machine.readCells, Run.andThen_assoc]
    refine .readCell fun b t ht => ?_
    obtain ⟨p, n, rfl⟩ := readCell_done ht
    exact ih (toNat_add_one_add_of_eq_eight hbc)

/-- R160 of WRBYTE: the phase machine comes to what the pseudocode of R151 comes to. -/
theorem TicksTo.writeByte (v : Byte) (s : State) : TicksTo (s.loadWrite v) (writeByte v s) := by
  refine .prim (g := fun _ t => t.atPhase .wData) rfl fun _ t ht => ?_
  obtain rfl := cfgOut_done ht
  refine .writeCells (s := (s.loadWrite v).cfgOut .io) rfl fun i b hi => ?_
  rw [bitsOf_getElem?] at hi
  split at hi
  · exact Option.some.inj hi
  · cases hi

/-- R160 of RDBYTE: the phase machine comes to what the pseudocode of R153 comes to. -/
theorem TicksTo.readByte (s : State) : TicksTo s.loadRead ((readByte s).andThen fun _ t => .done () t) := by
  simp only [Machine.readByte, Run.andThen_assoc, Run.andThen_done]
  refine .prim (g := fun _ t => t.atPhase .rRise) rfl fun _ t ht => ?_
  obtain rfl := cfgIn_done ht
  exact .readCells (s := s.loadRead.cfgIn .io) rfl

/-! ### The result byte -/

/-- RDBYTE that ends without a fault has run its pseudocode to the end (R153). -/
theorem rdbyte_done_readByte {s t : State} (h : exec .rdbyte s = .next t) (hf : t.fault = false) :
    ∃ r u, readByte s = .done r u ∧ t = respond (bytePayload r) u := by
  have hn : onNull s = false := by
    cases hn : onNull s with
    | false => rfl
    | true => simp [exec, execRdbyte, hn] at h
  rw [exec_rdbyte hn (rdbyte_done h hf).1] at h
  obtain ⟨_, _, hm, rfl⟩ := finish_next_done h hf ((keptFault.readByte trivial).andThen fun _ _ _ _ => trivial)
  obtain ⟨r, u, hr, hu⟩ := Run.andThen_eq_done hm
  obtain ⟨rfl, rfl⟩ := Run.done.inj hu
  exact ⟨r, u, hr, rfl⟩

/-- The result byte stands in `RW[7:0]` (R104). -/
theorem okResponse_byte_extract (r : Byte) : (okResponse (bytePayload r)).extractLsb' 0 8 = r := by
  rw [okResponse_byte, ← BitVec.setWidth_eq_extractLsb' (by decide), BitVec.setWidth_setWidth_of_le _ (by decide),
    BitVec.setWidth_eq]

/-- Settles O30: both bytes phase by phase, and the byte RDBYTE answers is the one `SR` ends at (R159). -/
theorem phaseMachineEquivalence : Obligations.PhaseMachineEquivalence := by
  refine ⟨TicksTo.writeByte, TicksTo.readByte, fun s t h hf => ?_⟩
  obtain ⟨r, u, hr, rfl⟩ := rdbyte_done_readByte h hf
  obtain ⟨n, hn⟩ := TicksTo.readByte s
  refine ⟨r, u, hr, okResponse_byte_extract r, ?_, n, by rw [hn n (Nat.le_refl n), hr, Run.andThen_done]⟩
  obtain ⟨p, m, rfl⟩ := readByte_done hr
  rfl

end Sys2Proof.Machine
end

section
/-! PROOFS. The gate and the register protocol as operations (R180 to R186): CEHI and CELO, WRREG and RDREG with full frame,
whatever is wired, and a transaction as its four parts, one operation after another. -/

namespace Sys2Proof.Machine

/-! ### CEHI and CELO as operations -/

section Gate

variable {s : State} (hn : onNull s = false) (hg : gateReady s = true) (hf : faultFree s 1)
include hn hg hf

theorem exec_cehi_raised : exec .cehi s = .next
    { s with ce := ⟨.out, true⟩, trace := s.trace ++ [.set .ce true], rw := 0, busy := false, prims := s.prims + 1,
             periph := s.periph.raised } := by
  obtain ⟨hm, -⟩ := gateReady_iff.1 hg
  rw [exec_cehi hn hg, (setLine_plays (Periph.observe_raised _ _ _)).runs hf, Run.andThen_done, finish_done, respond,
    okResponse_zero, State.setTo, State.line, hm]
  rfl

theorem exec_celo_lowered (hb : betweenFrames s.periph = true) : exec .celo s = .next
    { s with ce := ⟨.out, false⟩, trace := s.trace ++ [.set .ce false], rw := 0, busy := false,
             prims := s.prims + 1 } := by
  obtain ⟨hm, -⟩ := gateReady_iff.1 hg
  have ho := (Periph.observe_lower s.io s.ce s.periph).trans (if_pos hb)
  rw [exec_celo hn hg, (setLine_plays ho).runs hf, Run.andThen_done, finish_done, respond, okResponse_zero, State.setTo,
    State.line, hm]
  rfl

/-- CELO inside a frame of `P_store` (R73, F13). -/
theorem exec_celo_frameCut (hb : betweenFrames s.periph = false) : exec .celo s = .refused .periphFrameCut := by
  have ho := (Periph.observe_lower s.io s.ce s.periph).trans (if_neg (by rw [hb]; exact Bool.false_ne_true))
  rw [exec_celo hn hg, setLine_refused hf ho, Run.andThen_refused, finish_refused]

end Gate

/-- Settles O31: either is one `Set` of `CE`; what the peripheral makes of it decides. -/
theorem gateResult : Obligations.GateResult := fun _ hn hg hf =>
  ⟨exec_cehi_raised hn hg hf, exec_celo_lowered hn hg hf, exec_celo_frameCut hn hg hf⟩

/-! ### WRREG and RDREG as operations -/

section Transactions

variable {a : Byte} {s : State} (hn : onNull s = false) (hi : idleState s = true) (hf : faultFree s 84)
include hn hi hf

/-- WRREG, whatever is wired. -/
theorem exec_wrreg_framed (v : Byte) (ha : isWriteAddr a = true) : exec (.wrreg a v) s = .next
    { s with io := ⟨.out, v.getLsbD 7⟩, sr := 0, bc := 8, tmr := 0, ph := .idle, txn := .none, rw := 0, busy := false,
             trace := s.trace ++ writeFrame a v, prims := s.prims + 84, draws := s.draws + 2,
             periph := s.periph.framed a v } := by
  obtain ⟨hclk, hce, -⟩ := idleState_iff.1 hi
  rw [exec_wrreg hn ha hi, (writeRegister_plays v ha s).runs hf, Run.andThen_done, finish_done]
  simp only [respond, State.frameWritten, okResponse_zero, hclk, hce]

/-- RDREG answers the byte that its frame plays. -/
theorem exec_rdreg_read (ha : isReadAddr a = true) {r : Byte} {p : Periph} {n : Nat}
    (h : Plays s (readRegister a s) (readFrame a r) r (s.frameRead a r p n)) : exec (.rdreg a) s = .next
    { s with io := ⟨.inp, a.getLsbD 7⟩, sr := r, bc := 8, tmr := 0, ph := .idle, txn := .none, rw := r.setWidth 64,
             busy := false, trace := s.trace ++ readFrame a r, prims := s.prims + 84, draws := s.draws + 1 + n,
             periph := p } := by
  obtain ⟨hclk, hce, -⟩ := idleState_iff.1 hi
  rw [exec_rdreg hn ha hi, h.runs hf, Run.andThen_done, finish_done]
  simp only [respond, State.frameRead, okResponse_byte, hclk, hce, Nat.add_assoc]

end Transactions

/-- Settles O33: a peripheral that refuses nothing is as before after the frame. -/
theorem wrregUnbound : Obligations.WrregUnbound := by
  intro a v s hn ha hi hp hf
  rw [exec_wrreg_framed hn hi hf v ha, Periph.framed_of_refusesNothing hp]

/-- Settles O34: the frame writes the address's row of the register space. -/
theorem wrregStore : Obligations.WrregStore := by
  intro a v s p hn ha hi hp hf
  obtain ⟨-, k, hk⟩ := isWriteAddr_row ha
  refine ⟨k, Memory.write p.store k v, hk, ?_, Memory.read_write_same _ _ _, fun j => Memory.read_write_other _ v⟩
  rw [exec_wrreg_framed hn hi hf v ha, hp]
  simp only [Periph.framed, hk]

/-- Settles O35: a peripheral that refuses nothing answers some byte; an oracle that follows a frame's events answers its
byte. -/
theorem rdregUnbound : Obligations.RdregUnbound := by
  intro a s hn ha hi hf
  refine ⟨fun hp => ?_, fun o o' r hp ho => exec_rdreg_read hn hi hf ha (readRegister_plays_oracle hp ho)⟩
  obtain ⟨r, p, n, hplays, hafter⟩ := readRegister_plays_free a hp
  exact ⟨r, p, n, exec_rdreg_read hn hi hf ha hplays, hafter⟩

/-- Settles O36: the frame reads the address's row, and refuses where it is unwritten. -/
theorem rdregStore : Obligations.RdregStore := by
  intro a s p k hn ha hi hp hf hk
  refine ⟨fun r hr => exec_rdreg_read hn hi hf ha (readRegister_plays_store ha hp hk hr), fun hr => ?_⟩
  rw [exec_rdreg hn ha hi, readRegister_unwritten hf ha hp hk hr, Run.andThen_refused, finish_refused]

/-! ### What an answered transaction guarantees -/

/-- From the idle state, lowering `CLK` and `CE` leads back to it, once `IO` is configured (R180). -/
theorem idleState_of_lowered {s t : State} (hi : idleState s = true) (hclk : t.clk = ⟨s.clk.mode, false⟩)
    (hce : t.ce = ⟨s.ce.mode, false⟩) (hio : t.io.mode ≠ .unconf) : idleState t = true := by
  obtain ⟨h1, h2, -⟩ := idleState_iff.1 hi
  rw [h1] at hclk
  rw [h2] at hce
  exact idleState_iff.2 ⟨hclk, hce, hio⟩

/-- Settles O37: an answered transaction ends in its closed form, whatever is wired. -/
theorem transactionGuarantees : Obligations.TransactionGuarantees := by
  refine ⟨fun a v s t h hf => ?_, fun a s t h hf => ?_⟩
  · obtain ⟨-, -, hi, rfl⟩ := wrreg_done h hf
    exact ⟨rfl, idleState_of_lowered hi rfl rfl nofun, rfl, okResponse_zero⟩
  · obtain ⟨-, -, hi, r, p, n, -, rfl⟩ := rdreg_done h hf
    exact ⟨r, rfl, idleState_of_lowered hi rfl rfl nofun, rfl, okResponse_byte r⟩

/-! ### A transaction is its parts

Between two operations the engine goes back to its position of rest and the response is written, which inside a transaction
does not happen; neither shows on the wire. -/

/-- The same state with the engine at position `x` and `BUSY` as given. -/
def State.withEngine (s : State) (x : Position) (busy : Bool) : State :=
  { s with ph := x.ph, txn := x.txn, seq := x.seq, busy := busy }

/-- `t` is `s` but for the engine's position, `BUSY`, and the registers that no operation depends on. -/
def SameButEngine (s t : State) : Prop := ∃ x b, SameButRegs (s.withEngine x b) t

theorem SameButEngine.refl (s : State) : SameButEngine s s :=
  ⟨s.position, s.busy, s.sr, s.bc, s.tmr, s.cw, s.rw, rfl⟩

/-- Where the transaction's own engine stands does not matter. -/
theorem SameButEngine.atTxn_left {s t : State} (h : SameButEngine s t) (y : Txn) : SameButEngine (s.atTxn y) t := h

theorem SameButEngine.sameWire {s t : State} (h : SameButEngine s t) : sameWire t s := by
  obtain ⟨x, b, sr, bc, tmr, cw, rw, rfl⟩ := h
  exact ⟨rfl, rfl, rfl, rfl, rfl⟩

/-- A response writes `RW` and `BUSY` only, so it may be written on both sides, or on one. -/
theorem SameButEngine.respond {s t : State} (h : SameButEngine s t) (p : BitVec 56) :
    SameButEngine (respond p s) (respond p t) := by
  obtain ⟨x, b, sr, bc, tmr, cw, rw, rfl⟩ := h
  exact ⟨x, false, sr, bc, tmr, cw, okResponse p, rfl⟩

theorem SameButEngine.of_respond {s t : State} {p : BitVec 56} (h : SameButEngine (Machine.respond p s) t) :
    SameButEngine s t := by
  obtain ⟨x, b, sr, bc, tmr, cw, rw, rfl⟩ := h
  exact ⟨x, b, sr, bc, tmr, cw, rw, rfl⟩

/-- No primitive looks at the engine's position or at `BUSY`; the rest is `keptSameButRegs`. -/
theorem keptSameButEngine : KeptRel SameButEngine SameButEngine where
  cfgOut l _ _ := fun ⟨x, b, h⟩ => ⟨x, b, by cases l <;> exact keptSameButRegs.cfgOut _ _ _ h⟩
  cfgIn l _ _ := fun ⟨x, b, h⟩ => ⟨x, b, by cases l <;> exact keptSameButRegs.cfgIn _ _ _ h⟩
  setTo l v p _ _ := fun ⟨x, b, h⟩ => ⟨x, b, by cases l <;> exact keptSameButRegs.setTo _ v p _ _ h⟩
  slept d _ _ := fun ⟨x, b, h⟩ => ⟨x, b, keptSameButRegs.slept d _ _ h⟩
  sampled l v p n _ _ := fun ⟨x, b, h⟩ => ⟨x, b, keptSameButRegs.sampled l v p n _ _ h⟩
  phase p _ _ := fun ⟨x, b, h⟩ => ⟨{ x with ph := p }, b, keptSameButRegs.phase p _ _ h⟩
  txn y _ _ := fun ⟨x, b, h⟩ => ⟨{ x with txn := y }, b, keptSameButRegs.txn y _ _ h⟩
  seq k _ _ := fun ⟨x, b, h⟩ => ⟨{ x with seq := k }, b, keptSameButRegs.seq k _ _ h⟩
  regs r y m r' y' m' _ _ := fun ⟨x, b, h⟩ => ⟨x, b, keptSameButRegs.regs r y m r' y' m' _ _ h⟩
  faulted _ _ _ _ := fun ⟨x, _, sr, bc, tmr, cw, _, h⟩ =>
    ⟨x, true, sr, bc, tmr, cw, responseWord statusLineFault 0, h ▸ rfl⟩
  faults _ _ := fun ⟨_, _, h⟩ => (keptSameButRegs.faults _ _ h :)
  observes l v _ _ := fun ⟨_, _, h⟩ => (keptSameButRegs.observes l v _ _ h :)
  samples _ _ := fun ⟨_, _, h⟩ => (keptSameButRegs.samples _ _ h :)

/-- Every operation goes on alike from states that are the same but for the engine. -/
theorem SameButEngine.exec {s s' t : State} {i : Instr} (h : SameButEngine s s') (he : exec i s = .next t) :
    ∃ t', Machine.exec i s' = .next t' ∧ SameButEngine t t' := by
  have hout : KeptRel.OutSame SameButEngine SameButEngine (Machine.exec i s) (Machine.exec i s') := by
    obtain ⟨x, b, sr, bc, tmr, cw, rw, rfl⟩ := h
    exact keptSameButEngine.exec i ⟨x, b, sr, bc, tmr, cw, rw, rfl⟩ rfl rfl rfl rfl
  rw [he] at hout
  rcases hout with ⟨p, u, v, huv, hu, hv⟩ | ⟨u, v, huv, hu, hv⟩ | ⟨r, hu, -⟩
  · obtain rfl := Host.Outcome.next.inj hu
    exact ⟨_, hv, huv.respond p⟩
  · obtain rfl := Host.Outcome.next.inj hu
    exact ⟨_, hv, huv⟩
  · cases hu

/-- The first of several operations, by what it answers from a state that is the same but for the engine. -/
theorem execAll_cons_of_same {i : Instr} {is : List Instr} {u u1 s t : State} {p : BitVec 56} (h : SameButEngine u s)
    (he : exec i u = .next (respond p u1))
    (hnext : ∀ s1, SameButEngine u1 s1 → ∃ w, execAll is s1 = .next w ∧ SameButEngine t w) :
    ∃ w, execAll (i :: is) s = .next w ∧ SameButEngine t w := by
  obtain ⟨s1, hs1, h1⟩ := h.exec he
  obtain ⟨w, hw, ht⟩ := hnext s1 h1.of_respond
  exact ⟨w, by rw [execAll, hs1]; exact hw, ht⟩

/-! The four parts in turn: CEHI selects the peripheral on the real backend, and it stays selected until CELO. -/

/-- The block may transfer a byte: it is the real backend, within R150's precondition. -/
structure Selected (s : State) : Prop where
  onNull : onNull s = false
  ready : transportReady s = true

theorem Selected.gateReady {s : State} (h : Selected s) : gateReady s = true := by
  obtain ⟨hclk, hce⟩ := transportReady_iff.1 h.ready
  exact gateReady_iff.2 ⟨congrArg LineState.mode hce, hclk⟩

theorem Selected.atTxn {s : State} (h : Selected s) (x : Txn) : Selected (s.atTxn x) := ⟨h.onNull, h.ready⟩

theorem selected_setTo_ce {s : State} (hn : Machine.onNull s = false) (hi : idleState s = true) (p : Periph) :
    Selected (s.setTo .ce true p) := by
  obtain ⟨hclk, hce, -⟩ := idleState_iff.1 hi
  exact ⟨hn, transportReady_iff.2 ⟨hclk, congrArg (LineState.mk ·.mode true) hce⟩⟩

/-- A byte that is done leaves the peripheral selected: `CLK` is low again and `CE` is as it was. -/
theorem Selected.of_lines {s t : State} (h : Selected s) (hcfg : t.cfg = s.cfg) (hclk : t.clk = ⟨s.clk.mode, false⟩)
    (hce : t.ce = s.ce) : Selected t := by
  obtain ⟨h1, h2⟩ := transportReady_iff.1 h.ready
  rw [h1] at hclk
  exact ⟨by rw [Machine.onNull, hcfg]; exact h.onNull, transportReady_iff.2 ⟨hclk, hce.trans h2⟩⟩

theorem Selected.writeByte {v : Byte} {s t : State} {u : Unit} (h : Selected s) (hd : writeByte v s = .done u t) :
    Selected t := by
  obtain ⟨p, -, rfl⟩ := writeByte_done hd
  exact h.of_lines rfl rfl rfl

theorem Selected.readByte {s t : State} {r : Byte} (h : Selected s) (hd : readByte s = .done r t) : Selected t := by
  obtain ⟨p, n, rfl⟩ := readByte_done hd
  exact h.of_lines rfl rfl rfl

/-- A transaction with address byte `a` whose data byte is the part `m` (R92, R186). -/
def transaction {α : Type} (a : Byte) (m : State → Run α) (s : State) : Run α :=
  (setLine .ce true (s.atTxn .ceHi)).andThen fun _ s =>
  (writeByte a (s.atTxn .addr)).andThen fun _ s =>
  (m (s.atTxn .data)).andThen fun r s =>
  (setLine .ce false (s.atTxn .ceLo)).andThen fun _ s =>
  .done r (s.atTxn .none)

theorem writeRegister_eq (a v : Byte) : writeRegister a v = transaction a (writeByte v) := rfl

theorem readRegister_eq (a : Byte) : readRegister a = transaction a readByte := rfl

/-- A transaction that is done is its four parts as operations, where `i` is the operation of its data byte. -/
theorem transaction_parts {α : Type} {a : Byte} {m : State → Run α} {i : Instr} {f : α → BitVec 56} {s t : State} {r : α}
    (hexec : ∀ u, Selected u → exec i u = finish ((m u).andThen fun b u => .done (f b) u))
    (hkeeps : ∀ u b w, Selected u → m u = .done b w → Selected w)
    (hn : onNull s = false) (hi : idleState s = true) (h : transaction a m s = .done r t) :
    ∃ w, execAll [.cehi, .wrbyte a, i, .celo] s = .next w ∧ SameButEngine t w := by
  obtain ⟨hclk, hce, -⟩ := idleState_iff.1 hi
  obtain ⟨_, s1, h1, h⟩ := Run.andThen_eq_done h
  obtain ⟨_, s2, h2, h⟩ := Run.andThen_eq_done h
  obtain ⟨b, s3, h3, h⟩ := Run.andThen_eq_done h
  obtain ⟨_, s4, h4, h⟩ := Run.andThen_eq_done h
  obtain ⟨rfl, rfl⟩ := Run.done.inj h
  have hg : gateReady (s.atTxn .ceHi) = true := gateReady_iff.2 ⟨congrArg LineState.mode hce, hclk⟩
  have k1 : Selected (s1.atTxn .addr) := by
    obtain ⟨p, -, rfl⟩ := setLine_done h1
    exact (selected_setTo_ce (s := s.atTxn .ceHi) hn hi p).atTxn .addr
  have k2 : Selected (s2.atTxn .data) := (k1.writeByte h2).atTxn .data
  have k3 : Selected (s3.atTxn .ceLo) := (hkeeps _ _ _ k2 h3).atTxn .ceLo
  have x1 : exec .cehi (s.atTxn .ceHi) = .next (respond 0 s1) := by
    rw [exec_cehi (s := s.atTxn .ceHi) hn hg, h1, Run.andThen_done, finish_done]
  have x2 : exec (.wrbyte a) (s1.atTxn .addr) = .next (respond 0 s2) := by
    rw [exec_wrbyte k1.onNull k1.ready, h2, Run.andThen_done, finish_done]
  have x3 : exec i (s2.atTxn .data) = .next (respond (f b) s3) := by
    rw [hexec _ k2, h3, Run.andThen_done, finish_done]
  have x4 : exec .celo (s3.atTxn .ceLo) = .next (respond 0 s4) := by
    rw [exec_celo k3.onNull k3.gateReady, h4, Run.andThen_done, finish_done]
  exact execAll_cons_of_same ((SameButEngine.refl s).atTxn_left .ceHi) x1 fun _ e1 =>
    execAll_cons_of_same (e1.atTxn_left .addr) x2 fun _ e2 =>
    execAll_cons_of_same (e2.atTxn_left .data) x3 fun _ e3 =>
    execAll_cons_of_same (e3.atTxn_left .ceLo) x4 fun s5 e4 => ⟨s5, rfl, e4.atTxn_left .none⟩

/-- WRREG that ends without a fault has run its transaction to the end (R183). -/
theorem wrreg_done_writeRegister {a v : Byte} {s t : State} (h : exec (.wrreg a v) s = .next t) (hf : t.fault = false) :
    ∃ u, writeRegister a v s = .done () u ∧ t = respond 0 u := by
  obtain ⟨hn, ha, hi, -⟩ := wrreg_done h hf
  rw [exec_wrreg hn ha hi] at h
  obtain ⟨_, _, hm, rfl⟩ := finish_next_done h hf ((keptFault.writeRegister trivial).andThen fun _ _ _ _ => trivial)
  obtain ⟨_, u, hw, hu⟩ := Run.andThen_eq_done hm
  obtain ⟨rfl, rfl⟩ := Run.done.inj hu
  exact ⟨u, hw, rfl⟩

/-- Settles O38: WRREG and RDREG are transactions whose data byte is WRBYTE and RDBYTE. -/
theorem transactionIsItsParts : Obligations.TransactionIsItsParts := by
  refine ⟨fun a v s t h hf => ?_, fun a s t h hf => ?_⟩
  · obtain ⟨hn, -, hi, -⟩ := wrreg_done h hf
    obtain ⟨u, hr, rfl⟩ := wrreg_done_writeRegister h hf
    rw [writeRegister_eq] at hr
    obtain ⟨w, hw, hs⟩ := transaction_parts (i := .wrbyte v) (f := fun _ => 0)
      (fun u k => exec_wrbyte k.onNull k.ready) (fun _ _ _ k => k.writeByte) hn hi hr
    exact ⟨w, hw, hs.sameWire⟩
  · obtain ⟨hn, -, hi, r, p, n, hr, rfl⟩ := rdreg_done h hf
    rw [readRegister_eq] at hr
    obtain ⟨w, hw, hs⟩ := transaction_parts (i := .rdbyte) (f := bytePayload) (fun u k => exec_rdbyte k.onNull k.ready)
      (fun _ _ _ k => k.readByte) hn hi hr
    exact ⟨w, hw, hs.sameWire⟩

end Sys2Proof.Machine
end

section
/-! PROOFS. The codec (R200 to R204): the formulas of BCD2DEC and DEC2BCD as sums of digits, BCD2DEC's result, the round
trips, and which results are valid BCD bytes. -/

namespace Sys2Proof.Machine

/-! ### The formulas by digits -/

/-- BCD2DEC's formula by division: the upper digit counts ten (R201). -/
theorem bcdFormula_eq (b : Byte) : (b.toNat >>> 4) * 10 + (b.toNat &&& 0x0F) = b.toNat / 16 * 10 + b.toNat % 16 := by
  rw [Nat.shiftRight_eq_div_pow, show (0x0F : Nat) = 2 ^ 4 - 1 from rfl, Nat.and_two_pow_sub_one_eq_mod]

/-- No operand of BCD2DEC is truncated: the formula's value is the result (R201). -/
theorem toNat_bcdToDecimal (b : Byte) : (bcdToDecimal b).toNat = b.toNat / 16 * 10 + b.toNat % 16 := by
  have := b.isLt
  rw [bcdToDecimal, bcdFormula_eq, BitVec.toNat_ofNat]
  omega

/-- The two digits of DEC2BCD's result do not overlap; of the tens digit `trunc8` keeps four bits (R202, R206). -/
theorem toNat_decimalToBcd (d : Byte) : (decimalToBcd d).toNat = d.toNat / 10 % 16 * 16 + d.toNat % 10 := by
  have hlow : d.toNat % 10 < 2 ^ 4 := by omega
  rw [decimalToBcd, BitVec.toNat_ofNat, ← Nat.shiftLeft_add_eq_or_of_lt hlow, Nat.shiftLeft_eq]
  omega

/-! ### BCD2DEC -/

/-- BCD2DEC answers the formula's value in `RW` and leaves every other field but `BUSY` (R201, R104). -/
theorem exec_bcd2dec (b : Byte) (s : State) :
    exec (.bcd2dec b) s =
      .next { s with rw := BitVec.ofNat 64 ((b.toNat >>> 4) * 10 + (b.toNat &&& 0x0F)), busy := false } := by
  have hrw : okResponse (bytePayload (bcdToDecimal b)) = BitVec.ofNat 64 ((b.toNat >>> 4) * 10 + (b.toNat &&& 0x0F)) := by
    rw [okResponse_byte, bcdFormula_eq, ← toNat_bcdToDecimal, BitVec.ofNat_toNat]
  rw [← hrw]
  rfl

/-- Settles O14: both digits are at most 15, and the formula's value is the result; two bytes with result 10 are 0x0A and
0x10. -/
theorem bcd2decResult : Obligations.Bcd2decResult := by
  refine ⟨exec_bcd2dec, fun b => ⟨rfl, decodeOfEncode (.bcd2dec b)⟩, fun b => ⟨?_, ?_, fun hhi hlo => ?_⟩,
    by decide, by decide, by decide, by decide⟩
  · have := b.isLt
    rw [bcdFormula_eq]
    omega
  · rw [bcdToDecimal, bcdFormula_eq]
  · rw [toNat_bcdToDecimal]
    omega

/-! ### The round trips -/

/-- DEC2BCD then BCD2DEC loses what `trunc8` cuts off the tens digit (R203). -/
theorem toNat_bcdToDecimal_decimalToBcd (n : Byte) :
    (bcdToDecimal (decimalToBcd n)).toNat = n.toNat / 10 % 16 * 10 + n.toNat % 10 := by
  rw [toNat_bcdToDecimal, toNat_decimalToBcd]
  omega

/-- BCD2DEC then DEC2BCD gives the byte back exactly when its lower digit is one (log entry 12): a lower nibble above 9 is
carried into the tens. -/
theorem decimalToBcd_bcdToDecimal_iff (b : Byte) : decimalToBcd (bcdToDecimal b) = b ↔ b.toNat % 16 ≤ 9 := by
  have := b.isLt
  rw [← BitVec.toNat_inj, toNat_decimalToBcd, toNat_bcdToDecimal]
  omega

/-- Settles O16: the first round trip by the digits of its operand, the second by its lower nibble alone. -/
theorem bcdRoundTrips : Obligations.BcdRoundTrips := by
  refine ⟨fun n hn => BitVec.eq_of_toNat_eq ?_, fun n hn => ?_, fun b _ hlo => (decimalToBcd_bcdToDecimal_iff b).2 hlo,
    decimalToBcd_bcdToDecimal_iff, (decimalToBcd_bcdToDecimal_iff 0xA0).2 (by decide)⟩
  · rw [toNat_bcdToDecimal_decimalToBcd]
    omega
  · have := n.isLt
    rw [toNat_bcdToDecimal_decimalToBcd]
    omega

/-! ### Validity -/

/-- On the contract range each nibble of DEC2BCD's result is a decimal digit (R204). -/
theorem decimalToBcd_valid {d : Byte} (hd : d.toNat ≤ 99) :
    (decimalToBcd d).toNat / 16 ≤ 9 ∧ (decimalToBcd d).toNat % 16 ≤ 9 := by
  rw [toNat_decimalToBcd]
  omega

/-- The year byte of a year in the window is a valid BCD byte (R224). -/
theorem yearByte_valid {y : BitVec 16} (hy : yearOk y = true) : (yearByte y).toNat / 16 ≤ 9 ∧ (yearByte y).toNat % 16 ≤ 9 := by
  obtain ⟨hlo, hhi⟩ := yearOk_iff.1 hy
  refine decimalToBcd_valid ?_
  rw [BitVec.toNat_ofNat, show Config.yearBase = 2000 from rfl]
  omega

/-- On the contract range bit 7 of DEC2BCD's result says that the operand is at least 80 (R204). -/
theorem getLsbD_seven_decimalToBcd {d : Byte} (hd : d.toNat ≤ 99) : (decimalToBcd d).getLsbD 7 = decide (80 ≤ d.toNat) := by
  rw [← BitVec.msb_eq_getLsbD_last (w := 8), BitVec.msb_eq_decide, toNat_decimalToBcd, decide_eq_decide]
  omega

/-- Settles O17: SETTIME's data bytes are the two write-protect bytes and results of DEC2BCD on the contract range. -/
theorem bcdValidity : Obligations.BcdValidity := by
  refine ⟨by decide, by decide, by decide, fun _ => decimalToBcd_valid, fun d hd => ?_, fun d hlo hd => ?_,
    fun t hy hmonth hday hhour hminute hsecond => ?_⟩
  · rw [getLsbD_seven_decimalToBcd (by omega), decide_eq_false_iff_not]
    omega
  · rw [getLsbD_seven_decimalToBcd hd, decide_eq_true hlo]
  · simp only [setTimePairs, List.forall_mem_cons]
    exact ⟨by decide, decimalToBcd_valid hsecond, decimalToBcd_valid hminute, decimalToBcd_valid hhour,
      decimalToBcd_valid hday, decimalToBcd_valid hmonth, yearByte_valid hy, by decide, nofun⟩

end Sys2Proof.Machine
end

section
/-! PROOFS. INIT (R221, R222) and the null backend (R231): what INIT leaves, that a second one repeats it and nothing undoes
it, and what a block with no lines answers; what never faults (R251). -/

namespace Sys2Proof.Machine

/-! ### INIT -/

section Init

variable {s : State} (hn : onNull s = false) (hf : faultFree s 6)
include hn hf

theorem exec_init_initialised (hb : betweenFrames s.periph = true) : exec .init s = .next (respond 0 s.initialised) := by
  rw [exec_init hn, (initLines_plays hb).runs hf, Run.andThen_done, finish_done]

/-- INIT inside a frame of `P_store` (R73, F13). -/
theorem exec_init_frameCut (hb : betweenFrames s.periph = false) : exec .init s = .refused .periphFrameCut := by
  rw [exec_init hn, initLines_refused hf hb, Run.andThen_refused, finish_refused]

end Init

/-- Settles O40: what the peripheral makes of the last event, `Set(CE, 0)`, decides. -/
theorem initResult : Obligations.InitResult := by
  refine fun s hn hf => ⟨fun hb => ?_, exec_init_frameCut hn hf⟩
  rw [exec_init_initialised hn hf hb, respond, okResponse_zero]
  rfl

/-- A fault outlasts every operation: no primitive and no response clears it (R254). -/
theorem keptFaulted : Kept (fun s => s.fault = true) (fun s => s.fault = true) where
  cfgOut l _ h := by cases l <;> exact h
  cfgIn _ h := h
  setTo l _ _ _ h _ := by cases l <;> exact h
  slept _ _ h := h
  sampled _ _ _ _ _ h _ := h
  engine _ _ _ _ _ _ h := h
  count _ _ h _ := h
  faulted _ _ _ _ := rfl

/-- No primitive leaves a configured line unconfigured (R22, R222). -/
theorem keptConfigured (k : Line) :
    Kept (fun s => (s.line k).mode ≠ .unconf) (fun s => (s.line k).mode ≠ .unconf) where
  cfgOut l s h := by
    rw [State.cfgOut_line]
    split
    · exact nofun
    · exact h
  cfgIn s h := by
    rw [State.cfgIn_line]
    split
    · exact nofun
    · exact h
  setTo l b p s h _ := by
    rw [State.setTo_line]
    split
    · next hl => rw [hl]; exact h
    · exact h
  slept _ _ h := h
  sampled _ _ _ _ _ h _ := h
  engine _ _ _ _ _ _ h := h
  count _ _ h _ := h
  faulted _ _ _ h := h

/-- While `STAT.FAULT` is set no input is accepted (R253, F1). -/
theorem step_present_faulted {s : State} {e : Encoded} {rest : List HostInput} (hp : s.pending = .present e :: rest)
    (hf : s.fault = true) : step s = .refused .busy := by
  simp [step, hp, hf]

/-- Settles O41: an answered INIT ends in its closed form, from which INIT leads to the same; the fault and a line's
configuration outlast every operation. -/
theorem initIdempotent : Obligations.InitIdempotent := by
  refine ⟨fun s t hn hx hf => ?_, fun s t hx hs => keptFaulted.exec_next (fun _ _ h => h) hs hx,
    fun s rest hp hf => step_present_faulted hp hf,
    fun i s t l hx hl => (keptConfigured l).exec_next (fun _ _ h => h) hl hx⟩
  obtain ⟨hb, rfl⟩ := init_done hn hx hf
  exact ⟨rfl, rfl, rfl, rfl, fun hff => exec_init_initialised hn hff hb⟩

/-! ### The null backend -/

/-- F12: on the null backend everything but INIT, SETTIME, READTIME and the codec is refused. -/
theorem exec_refused_onNull {s : State} (hn : onNull s = true) {i : Instr} (hinit : i ≠ .init)
    (hset : ∀ t, i ≠ .settime t) (hread : i ≠ .readtime) (hbcd : ∀ b, i ≠ .bcd2dec b) (hdec : ∀ d, i ≠ .dec2bcd d) :
    exec i s = .refused .nullBackend := by
  cases i with
  | init => exact absurd rfl hinit
  | settime t => exact absurd rfl (hset t)
  | readtime => exact absurd rfl hread
  | bcd2dec b => exact absurd rfl (hbcd b)
  | dec2bcd d => exact absurd rfl (hdec d)
  | wrreg | rdreg | cehi | celo | wrbyte | rdbyte | cfgline | sethi | setlo | rdlvl | sleep
  | secW | secR | minW | minR | hourW | hourR | dateW | dateR
  | monthW | monthR | dayW | dayR | yearW | yearR | wpW | wpR => exact if_pos hn

/-- Settles O49: the facade's three operations answer at once, and the rest is refused before it looks at anything else. -/
theorem nullBackend : Obligations.NullBackend := by
  refine fun s hn => ⟨?_, fun t => ?_, ?_, fun i => exec_refused_onNull hn⟩
  · rw [exec, execInit, if_pos hn, respond, okResponse_zero]
  · rw [exec, execSettime, if_pos hn, respond, okResponse_zero]
  · rw [exec, execReadtime, if_pos hn, respond, okResponse_eq]

/-- Settles O52: both only answer, and the response touches neither the trace nor `STAT.FAULT`. -/
theorem neverFaults : Obligations.NeverFaults := by
  intro i s t hf hi hx
  have hanswer : ∃ p, t = respond p s := by
    rcases hi with hn | ⟨b, rfl⟩ | ⟨d, rfl⟩
    · exact exec_next_onNull hn hx
    · exact ⟨_, (Host.Outcome.next.inj hx).symm⟩
    · exact ⟨_, (Host.Outcome.next.inj hx).symm⟩
  obtain ⟨p, rfl⟩ := hanswer
  exact ⟨hf, rfl, rfl⟩

end Sys2Proof.Machine
end

section
/-! PROOFS. SETTIME (R224, R225): its eight write frames with full frame, what `P_store` holds afterwards, and SETTIME as
eight WRREG (R232). -/

namespace Sys2Proof.Machine

/-! ### What the frames leave -/

/-- A peripheral that refuses nothing is as it was after any write frames. -/
theorem foldl_framed_of_refusesNothing (ps : List (Byte × Byte)) {p : Periph} (h : p.refusesNothing = true) :
    ps.foldl (fun p q => Periph.framed q.1 q.2 p) p = p := by
  induction ps with
  | nil => rfl
  | cons q ps ih => rw [List.foldl_cons, Periph.framed_of_refusesNothing h, ih]

/-- The register space after SETTIME `t`: a write for each of the eight pairs, in their order (R224, R72). -/
def Memory.withTime (m : Memory) (t : TimeValue) : Memory :=
  [(7, Config.wpOff), (0, decimalToBcd t.second), (1, decimalToBcd t.minute), (2, decimalToBcd t.hour),
    (3, decimalToBcd t.day), (4, decimalToBcd t.month), (6, yearByte t.year), (7, Config.wpOn)].foldl
    (fun m c => Memory.write m c.1 c.2) m

/-- The write frames of SETTIME leave `P_store` with the time (R73). -/
theorem foldl_framed_setTimePairs (t : TimeValue) (p : PStore) :
    (setTimePairs t).foldl (fun p q => Periph.framed q.1 q.2 p) (.store p) =
      .store { store := p.store.withTime t, n := 16, cmd := 0x8E, dat := Config.wpOn } := rfl

theorem Memory.read_withTime (m : Memory) (t : TimeValue) (j : Nat) :
    Memory.read (m.withTime t) j =
      if j = 7 then some Config.wpOn
      else if j = 6 then some (yearByte t.year)
      else if j = 4 then some (decimalToBcd t.month)
      else if j = 3 then some (decimalToBcd t.day)
      else if j = 2 then some (decimalToBcd t.hour)
      else if j = 1 then some (decimalToBcd t.minute)
      else if j = 0 then some (decimalToBcd t.second)
      else Memory.read m j := by
  simp only [Memory.withTime, List.foldl_cons, List.foldl_nil, Memory.read_write]
  by_cases h : j = 7
  · rw [if_pos h, if_pos h]
  · simp only [if_neg h]

/-! ### SETTIME as an operation -/

/-- SETTIME, whatever is wired. -/
theorem exec_settime_framed {t : TimeValue} {s : State} (hn : onNull s = false) (hy : yearOk t.year = true)
    (hi : idleState s = true) (hf : faultFree s 672) : exec (.settime t) s = .next
    { s with io := ⟨.out, true⟩, sr := 0, bc := 8, tmr := 0, ph := .idle, txn := .none, seq := 0, rw := 0, busy := false,
             trace := s.trace ++ writeFrames (setTimePairs t), prims := s.prims + 672, draws := s.draws + 16,
             periph := (setTimePairs t).foldl (fun p q => Periph.framed q.1 q.2 p) s.periph } := by
  obtain ⟨hclk, hce, -⟩ := idleState_iff.1 hi
  have hlen : (writeFrames (setTimePairs t)).length = 672 := writeFrames_length _
  have hlast : setTimePairs t = (setTimePairs t).dropLast ++ [(0x8E, Config.wpOn)] := rfl
  have hbit : Config.wpOn.getLsbD 7 = true := by decide
  rw [exec_settime hn hy hi, (writeSteps_plays (setTimePairs_write t) 0 s).runs (hlen ▸ hf), Run.andThen_done, finish_done,
    hlast, State.stepsWritten_eq, ← hlast]
  simp only [respond, State.atSeq, okResponse_zero, hclk, hce, hbit]
  rfl

/-- Settles O42: a peripheral that refuses nothing is as before after the frames. -/
theorem settimeUnbound : Obligations.SettimeUnbound := by
  intro t s hn hy hi hp hf
  rw [exec_settime_framed hn hy hi hf, foldl_framed_of_refusesNothing _ hp]
  rfl

theorem exec_settime_store {t : TimeValue} {s : State} {p : PStore} (hn : onNull s = false) (hy : yearOk t.year = true)
    (hi : idleState s = true) (hp : s.periph = .store p) (hf : faultFree s 672) : exec (.settime t) s = .next
    { s with io := ⟨.out, true⟩, sr := 0, bc := 8, tmr := 0, ph := .idle, txn := .none, seq := 0, rw := 0, busy := false,
             trace := s.trace ++ writeFrames (setTimePairs t), prims := s.prims + 672, draws := s.draws + 16,
             periph := .store { store := p.store.withTime t, n := 16, cmd := 0x8E, dat := Config.wpOn } } := by
  rw [exec_settime_framed hn hy hi hf, hp, foldl_framed_setTimePairs]

/-- Settles O43: the frames write seven rows of the register space, and no other. -/
theorem settimeStore : Obligations.SettimeStore := by
  intro t s p hn hy hi hp hf
  have hread := Memory.read_withTime p.store t
  refine ⟨p.store.withTime t, exec_settime_store hn hy hi hp hf, hread 0, hread 1, hread 2, hread 3, hread 4, hread 6,
    hread 7, fun j hj => ?_⟩
  rw [hread j]
  obtain ⟨h7, h6, h4, h3, h2, h1, h0⟩ : j ≠ 7 ∧ j ≠ 6 ∧ j ≠ 4 ∧ j ≠ 3 ∧ j ≠ 2 ∧ j ≠ 1 ∧ j ≠ 0 := by omega
  simp only [h7, h6, h4, h3, h2, h1, h0, if_false]

/-! ### SETTIME is its eight WRREG -/

theorem SameButEngine.atSeq_left {s t : State} (h : SameButEngine s t) (k : BitVec 4) : SameButEngine (s.atSeq k) t := h

/-- Transactions that are done are the WRREG of their pairs, one after another: each starts in the idle state, to which the
one before has led back (R185). -/
theorem writeSteps_parts {ps : List (Byte × Byte)} (hw : ∀ q ∈ ps, isWriteAddr q.1 = true) {k : BitVec 4} {s s' t : State}
    {u : Unit} (hn : onNull s = false) (hi : idleState s = true) (hs : SameButEngine s s')
    (h : writeSteps k ps s = .done u t) :
    ∃ w, execAll (ps.map fun q => .wrreg q.1 q.2) s' = .next w ∧ SameButEngine t w := by
  induction ps generalizing k s s' with
  | nil =>
    obtain ⟨-, rfl⟩ := Run.done.inj h
    exact ⟨s', rfl, hs⟩
  | cons q ps ih =>
    obtain ⟨ha, hw⟩ := List.forall_mem_cons.1 hw
    obtain ⟨_, s1, h1, h2⟩ := Run.andThen_eq_done h
    have hx : exec (.wrreg q.1 q.2) (s.atSeq k) = .next (respond 0 s1) := by
      rw [exec_wrreg (s := s.atSeq k) hn ha hi, h1, Run.andThen_done, finish_done]
    refine execAll_cons_of_same (hs.atSeq_left k) hx fun s2 h12 => ?_
    obtain rfl := writeRegister_done ha h1
    exact ih hw (s := (s.atSeq k).frameWritten q.1 q.2 _) hn (idleState_of_lowered hi rfl rfl nofun) h12 h2

/-- SETTIME that ends without a fault has run its transactions to the end (R224). -/
theorem settime_done_writeSteps {x : TimeValue} {s t : State} (hn : onNull s = false) (h : exec (.settime x) s = .next t)
    (hf : t.fault = false) : ∃ u, writeSteps 0 (setTimePairs x) s = .done () u ∧ t = respond 0 (u.atSeq 0) := by
  obtain ⟨hy, hi, -⟩ := settime_done hn h hf
  rw [exec_settime hn hy hi] at h
  obtain ⟨_, _, hm, rfl⟩ := finish_next_done h hf ((keptFault.writeSteps trivial).andThen fun _ _ _ _ => trivial)
  obtain ⟨_, u, hw, hu⟩ := Run.andThen_eq_done hm
  obtain ⟨rfl, rfl⟩ := Run.done.inj hu
  exact ⟨u, hw, rfl⟩

/-- Settles O44: the transactions of SETTIME, and its end, which clears `SEQ` and responds, does not show on the wire. -/
theorem settimeIsEightWrites : Obligations.SettimeIsEightWrites := by
  intro t s u hn hx hf
  obtain ⟨-, hi, -⟩ := settime_done hn hx hf
  obtain ⟨v, hv, rfl⟩ := settime_done_writeSteps hn hx hf
  obtain ⟨w, hw, hs⟩ := writeSteps_parts (setTimePairs_write t) hn hi (.refl s) hv
  exact ⟨w, hw, hs.sameWire⟩

end Sys2Proof.Machine
end

section
/-! PROOFS. READTIME (R227 to R229): its six read frames and the Time Value of their bytes, with full frame, whatever is
wired; the ranges of its answer; and SETTIME followed by READTIME as two steps (R230). -/

namespace Sys2Proof.Machine

/-! ### Response words -/

/-- The fields of a response word are read where they are written (R104). -/
theorem rwStatus_responseWord (st : BitVec 2) (p : BitVec 56) : rwStatus (responseWord st p) = st := by
  rw [rwStatus, responseWord, BitVec.append_assoc]
  exact BitVec.extractLsb'_append_eq_left

theorem rwZero_responseWord (st : BitVec 2) (p : BitVec 56) : rwZero (responseWord st p) = 0 := by
  rw [rwZero, responseWord, BitVec.extractLsb'_append_eq_ite]
  exact BitVec.extractLsb'_append_eq_right

theorem rwPayload_responseWord (st : BitVec 2) (p : BitVec 56) : rwPayload (responseWord st p) = p := by
  rw [rwPayload, responseWord]
  exact BitVec.extractLsb'_append_eq_right

/-- The response to READTIME, field by field (R103, R104, R227). -/
theorem okResponse_decodeTime (r0 r1 r2 r3 r4 r6 : Byte) :
    okResponse (packTime (decodeTime r0 r1 r2 r3 r4 r6)) =
      (0#8) ++ BitVec.ofNat 16 (2000 + (bcdToDecimal r6).toNat) ++ bcdToDecimal r4 ++ bcdToDecimal r3 ++
        bcdToDecimal r2 ++ bcdToDecimal r1 ++ bcdToDecimal (r0 &&& 0x7F) := by
  rw [okResponse_eq]
  simp only [packTime, BitVec.append_assoc, BitVec.cast_eq]
  rfl

/-! ### READTIME as an operation -/

/-- READTIME answers the Time Value of the six bytes that its frames play. -/
theorem exec_readtime_read {s : State} (hn : onNull s = false) (hi : idleState s = true) (hf : faultFree s 504)
    {r0 r1 r2 r3 r4 r6 : Byte} {p : Periph} {d : Nat}
    (h : Plays s (readSteps 0 readTimeAddrs s) (readFrames (readTimeAddrs.zip [r0, r1, r2, r3, r4, r6]))
      [r0, r1, r2, r3, r4, r6]
      { State.stepsRead 0 readTimeAddrs [r0, r1, r2, r3, r4, r6] .unbound 0 s with periph := p, draws := d }) :
    exec .readtime s = .next
      { s with io := ⟨.inp, true⟩, sr := r6, bc := 8, tmr := 0, ph := .idle, txn := .none, seq := 0, busy := false,
               rw := (0#8) ++ BitVec.ofNat 16 (2000 + (bcdToDecimal r6).toNat) ++ bcdToDecimal r4 ++ bcdToDecimal r3 ++
                 bcdToDecimal r2 ++ bcdToDecimal r1 ++ bcdToDecimal (r0 &&& 0x7F),
               trace := s.trace ++ readFrames
                 [(0x81, r0), (0x83, r1), (0x85, r2), (0x87, r3), (0x89, r4), (0x8D, r6)],
               prims := s.prims + 504, draws := d, periph := p } := by
  obtain ⟨hclk, hce, -⟩ := idleState_iff.1 hi
  have hlen : (readFrames (readTimeAddrs.zip [r0, r1, r2, r3, r4, r6])).length = 504 := readFrames_length _
  have hend := State.stepsRead_eq readTimeAddrs.dropLast [r0, r1, r2, r3, r4] 0x8D r6 0 .unbound 0 s rfl
  rw [exec_readtime hn hi, h.runs (hlen ▸ hf), Run.andThen_done, finish_done, ← okResponse_decodeTime]
  change State.stepsRead 0 readTimeAddrs [r0, r1, r2, r3, r4, r6] .unbound 0 s = _ at hend
  rw [hend]
  simp only [respond, State.atSeq, hclk, hce]
  rfl

/-- Settles O45: a peripheral that refuses nothing answers some six bytes; an oracle that follows the frames' events
answers theirs. -/
theorem readtimeUnbound : Obligations.ReadtimeUnbound := by
  intro s hn hi hf
  refine ⟨fun hp => ?_, fun o o' r0 r1 r2 r3 r4 r6 hp ho => ?_⟩
  · obtain ⟨rs, p, n, hl, hplays, hafter⟩ := readSteps_plays_free readTimeAddrs (k := 0) hp
    match rs, hl with
    | [r0, r1, r2, r3, r4, r6], _ =>
      exact ⟨r0, r1, r2, r3, r4, r6, p, n, exec_readtime_read hn hi hf hplays, hafter⟩
  · have hplays := readSteps_plays_oracle (as := readTimeAddrs) (rs := [r0, r1, r2, r3, r4, r6]) (k := 0) rfl hp ho
    exact exec_readtime_read hn hi hf hplays

/-- Settles O46: each frame reads its row; the first refuses where the seconds are unwritten. -/
theorem readtimeStore : Obligations.ReadtimeStore := by
  intro s p hn hi hp hf
  refine ⟨fun r0 r1 r2 r3 r4 r6 h0 h1 h2 h3 h4 h6 => ?_, fun h0 => ?_⟩
  · have hrows : List.Forall₂ (fun a r => isReadAddr a = true ∧ ∃ j, rowOf a = some j ∧ Memory.read p.store j = some r)
        readTimeAddrs [r0, r1, r2, r3, r4, r6] :=
      .cons ⟨rfl, 0, rfl, h0⟩ <| .cons ⟨rfl, 1, rfl, h1⟩ <| .cons ⟨rfl, 2, rfl, h2⟩ <| .cons ⟨rfl, 3, rfl, h3⟩ <|
        .cons ⟨rfl, 4, rfl, h4⟩ <| .cons ⟨rfl, 6, rfl, h6⟩ .nil
    obtain ⟨t, hplays, rfl⟩ := readSteps_plays_store (k := 0) hrows rfl hp
    exact exec_readtime_read (d := s.draws + 6) hn hi hf hplays
  · have hfirst := readRegister_unwritten (s := s.atSeq 0) (a := 0x81) (faultFree_mono hf (by decide)) rfl hp rfl h0
    rw [exec_readtime hn hi, readTimeAddrs, readSteps, hfirst, Run.andThen_refused, Run.andThen_refused, finish_refused]

/-! ### The ranges of the answer -/

theorem toNat_bcdToDecimal_le (b : Byte) : (bcdToDecimal b).toNat ≤ 165 := by
  have := b.isLt
  rw [toNat_bcdToDecimal]
  omega

theorem toNat_maskSeconds (b : Byte) : (maskSeconds b).toNat = b.toNat % 128 := by
  rw [maskSeconds, BitVec.toNat_and, show (Config.chMask : Byte).toNat = 2 ^ 7 - 1 from rfl,
    Nat.and_two_pow_sub_one_eq_mod]

/-- With the clock-halt flag masked off the tens digit is at most 7 (R227, R229). -/
theorem toNat_seconds_le (b : Byte) : (bcdToDecimal (maskSeconds b)).toNat ≤ 85 := by
  rw [toNat_bcdToDecimal, toNat_maskSeconds]
  omega

/-- The year of R227 does not leave 16 bits. -/
theorem toNat_yearOf (b : Byte) : (yearOf b).toNat = 2000 + (bcdToDecimal b).toNat := by
  have := toNat_bcdToDecimal_le b
  rw [yearOf, BitVec.toNat_ofNat, show Config.yearBase = 2000 from rfl]
  omega

/-- READTIME from a peripheral that answers all six bytes is answered OK (R229). -/
theorem exec_readtime_ok {s : State} (hn : onNull s = false) (hi : idleState s = true) (hf : faultFree s 504)
    (hheld : ∀ p, s.periph = .store p → ∀ k ∈ [0, 1, 2, 3, 4, 6], (Memory.read p.store k).isSome = true) :
    ∃ t, exec .readtime s = .next t ∧ t.fault = s.fault ∧ rwStatus t.rw = 0 := by
  have hok := rwStatus_responseWord statusOk
  cases hp : s.periph with
  | unbound | oracle o =>
    obtain ⟨r0, r1, r2, r3, r4, r6, p, n, hx, -⟩ := (readtimeUnbound s hn hi hf).1 (by rw [hp]; rfl)
    exact ⟨_, hx, rfl, okResponse_decodeTime r0 r1 r2 r3 r4 r6 ▸ hok _⟩
  | store p =>
    have hrow := fun k hk => Option.isSome_iff_exists.1 (hheld p hp k hk)
    obtain ⟨r0, h0⟩ := hrow 0 (by decide)
    obtain ⟨r1, h1⟩ := hrow 1 (by decide)
    obtain ⟨r2, h2⟩ := hrow 2 (by decide)
    obtain ⟨r3, h3⟩ := hrow 3 (by decide)
    obtain ⟨r4, h4⟩ := hrow 4 (by decide)
    obtain ⟨r6, h6⟩ := hrow 6 (by decide)
    have hx := (readtimeStore s p hn hi hp hf).1 r0 r1 r2 r3 r4 r6 h0 h1 h2 h3 h4 h6
    exact ⟨_, hx, rfl, okResponse_decodeTime r0 r1 r2 r3 r4 r6 ▸ hok _⟩

/-- Settles O47: an answer is the Time Value of some bytes, and every byte's value is in the formula's range. -/
theorem readtimeRanges : Obligations.ReadtimeRanges := by
  refine ⟨fun s t hn hx hf => ?_, fun s hn hi hf => exec_readtime_ok hn hi hf⟩
  obtain ⟨-, rs, u, -, rfl⟩ := readtime_done hn hx hf
  have htime : unpackTime (rwPayload (respond (packTime (decodeTimeBytes rs)) (u.atSeq 0)).rw) = decodeTimeBytes rs :=
    (congrArg unpackTime (rwPayload_responseWord _ _)).trans (unpackTime_packTime _)
  rw [htime]
  have hyear : (decodeTimeBytes rs).year.toNat = _ := toNat_yearOf _
  have hyear_le := toNat_bcdToDecimal_le (rs.getD 5 0)
  exact ⟨rwStatus_responseWord _ _, rwZero_responseWord _ _, toNat_seconds_le _, toNat_bcdToDecimal_le _,
    toNat_bcdToDecimal_le _, toNat_bcdToDecimal_le _, toNat_bcdToDecimal_le _, by omega, by omega⟩

/-! ### SETTIME, then READTIME -/

/-- The step on an input whose operation is answered without a fault and has executed a primitive (R24, R27). -/
theorem step_settles {s u : State} {e : Encoded} {rest : List HostInput} {i : Instr} (hp : s.pending = .present e :: rest)
    (hb : s.busy = false) (hf : s.fault = false) (hd : decode e = .ok i)
    (hx : exec i (acceptInput e { s with pending := rest }) = .next u) (huf : u.fault = false)
    (hup : u.prims ≠ s.prims) : step s = .next (settle u) := by
  rw [step_present hp hb hf hd, hx]
  simp [settleAfter, huf, hup]

/-- The real block takes commands, in the idle state of R180, with `p` wired. -/
structure AwaitsCommand (s : State) (p : PStore) : Prop where
  busy : s.busy = false
  fault : s.fault = false
  onNull : onNull s = false
  idle : idleState s = true
  periph : s.periph = .store p

section Steps

variable {s : State} {p : PStore} {rest : List HostInput} (h : AwaitsCommand s p)
include h

theorem step_settime_store {t : TimeValue} (hp : s.pending = .present (encode (.settime t)) :: rest)
    (hy : yearOk t.year = true) (hf : faultFree s 672) :
    ∃ s1 p1, step s = .next s1 ∧ AwaitsCommand s1 p1 ∧ p1.store = p.store.withTime t ∧ s1.pending = rest ∧
      s1.trace = s.trace ++ writeFrames (setTimePairs t) ∧ s1.prims = s.prims + 672 ∧ s1.lineFaults = s.lineFaults := by
  obtain ⟨hclk, hce, -⟩ := idleState_iff.1 h.idle
  have hx := exec_settime_store (s := acceptInput (encode (.settime t)) { s with pending := rest }) h.onNull hy h.idle
    h.periph hf
  exact ⟨_, _, step_settles hp h.busy h.fault (decodeOfEncode _) hx h.fault (by simp),
    ⟨rfl, h.fault, h.onNull, idleState_iff.2 ⟨hclk, hce, nofun⟩, rfl⟩, rfl, rfl, rfl, rfl, rfl⟩

theorem step_readtime_store (hp : s.pending = .present (encode .readtime) :: rest) (hf : faultFree s 504)
    {r0 r1 r2 r3 r4 r6 : Byte} (h0 : Memory.read p.store 0 = some r0) (h1 : Memory.read p.store 1 = some r1)
    (h2 : Memory.read p.store 2 = some r2) (h3 : Memory.read p.store 3 = some r3) (h4 : Memory.read p.store 4 = some r4)
    (h6 : Memory.read p.store 6 = some r6) :
    ∃ s1 p1, step s = .next s1 ∧ s1.rw = (0#8) ++ packTime (decodeTime r0 r1 r2 r3 r4 r6) ∧ s1.periph = .store p1 ∧
      p1.store = p.store ∧ s1.trace = s.trace ++ readFrames
        [(0x81, r0), (0x83, r1), (0x85, r2), (0x87, r3), (0x89, r4), (0x8D, r6)] := by
  have hx := (readtimeStore (acceptInput (encode .readtime) { s with pending := rest }) p h.onNull h.idle h.periph hf).1
    r0 r1 r2 r3 r4 r6 h0 h1 h2 h3 h4 h6
  exact ⟨_, _, step_settles hp h.busy h.fault (decodeOfEncode _) hx h.fault (by simp),
    (okResponse_decodeTime r0 r1 r2 r3 r4 r6).symm.trans (okResponse_eq _), rfl, rfl, rfl⟩

end Steps

/-- The year's byte gives the year back within the window (R98, R227). -/
theorem yearOf_yearByte {y : BitVec 16} (hy : yearOk y = true) : yearOf (yearByte y) = y := by
  obtain ⟨hlo, hhi⟩ := yearOk_iff.1 hy
  apply BitVec.eq_of_toNat_eq
  rw [toNat_yearOf, yearByte, toNat_bcdToDecimal_decimalToBcd, BitVec.toNat_ofNat, show Config.yearBase = 2000 from rfl]
  omega

/-- The seconds come back modulo 80: the mask takes bit 7 of the stored byte, which counts 80 (R230). -/
theorem toNat_seconds_readBack (d : Byte) :
    (bcdToDecimal (maskSeconds (decimalToBcd d))).toNat = d.toNat % 80 := by
  rw [toNat_bcdToDecimal, toNat_maskSeconds, toNat_decimalToBcd]
  omega

theorem seconds_readBack_low {d : Byte} (hd : d.toNat ≤ 79) : bcdToDecimal (maskSeconds (decimalToBcd d)) = d := by
  apply BitVec.eq_of_toNat_eq
  rw [toNat_seconds_readBack]
  omega

theorem seconds_readBack_high {d : Byte} (hlo : 80 ≤ d.toNat) (hd : d.toNat ≤ 99) :
    bcdToDecimal (maskSeconds (decimalToBcd d)) = d - 80 := by
  apply BitVec.eq_of_toNat_eq
  rw [toNat_seconds_readBack, BitVec.toNat_sub_of_le hlo, show (80 : Byte).toNat = 80 from rfl]
  omega

/-- READTIME's formulas on SETTIME's bytes give the time back but for what the mask does to the seconds (R230). -/
theorem decodeTime_readBack {t : TimeValue} (hy : yearOk t.year = true) (hminute : t.minute.toNat ≤ 159)
    (hhour : t.hour.toNat ≤ 159) (hday : t.day.toNat ≤ 159) (hmonth : t.month.toNat ≤ 159) :
    decodeTime (decimalToBcd t.second) (decimalToBcd t.minute) (decimalToBcd t.hour) (decimalToBcd t.day)
      (decimalToBcd t.month) (yearByte t.year) =
      { t with second := bcdToDecimal (maskSeconds (decimalToBcd t.second)) } := by
  obtain ⟨hback, -⟩ := bcdRoundTrips
  rw [decodeTime, yearOf_yearByte hy, hback _ hminute, hback _ hhour, hback _ hday, hback _ hmonth]

/-- Settles O48: SETTIME's step writes the rows that READTIME's step reads, and the formulas give the time back. -/
theorem setThenReadTime : Obligations.SetThenReadTime := by
  intro t s p rest hp hb hf hn hi hperiph hff hy hminute hhour hday hmonth
  obtain ⟨s1, p1, hstep1, h1, hstore, hp1, htrace1, hprims, hfaults⟩ :=
    step_settime_store ⟨hb, hf, hn, hi, hperiph⟩ hp hy (faultFree_mono hff (by decide))
  have hread := Memory.read_withTime p.store t
  rw [← hstore] at hread
  obtain ⟨s2, p2, hstep2, hrw, hperiph2, hstore2, htrace2⟩ := step_readtime_store h1 hp1
    (faultFree_append (m := 672) hff hprims hfaults) (hread 0) (hread 1) (hread 2) (hread 3) (hread 4) (hread 6)
  rw [decodeTime_readBack hy hminute hhour hday hmonth] at hrw
  refine ⟨s1, s2, hstep1, hstep2, ?_, fun hs => ?_, fun hlo hs => ?_, p2, hperiph2, by rw [hstore2]; exact hread 5⟩
  · simp [htrace2, htrace1, writeFrames_length, readFrames_length, setTimePairs]
  · rw [hrw, seconds_readBack_low hs]
  · rw [hrw, seconds_readBack_high hlo hs]

end Sys2Proof.Machine
end

section
/-! PROOFS. The fault (R251 to R254): what is refused while `STAT` is set, that a reset alone goes on from it and clears it,
and what its entry writes and keeps. -/

namespace Sys2Proof.Machine

/-! ### A block whose `STAT` is set -/

/-- Settles O9: on either way of presenting an input the step looks at `STAT` before it decodes (R258). -/
theorem presentedWhileBusyRefused : Obligations.PresentedWhileBusyRefused := by
  intro s e rest hp hstat
  have hset : (s.busy || s.fault) = true := by simpa using hstat
  rcases hp with hp | ⟨k, hp⟩
  · simp only [step, hp, if_pos hset]
  · simp only [step, hp, if_pos hset]

/-- Settles O10: every other way a step is answered has found `STAT.FAULT` clear. -/
theorem faultClearedByResetOnly : Obligations.FaultClearedByResetOnly := by
  intro s t hfault hstep
  cases step_next hstep with
  | resets hp => exact ⟨_, hp, powerOn_fault _, powerOn_busy _⟩
  | idles _ hf | answers _ _ hf | settles _ _ hf | rejects _ _ hf | abandons _ _ hf | abandonsRejected _ _ hf =>
    exact absurd (hfault.symm.trans hf) (by decide)

/-! ### The entry of the fault -/

theorem FaultFlags.stat_eq {s : State} (h : FaultFlags s) : s.stat = 3#2 := by
  rw [State.stat, h.fault, h.busy]
  rfl

/-- An operation begun in `s` stands in `u`: no primitive has faulted, `CW` is the command's (R31), and the primitives are
counted on. -/
structure State.UnderWay (s u : State) : Prop where
  fault : u.fault = false
  cw : u.cw = s.cw
  prims : s.prims ≤ u.prims

/-- An operation begun in `s` has entered the fault in `t`: the primitive that faulted is counted, and the fault's index is
that of the event that would have come next (R251). -/
structure State.FaultEntered (s t : State) : Prop where
  flags : FaultFlags t
  info : ∃ l p, t.faultInfo = some { line := l, prim := p, index := t.trace.length }
  cw : t.cw = s.cw
  prims : s.prims < t.prims

/-- One primitive further on: it is counted, and leaves `STAT.FAULT` and `CW`. -/
theorem State.UnderWay.counted {s u v : State} (h : s.UnderWay u) (hf : v.fault = u.fault) (hc : v.cw = u.cw)
    (hp : v.prims = u.prims + 1) : s.UnderWay v :=
  ⟨hf.trans h.fault, hc.trans h.cw, hp ▸ Nat.le_succ_of_le h.prims⟩

/-- The entry writes the flags, `RW` and the reason (R253). -/
theorem State.UnderWay.faultEntered {s u : State} (h : s.UnderWay u) (l : Option Line) (p : Primitive) :
    s.FaultEntered (enterLineFault l p { u with prims := u.prims + 1 }) :=
  ⟨⟨rfl, rfl, responseWord_lineFault, rfl⟩, ⟨l, p, rfl⟩, h.cw, Nat.lt_succ_of_le h.prims⟩

theorem keptUnderWay (s : State) : Kept s.UnderWay s.FaultEntered where
  cfgOut _ _ h := h.counted (by simp [State.cfgOut]) (by simp [State.cfgOut]) rfl
  cfgIn _ h := h.counted rfl rfl rfl
  setTo _ _ _ _ h _ := h.counted (by simp [State.setTo]) (by simp [State.setTo]) rfl
  slept _ _ h := h.counted rfl rfl rfl
  sampled _ _ _ _ _ h _ := h.counted rfl rfl rfl
  engine _ _ _ _ _ _ h := ⟨h.fault, h.cw, h.prims⟩
  count _ _ h _ := ⟨h.fault, h.cw, h.prims⟩
  faulted l p _ h := h.faultEntered l p

/-- An operation that begins with `STAT.FAULT` clear and ends with it set has entered the fault: a response does not set
it. -/
theorem exec_faultEntered {i : Instr} {s t : State} (hs : s.fault = false) (hx : exec i s = .next t)
    (ht : t.fault = true) : s.FaultEntered t := by
  rcases (keptUnderWay s).exec ⟨hs, rfl, Nat.le_refl _⟩ hx with ⟨p, u, hu, rfl⟩ | h
  · exact absurd (hu.fault.symm.trans ht) (by decide)
  · exact h

/-- Settles O50: the fault's entry writes `STAT`, `RW` and the reason; the operation up to it has only appended to the trace
and counted its primitives. -/
theorem lineFaultEntry : Obligations.LineFaultEntry := by
  intro i s t hs hx ht
  obtain ⟨hflags, hinfo, hcw, hprims⟩ := exec_faultEntered hs hx ht
  obtain ⟨hcfg, -, hpending, htrace⟩ := exec_extends hx
  exact ⟨hflags.stat_eq, hflags.rw_word, htrace, hinfo, hcfg, hpending, hcw, Nat.ne_of_gt hprims⟩

end Sys2Proof.Machine
end

section
/-! PROOFS. The delay lower bounds (R303): an answered operation appends the events of its closed form, whatever is wired, and
its `Delay` events are counted there. -/

namespace Sys2Proof.Machine

/-- `t` is `s` with events appended whose `Delay`s come to `n` microseconds. -/
def State.Waits (s t : State) (n : Nat) : Prop := ∃ es, t.trace = s.trace ++ es ∧ delayMicros es = n

/-- The events between two traces are determined, so whatever was appended counts the same. -/
theorem State.Waits.delayMicros_eq {s t : State} {n : Nat} {es : List Event} (h : s.Waits t n)
    (ht : t.trace = s.trace ++ es) : delayMicros es = n := by
  obtain ⟨es', ht', rfl⟩ := h
  rw [List.append_cancel_left (ht.symm.trans ht')]

/-- Nothing appended, nothing waited. -/
theorem State.Waits.of_trace_eq {s t : State} (h : t.trace = s.trace) : s.Waits t 0 :=
  ⟨[], h.trans (List.append_nil _).symm, rfl⟩

section Answered

variable {s t : State} (hf : t.fault = false)
include hf

/-! ### Bytes and frames -/

theorem wrbyte_waits {v : Byte} (h : exec (.wrbyte v) s = .next t) : s.Waits t 16 := by
  obtain ⟨-, p, -, rfl⟩ := wrbyte_done h hf
  exact ⟨_, rfl, delayMicros_writeByte v⟩

theorem rdbyte_waits (h : exec .rdbyte s = .next t) : s.Waits t 16 := by
  obtain ⟨-, r, p, n, rfl⟩ := rdbyte_done h hf
  exact ⟨_, rfl, delayMicros_readByte r⟩

theorem wireCommand_waits {b : Byte} (h : wireCommand b s = .next t) : s.Waits t 16 := by
  obtain ⟨-, p, rfl⟩ := wireCommand_done h hf
  exact ⟨_, rfl, delayMicros_writeByte b⟩

theorem wrreg_waits {a v : Byte} (h : exec (.wrreg a v) s = .next t) : s.Waits t 32 := by
  obtain ⟨-, -, -, rfl⟩ := wrreg_done h hf
  exact ⟨_, rfl, delayMicros_writeFrame a v⟩

theorem rdreg_waits {a : Byte} (h : exec (.rdreg a) s = .next t) : s.Waits t 32 := by
  obtain ⟨-, -, -, r, p, n, -, rfl⟩ := rdreg_done h hf
  exact ⟨_, rfl, delayMicros_readFrame a r⟩

/-! ### The facade: eight write frames, six read frames, and the six events of INIT -/

theorem settime_waits (hn : onNull s = false) {x : TimeValue} (h : exec (.settime x) s = .next t) : s.Waits t 256 := by
  obtain ⟨-, -, rfl⟩ := settime_done hn h hf
  exact ⟨_, (writeSteps_plays (setTimePairs_write x) 0 s).trace, delayMicros_writeFrames (setTimePairs x)⟩

theorem readtime_waits (hn : onNull s = false) (h : exec .readtime s = .next t) : s.Waits t 192 := by
  obtain ⟨-, rs, u, hr, rfl⟩ := readtime_done hn h hf
  obtain ⟨hlen, htrace, -⟩ := readSteps_done hr
  refine ⟨_, htrace, ?_⟩
  rw [delayMicros_readFrames, List.length_zip, hlen]
  rfl

theorem init_waits (hn : onNull s = false) (h : exec .init s = .next t) : s.Waits t 0 := by
  obtain ⟨-, rfl⟩ := init_done hn h hf
  exact ⟨initEvents, rfl, rfl⟩

/-! ### Single primitives -/

theorem sleep_waits {d : BitVec 16} (h : exec (.sleep d) s = .next t) : s.Waits t d.toNat := by
  obtain rfl := sleep_exec_done h hf
  exact ⟨[.delay d], rfl, rfl⟩

theorem cehi_waits (h : exec .cehi s = .next t) : s.Waits t 0 := by
  obtain ⟨-, rfl⟩ := cehi_done h hf
  exact ⟨[.set .ce true], rfl, rfl⟩

theorem celo_waits (h : exec .celo s = .next t) : s.Waits t 0 := by
  obtain ⟨-, -, rfl⟩ := celo_done h hf
  exact ⟨[.set .ce false], rfl, rfl⟩

theorem cfgline_waits {l : Line} {d : Dir} (h : exec (.cfgline l d) s = .next t) : s.Waits t 0 := by
  obtain ⟨-, rfl⟩ := cfgline_done h hf
  refine ⟨[.cfg l d], ?_, rfl⟩
  cases d <;> rfl

theorem sethi_waits {l : Line} (h : exec (.sethi l) s = .next t) : s.Waits t 0 := by
  obtain ⟨-, p, -, rfl⟩ := sethi_done h hf
  exact ⟨[.set l true], rfl, rfl⟩

theorem setlo_waits {l : Line} (h : exec (.setlo l) s = .next t) : s.Waits t 0 := by
  obtain ⟨-, p, -, rfl⟩ := setlo_done h hf
  exact ⟨[.set l false], rfl, rfl⟩

theorem rdlvl_waits {l : Line} (h : exec (.rdlvl l) s = .next t) : s.Waits t 0 := by
  obtain ⟨-, b, p, n, -, rfl⟩ := rdlvl_done h hf
  exact ⟨[.sample l b], rfl, rfl⟩

end Answered

/-! ### The codec -/

theorem bcd2dec_waits {b : Byte} {s t : State} (h : exec (.bcd2dec b) s = .next t) : s.Waits t 0 := by
  obtain rfl := Host.Outcome.next.inj h
  exact .of_trace_eq rfl

theorem dec2bcd_waits {d : Byte} {s t : State} (h : exec (.dec2bcd d) s = .next t) : s.Waits t 0 := by
  obtain rfl := Host.Outcome.next.inj h
  exact .of_trace_eq rfl

/-- Settles O57: each answered instruction appends the events of its closed form, and their `Delay`s come to its row of
R303. -/
theorem delayLowerBounds : Obligations.DelayLowerBounds := by
  intro s t es hn hf ht
  have row {n : Nat} (h : s.Waits t n) : delayMicros es = n := h.delayMicros_eq ht
  exact ⟨fun _ h => row (wrbyte_waits hf h),
    fun h => row (rdbyte_waits hf h),
    fun _ _ h => row (wrreg_waits hf h),
    fun _ h => row (rdreg_waits hf h),
    fun _ h => row (settime_waits hf hn h),
    fun h => row (readtime_waits hf hn h),
    fun _ h => row (sleep_waits hf h),
    fun _ hr h => row (wireCommand_waits hf ((exec_wire hr s).symm.trans h)),
    fun h => row (init_waits hf hn h),
    fun h => row (cehi_waits hf h),
    fun h => row (celo_waits hf h),
    fun _ _ h => row (cfgline_waits hf h),
    fun _ h => row (sethi_waits hf h),
    fun _ h => row (setlo_waits hf h),
    fun _ h => row (rdlvl_waits hf h),
    fun _ h => row (bcd2dec_waits h),
    fun _ h => row (dec2bcd_waits h)⟩

end Sys2Proof.Machine
end
